-- ==== Sys2Proof/Word.lean ====
section
/-!
DEFINITION. The word types of the BitAccumulator block (spec/00_scope.md R10, spec/30_encoding.md R80, R82).
All values are unsigned (R10).
-/

namespace Sys2Proof

/-- A byte, the unit of every memory access (20_memory.md R50, R56). -/
abbrev Byte := BitVec 8

/-- The 32-bit command word `CW` (30_encoding.md R82). -/
abbrev CmdWord := BitVec 32

/-- An operand `A0` or `A1` of a command. The port carries `AW` bits, `AW <= 32` (R5, R80): a value is held in 32. -/
abbrev Operand := BitVec 32

/-- The `value` of a response and the widest register, 64 bits (30_encoding.md R91). -/
abbrev Value := BitVec 64

/-- A transform-table entry, 24 bits (45_transform.md R201). -/
abbrev EntryWord := BitVec 24

end Sys2Proof
end

