-- ==== Sys2Proof/Config.lean ====
section
/-!
DEFINITION. The configuration of a block: the parameters of spec/00_scope.md section 3 (R4 to R8), constants that no command
writes. A configuration is plain data held in the machine's state (log 1), so a statement about every state is a statement about
every configuration. The contents of the ROMs are OPEN in the spec: at reset they are free values (log 2).
-/

namespace Sys2Proof

/-- `W`, the width of the accumulator: 32 or 64 bits (R4). -/
inductive AccWidth where
  | w32
  | w64
  deriving DecidableEq, Repr

/-- `W` as a number. -/
def AccWidth.bits : AccWidth → Nat
  | .w32 => 32
  | .w64 => 64

/-- The parameters of a block (R4, R5, R8). `NT` and `POOLSZ` are the lengths of `xt` and `pool`; `MASK` is a formula (R12) and
`REFILL` is fixed to `MIN` (R6, R131), so neither is a field. -/
structure Config where
  /-- `W` (R4). -/
  w : AccWidth
  /-- `AW`, the width of an address and of a byte count (R5). -/
  aw : Nat
  /-- `HAS_CTX`: the ContextModel unit is present (R2, R8). -/
  hasCtx : Bool
  /-- `HAS_XFORM`: the WordTransformer unit is present (R2, R8). -/
  hasXform : Bool
  /-- `CTXLUT[0..511]`, 6-bit entries (R8, 44_context.md R193). -/
  ctxLut : Vector (BitVec 6) 512
  /-- `SGNLUT[0..255]`, 3-bit entries (R8, 44_context.md R194). -/
  sgnLut : Vector (BitVec 3) 256
  /-- `XT[0..NT-1]`, the transform table (45_transform.md R201). -/
  xt : List EntryWord
  /-- `POOL[0..POOLSZ-1]`, the prefix and suffix pool (45_transform.md R202). -/
  pool : List Byte
  /-- `UC_T1`: below it, a byte is a 1-byte character (45_transform.md R225). -/
  ucT1 : Byte
  /-- `UC_T2`: from `UC_T1` up to it, a 2-byte character. -/
  ucT2 : Byte
  /-- `UC_X12`: the bits flipped in a 1-byte or 2-byte character. -/
  ucX12 : Byte
  /-- `UC_X3`: the bits flipped in a 3-byte character. -/
  ucX3 : Byte
  /-- `UC_LO`: the first lowercase letter. -/
  ucLo : Byte
  /-- `UC_HI`: the last lowercase letter. -/
  ucHi : Byte
  /-- `AW` is 1 to 32 (R5). -/
  awRange : 1 ≤ aw ∧ aw ≤ 32 := by decide
  /-- `NT` is 1 to 256 (R8, R201). -/
  ntRange : 1 ≤ xt.length ∧ xt.length ≤ 256 := by decide
  /-- `POOLSZ` is 1 to 256 (R8). -/
  poolRange : 1 ≤ pool.length ∧ pool.length ≤ 256 := by decide
  deriving DecidableEq, Repr

/-- Entry `i` of `CTXLUT` in the configuration of State.reset: OPEN (91_not_in_source.md N10), a free value. -/
opaque Config.freeCtxLut : Nat → BitVec 6

/-- Entry `i` of `SGNLUT` in the configuration of State.reset: OPEN (N10), a free value. -/
opaque Config.freeSgnLut : Nat → BitVec 3

/-- Entry `i` of `XT` in the configuration of State.reset: OPEN (N11), a free value. -/
opaque Config.freeXt : Nat → EntryWord

/-- `NT - 1` in the configuration of State.reset: OPEN (N11), a free value; any `NT` in 1..256 is possible. -/
opaque Config.freeNt : Fin 256

/-- Byte `i` of `POOL` in the configuration of State.reset: OPEN (N11), a free value. -/
opaque Config.freePool : Nat → Byte

/-- `POOLSZ - 1` in the configuration of State.reset: OPEN (N11), a free value; any `POOLSZ` in 1..256 is possible. -/
opaque Config.freePoolSize : Fin 256

/-- The table whose entry `i` is `f i`. -/
def tabulate {α : Type} (n : Nat) (f : Nat → α) : Vector α n :=
  ⟨⟨(List.range n).map f⟩, by simp⟩

/-- The configuration of State.reset (log 2): `W`, `AW`, `HAS_CTX`, `HAS_XFORM` at the values the spec recommends (R4, R5, R8), the
uppercase constants at the spec's listed values (93_implementation_defined.md U14; PRESUMED, log 3), the ROMs free. -/
def Config.atReset : Config where
  w := .w64
  aw := 32
  hasCtx := true
  hasXform := true
  ctxLut := tabulate 512 Config.freeCtxLut
  sgnLut := tabulate 256 Config.freeSgnLut
  xt := (List.range (Config.freeNt.val + 1)).map Config.freeXt
  pool := (List.range (Config.freePoolSize.val + 1)).map Config.freePool
  ucT1 := 0xC0
  ucT2 := 0xE0
  ucX12 := 0x20
  ucX3 := 0x05
  ucLo := 0x61
  ucHi := 0x7A
  ntRange := by simp
  poolRange := by simp

end Sys2Proof
end

