-- ==== Sys2Proof/Syntax.lean ====
section
/-!
DEFINITION. The instructions of the block: one constructor for each row of spec/opcode_table.json. The 21 commands are those of
spec/30_encoding.md R85 with the operands of R84; the 21 body operations are the transform-table entries of
spec/45_transform.md R201, R204 to R224, with the two other fields of the entry (log 10).
-/

namespace Sys2Proof

/-- A command packet as the host presents it: the command word and the two address operands (30_encoding.md R82). -/
structure Packet where
  cw : CmdWord
  a0 : Operand
  a1 : Operand
  deriving DecidableEq, Repr

/-- The operation of a transform-table entry (45_transform.md R204 to R224). -/
inductive BodyOp where
  | identity
  | omitLast1 | omitLast2 | omitLast3 | omitLast4 | omitLast5 | omitLast6 | omitLast7 | omitLast8 | omitLast9
  | uppercaseFirst
  | uppercaseAll
  | omitFirst1 | omitFirst2 | omitFirst3 | omitFirst4 | omitFirst5 | omitFirst6 | omitFirst7 | omitFirst8 | omitFirst9
  deriving DecidableEq, Repr

/-- A transform-table entry `{prefixId, op, suffixId}` (45_transform.md R201). -/
structure Entry where
  prefixId : Byte
  op : BodyOp
  suffixId : Byte
  deriving DecidableEq, Repr

/-- An instruction: a command (operands of 30_encoding.md R84) or a transform-table entry. -/
inductive Instr where
  /-- `INIT base, len` (R110). -/
  | init (base len : Operand)
  /-- `RESEAT base, len` (R111). -/
  | reseat (base len : Operand)
  /-- `WARMUP` (R112). -/
  | warmup
  /-- `AVAIL` (R113). -/
  | avail
  /-- `REMBYTES` (R114). -/
  | rembytes
  /-- `FILL n` (R131). -/
  | fill (n : BitVec 6)
  /-- `GETU` (R132). -/
  | getu
  /-- `GET n` (R133). -/
  | get (n : BitVec 6)
  /-- `TAKE n` (R134). -/
  | take (n : BitVec 6)
  /-- `READ n` (R135). -/
  | read (n : BitVec 6)
  /-- `SREAD n` (R150). -/
  | sread (n : BitVec 6)
  /-- `SGET n` (R151). -/
  | sget (n : BitVec 6)
  /-- `PULL` (R152). -/
  | pull
  /-- `DROP n` (R153). -/
  | drop (n : BitVec 6)
  /-- `ALIGN` (R170). -/
  | align
  /-- `COPY dest, cnt` (R171). -/
  | copy (dest cnt : Operand)
  /-- `SAVE` (R172). -/
  | save
  /-- `RESTORE` (R173). -/
  | restore
  /-- `RDREG sel` (R115). -/
  | rdreg (sel : BitVec 6)
  /-- `CTX mode, p1, p2` (R190). -/
  | ctx (mode : BitVec 6) (p1 p2 : Byte)
  /-- `XFORM tid, word, len, dest` (R200); `word` and `dest` are `A0` and `A1`. -/
  | xform (tid len : Byte) (word dest : Operand)
  /-- Entry with operation `IDENTITY` (R204). -/
  | identity (prefixId suffixId : Byte)
  /-- Entry with operation `OMIT_LAST_1` (R205). -/
  | omitLast1 (prefixId suffixId : Byte)
  /-- Entry with operation `OMIT_LAST_2` (R206). -/
  | omitLast2 (prefixId suffixId : Byte)
  /-- Entry with operation `OMIT_LAST_3` (R207). -/
  | omitLast3 (prefixId suffixId : Byte)
  /-- Entry with operation `OMIT_LAST_4` (R208). -/
  | omitLast4 (prefixId suffixId : Byte)
  /-- Entry with operation `OMIT_LAST_5` (R209). -/
  | omitLast5 (prefixId suffixId : Byte)
  /-- Entry with operation `OMIT_LAST_6` (R210). -/
  | omitLast6 (prefixId suffixId : Byte)
  /-- Entry with operation `OMIT_LAST_7` (R211). -/
  | omitLast7 (prefixId suffixId : Byte)
  /-- Entry with operation `OMIT_LAST_8` (R212). -/
  | omitLast8 (prefixId suffixId : Byte)
  /-- Entry with operation `OMIT_LAST_9` (R213). -/
  | omitLast9 (prefixId suffixId : Byte)
  /-- Entry with operation `UPPERCASE_FIRST` (R214). -/
  | uppercaseFirst (prefixId suffixId : Byte)
  /-- Entry with operation `UPPERCASE_ALL` (R215). -/
  | uppercaseAll (prefixId suffixId : Byte)
  /-- Entry with operation `OMIT_FIRST_1` (R216). -/
  | omitFirst1 (prefixId suffixId : Byte)
  /-- Entry with operation `OMIT_FIRST_2` (R217). -/
  | omitFirst2 (prefixId suffixId : Byte)
  /-- Entry with operation `OMIT_FIRST_3` (R218). -/
  | omitFirst3 (prefixId suffixId : Byte)
  /-- Entry with operation `OMIT_FIRST_4` (R219). -/
  | omitFirst4 (prefixId suffixId : Byte)
  /-- Entry with operation `OMIT_FIRST_5` (R220). -/
  | omitFirst5 (prefixId suffixId : Byte)
  /-- Entry with operation `OMIT_FIRST_6` (R221). -/
  | omitFirst6 (prefixId suffixId : Byte)
  /-- Entry with operation `OMIT_FIRST_7` (R222). -/
  | omitFirst7 (prefixId suffixId : Byte)
  /-- Entry with operation `OMIT_FIRST_8` (R223). -/
  | omitFirst8 (prefixId suffixId : Byte)
  /-- Entry with operation `OMIT_FIRST_9` (R224). -/
  | omitFirst9 (prefixId suffixId : Byte)
  deriving DecidableEq, Repr

end Sys2Proof
end

