-- ==== Sys2Proof/Machine/State.lean ====
section
/-!
DEFINITION. The state of the block and of what it is connected to, as plain data (spec/10_state.md, spec/20_memory.md R50,
spec/30_encoding.md R80, R34). INVENTORY.md lists every piece with its rule and its reset value.
-/

namespace Sys2Proof.Machine

/-- A memory space: the bytes that differ from `unlistedByte`, at strictly rising addresses (`Memory.wf` in Machine/Ops.lean). -/
abbrev Memory := List Host.Cell

/-- What an address that a memory does not list reads as. The contents of the spaces after reset are unspecified (R37):
DESIGN CHOICE 0x00 (log 5), unsafe for a claim about State.reset that rests on it. -/
def unlistedByte : Byte := 0

/-- The three byte-addressed spaces (20_memory.md R50). -/
inductive Space where
  /-- `IN`: read only. -/
  | input
  /-- `OUT`: write only. -/
  | output
  /-- `DICT`: read only. -/
  | dict
  deriving DecidableEq, Repr

/-- The causes of the block's own faults (60_exceptions.md R241); raising one is an ordinary next state (R242). -/
inductive Cause where
  | illegalOpcode
  | illegalField
  | underrun
  | noRoom
  | copyRange
  | noCheckpoint
  | xformRange
  deriving DecidableEq, Repr

/-- The status of a response (30_encoding.md R90). -/
inductive Status where
  | ok
  | noData
  | badPad
  | fault
  deriving DecidableEq, Repr

/-- A response: `status` and `value` (30_encoding.md R80, R90, R91). -/
structure Response where
  status : Status
  value : Value
  deriving DecidableEq, Repr

/-- The four stream registers (10_state.md R20 to R23), also the shape of the checkpoint bank (R28). -/
structure Stream where
  /-- `acc`, `W` bits, in the low `W` of 64 (R20, log 12). -/
  acc : BitVec 64
  /-- `bitPos`, an integer in `0..W` (R21). -/
  bitPos : Nat
  /-- `cursor`, an address in `IN`, below `2^AW` (R22, log 13). -/
  cursor : Nat
  /-- `remaining`, a byte count, below `2^AW` (R23, log 13). -/
  remaining : Nat
  deriving DecidableEq, Repr

/-- What the host does next (20_memory.md R63, 30_encoding.md R80, 70_reset_and_hazards.md R270; log 8, log 9). -/
inductive HostEvent where
  /-- The host presents a command packet. -/
  | command (p : Packet)
  /-- The reset event, between two commands (R270). -/
  | reset
  /-- The reset event while command `p` runs, after `written` of its writes to `OUT` (R270, U20). -/
  | abort (p : Packet) (written : Nat)
  /-- The host writes a byte of a space, between two commands (R63). -/
  | put (space : Space) (address : Nat) (byte : Byte)
  deriving DecidableEq, Repr

/-- Why the model stops without a next state. -/
inductive Fault where
  /-- An access to an address at or above `2^AW`, which does not exist (R50, R56). Raised by a command whose reads of `IN` would pass
  the top of the space, which only a state outside the invariant can make (R22, R89), and by a host write there. Safe: the model stops. -/
  | noSuchAddress (space : Space)
  deriving DecidableEq, Repr

/-- Why the model gives an instruction no meaning. -/
inductive Refusal where
  /-- Raised by an arm of exec whose instruction has no meaning yet; no arm is left so. Safe: the model stops. -/
  | notModelled (mnemonic : String)
  deriving DecidableEq, Repr

/-- The state of the block, its ports, its memory spaces and the host's events to come. -/
structure State where
  /-- The configuration, a constant (R4 to R8, log 1). -/
  cfg : Config
  /-- The stream registers (R20 to R23). -/
  strm : Stream
  /-- The checkpoint bank `ck_acc`, `ck_bitPos`, `ck_cursor`, `ck_remaining` (R28). -/
  ck : Stream
  /-- The bank holds a checkpoint that `RESTORE` may use (R28, R29). -/
  ckValid : Bool
  /-- The sticky fault latch (R29, R242). -/
  fault : Bool
  /-- The cause latched when `fault` went from 0 to 1 (R29, R241, R242). -/
  faultCause : BitVec 4
  /-- The space `IN`. -/
  inMem : Memory
  /-- The space `OUT`. -/
  outMem : Memory
  /-- The space `DICT`. -/
  dictMem : Memory
  /-- The fields on the command port: the packet of the command that runs, or ran last (R80). -/
  port : Packet
  /-- The last response on the response port, none before the first after reset (R80, R81). -/
  resp : Option Response
  /-- The host's events still to come (R34, log 8). -/
  host : List HostEvent
  deriving DecidableEq, Repr

/-- The stream registers after reset, those of `INIT 0, 0` (R37): an empty window over an empty chunk. -/
def Stream.atReset (w : AccWidth) : Stream := ⟨0, w.bits, 0, 0⟩

/-- The contents of the checkpoint bank after reset: unspecified (R37, U11); DESIGN CHOICE zeros (log 6). -/
def Stream.bankAtReset : Stream := ⟨0, 0, 0, 0⟩

/-- A block of a given configuration right after reset (R37, R270), over given memories and host events. -/
def State.resetWith (c : Config) (inMem outMem dictMem : Memory) (host : List HostEvent) : State where
  cfg := c
  strm := Stream.atReset c.w
  ck := Stream.bankAtReset
  ckValid := false
  fault := false
  faultCause := 0
  inMem := inMem
  outMem := outMem
  dictMem := dictMem
  port := ⟨0, 0, 0⟩
  resp := none
  host := host

/-- The machine right after reset (R37): the configuration of log 2, memories with nothing listed (log 5), no host event (log 8). -/
def State.reset : State := State.resetWith Config.atReset [] [] [] []

end Sys2Proof.Machine
end

