-- ==== Sys2Proof/Machine/Flags.lean ====
section
/-!
DEFINITION. The flags of the block (spec/10_state.md R29, R33): `ckValid`, `fault`, `faultCause`, the view `STATUS`, and the codes of
the causes and statuses (spec/60_exceptions.md R241, spec/30_encoding.md R90). The block has no condition codes (R29).
-/

namespace Sys2Proof.Machine

/-- The code of a fault cause (R241). -/
def Cause.code : Cause → BitVec 4
  | .illegalOpcode => 1
  | .illegalField => 2
  | .underrun => 3
  | .noRoom => 4
  | .copyRange => 5
  | .noCheckpoint => 6
  | .xformRange => 7

/-- The code of a response status (R90). -/
def Status.code : Status → BitVec 2
  | .ok => 0
  | .noData => 1
  | .badPad => 2
  | .fault => 3

/-- `STATUS` (R33): `faultCause` 7:4, zero 3:2, `ckValid` 1, `fault` 0. -/
def State.statusReg (s : State) : BitVec 8 :=
  s.faultCause ++ (0 : BitVec 2) ++ BitVec.ofBool s.ckValid ++ BitVec.ofBool s.fault

/-- Setting or clearing `ckValid` (R29). -/
def State.withCkValid (s : State) (b : Bool) : State := { s with ckValid := b }

/-- Latching a cause: the first cause is kept and `fault` is set (R242). -/
def State.latch (s : State) (c : Cause) : State :=
  { s with faultCause := if s.fault then s.faultCause else c.code, fault := true }

/-- Leaving the fault state (R110, R244): `fault` and `faultCause` cleared. -/
def State.clearLatch (s : State) : State := { s with fault := false, faultCause := 0 }

end Sys2Proof.Machine
end

