-- ==== Sys2Proof/Decode.lean ====
section
/-!
DEFINITION. Decoding and encoding: the command word (spec/30_encoding.md R82 to R87) and the transform-table entry
(spec/45_transform.md R201). Decoding is total; what it rejects it names. The range of `n` and the address range (R88, R89) depend on
the configuration and are checked by the meanings, after decoding (R92).
-/

namespace Sys2Proof

/-- Why a word is not an instruction. -/
inductive DecodeError where
  /-- The opcode is reserved (R86): `Fault(ILLEGAL_OPCODE)`. -/
  | reservedOpcode
  /-- A must-be-zero bit of `CW` is 1 (R87): `Fault(ILLEGAL_FIELD)`. -/
  | mustBeZero
  /-- A transform-table entry has `op > 20` or a 1 in bits 15:13 (R200, R201): `Fault(XFORM_RANGE)`. -/
  | illFormedEntry
  deriving DecidableEq, Repr

/-- Which optional units a block has (R2, R8). -/
structure Units where
  ctx : Bool
  xform : Bool
  deriving DecidableEq, Repr

/-- A block with both optional units. -/
def Units.all : Units := ⟨true, true⟩

/-- The formats of R83: which fields of `CW` a command uses. -/
inductive Format where
  | Z | N | M | C | X
  deriving DecidableEq, Repr

/-- `op`, bits 31:27 (R82). -/
def opField (cw : CmdWord) : BitVec 5 := cw.extractLsb' 27 5
/-- `z1`, bits 26:24. -/
def z1Field (cw : CmdWord) : BitVec 3 := cw.extractLsb' 24 3
/-- `f2`, bits 23:16. -/
def f2Field (cw : CmdWord) : Byte := cw.extractLsb' 16 8
/-- `f1`, bits 15:8. -/
def f1Field (cw : CmdWord) : Byte := cw.extractLsb' 8 8
/-- `z0`, bits 7:6. -/
def z0Field (cw : CmdWord) : BitVec 2 := cw.extractLsb' 6 2
/-- `n`, bits 5:0. -/
def nField (cw : CmdWord) : BitVec 6 := cw.extractLsb' 0 6

/-- Every field of `CW` that the format does not use is zero (R83, R87). -/
def Format.unusedClear (f : Format) (cw : CmdWord) : Bool :=
  z1Field cw == 0 && z0Field cw == 0 &&
    match f with
    | .Z => f2Field cw == 0 && f1Field cw == 0 && nField cw == 0
    | .N => f2Field cw == 0 && f1Field cw == 0
    | .M => f2Field cw == 0 && f1Field cw == 0 && nField cw == 0
    | .C => true
    | .X => nField cw == 0

/-- The mask of the fixed bits of a format, as R83 lists it. -/
def Format.mask : Format → CmdWord
  | .Z => 0xFFFFFFFF
  | .N => 0xFFFFFFC0
  | .M => 0xFFFFFFFF
  | .C => 0xFF0000C0
  | .X => 0xFF0000FF

/-- The opcode map (R85, R86): the format and the instruction of a packet, or nothing when its opcode is reserved. -/
def commandOf (u : Units) (p : Packet) : Option (Format × Instr) :=
  match (opField p.cw).toNat with
  | 0x00 => some (.M, .init p.a0 p.a1)
  | 0x01 => some (.M, .reseat p.a0 p.a1)
  | 0x02 => some (.Z, .warmup)
  | 0x03 => some (.Z, .avail)
  | 0x04 => some (.Z, .rembytes)
  | 0x05 => some (.N, .fill (nField p.cw))
  | 0x06 => some (.Z, .getu)
  | 0x07 => some (.N, .get (nField p.cw))
  | 0x08 => some (.N, .take (nField p.cw))
  | 0x09 => some (.N, .read (nField p.cw))
  | 0x0A => some (.N, .sread (nField p.cw))
  | 0x0B => some (.N, .sget (nField p.cw))
  | 0x0C => some (.Z, .pull)
  | 0x0D => some (.N, .drop (nField p.cw))
  | 0x0E => some (.Z, .align)
  | 0x0F => some (.M, .copy p.a0 p.a1)
  | 0x10 => some (.Z, .save)
  | 0x11 => some (.Z, .restore)
  | 0x12 => some (.N, .rdreg (nField p.cw))
  | 0x13 => if u.ctx then some (.C, .ctx (nField p.cw) (f1Field p.cw) (f2Field p.cw)) else none
  | 0x14 => if u.xform then some (.X, .xform (f1Field p.cw) (f2Field p.cw) p.a0 p.a1) else none
  | _ => none

/-- The decoder of the command port: the opcode first, then the must-be-zero fields (R86, R87, R92). -/
def decode (u : Units) (p : Packet) : Except DecodeError Instr :=
  match commandOf u p with
  | none => .error .reservedOpcode
  | some (f, i) => if f.unusedClear p.cw then .ok i else .error .mustBeZero

/-- The operation of number `k` (R204 to R224); 21 to 31 are reserved (R201). -/
def bodyOpOf (k : Nat) : Option BodyOp :=
  match k with
  | 0 => some .identity
  | 1 => some .omitLast1
  | 2 => some .omitLast2
  | 3 => some .omitLast3
  | 4 => some .omitLast4
  | 5 => some .omitLast5
  | 6 => some .omitLast6
  | 7 => some .omitLast7
  | 8 => some .omitLast8
  | 9 => some .omitLast9
  | 10 => some .uppercaseFirst
  | 11 => some .uppercaseAll
  | 12 => some .omitFirst1
  | 13 => some .omitFirst2
  | 14 => some .omitFirst3
  | 15 => some .omitFirst4
  | 16 => some .omitFirst5
  | 17 => some .omitFirst6
  | 18 => some .omitFirst7
  | 19 => some .omitFirst8
  | 20 => some .omitFirst9
  | _ => none

/-- The decoder of the transform table (R201): `prefixId` 23:16, zero 15:13, `op` 12:8, `suffixId` 7:0. -/
def decodeEntry (e : EntryWord) : Except DecodeError Entry :=
  match bodyOpOf (e.extractLsb' 8 5).toNat with
  | none => .error .illFormedEntry
  | some op =>
    if e.extractLsb' 13 3 == 0 then .ok ⟨e.extractLsb' 16 8, op, e.extractLsb' 0 8⟩ else .error .illFormedEntry

/-- A transform-table entry as an instruction. -/
def Entry.toInstr (e : Entry) : Instr :=
  match e.op with
  | .identity => .identity e.prefixId e.suffixId
  | .omitLast1 => .omitLast1 e.prefixId e.suffixId
  | .omitLast2 => .omitLast2 e.prefixId e.suffixId
  | .omitLast3 => .omitLast3 e.prefixId e.suffixId
  | .omitLast4 => .omitLast4 e.prefixId e.suffixId
  | .omitLast5 => .omitLast5 e.prefixId e.suffixId
  | .omitLast6 => .omitLast6 e.prefixId e.suffixId
  | .omitLast7 => .omitLast7 e.prefixId e.suffixId
  | .omitLast8 => .omitLast8 e.prefixId e.suffixId
  | .omitLast9 => .omitLast9 e.prefixId e.suffixId
  | .uppercaseFirst => .uppercaseFirst e.prefixId e.suffixId
  | .uppercaseAll => .uppercaseAll e.prefixId e.suffixId
  | .omitFirst1 => .omitFirst1 e.prefixId e.suffixId
  | .omitFirst2 => .omitFirst2 e.prefixId e.suffixId
  | .omitFirst3 => .omitFirst3 e.prefixId e.suffixId
  | .omitFirst4 => .omitFirst4 e.prefixId e.suffixId
  | .omitFirst5 => .omitFirst5 e.prefixId e.suffixId
  | .omitFirst6 => .omitFirst6 e.prefixId e.suffixId
  | .omitFirst7 => .omitFirst7 e.prefixId e.suffixId
  | .omitFirst8 => .omitFirst8 e.prefixId e.suffixId
  | .omitFirst9 => .omitFirst9 e.prefixId e.suffixId

/-! ### The encoder -/

/-- The words of an instruction: a command packet on the command port, or an entry of the transform table. -/
inductive Encoding where
  | packet (p : Packet)
  | entry (e : EntryWord)
  deriving DecidableEq, Repr

/-- A command word from its fields (R82). -/
def commandWord (op : BitVec 5) (f2 f1 : Byte) (n : BitVec 6) : CmdWord :=
  op ++ (0 : BitVec 3) ++ f2 ++ f1 ++ (0 : BitVec 2) ++ n

/-- The number of a body operation (R204 to R224). -/
def BodyOp.code : BodyOp → BitVec 5
  | .identity => 0
  | .omitLast1 => 1
  | .omitLast2 => 2
  | .omitLast3 => 3
  | .omitLast4 => 4
  | .omitLast5 => 5
  | .omitLast6 => 6
  | .omitLast7 => 7
  | .omitLast8 => 8
  | .omitLast9 => 9
  | .uppercaseFirst => 10
  | .uppercaseAll => 11
  | .omitFirst1 => 12
  | .omitFirst2 => 13
  | .omitFirst3 => 14
  | .omitFirst4 => 15
  | .omitFirst5 => 16
  | .omitFirst6 => 17
  | .omitFirst7 => 18
  | .omitFirst8 => 19
  | .omitFirst9 => 20

/-- The word of a transform-table entry (R201). -/
def entryWord (e : Entry) : EntryWord :=
  e.prefixId ++ (0 : BitVec 3) ++ e.op.code ++ e.suffixId

/-- A packet of format `Z` or `N`: `A0` and `A1` are not used and written 0 (R94). -/
def plainPacket (op : BitVec 5) (n : BitVec 6) : Encoding :=
  .packet ⟨commandWord op 0 0 n, 0, 0⟩

/-- The words of an instruction (R84, R85, R94, R201). -/
def encode : Instr → Encoding
  | .init base len => .packet ⟨commandWord 0x00 0 0 0, base, len⟩
  | .reseat base len => .packet ⟨commandWord 0x01 0 0 0, base, len⟩
  | .warmup => plainPacket 0x02 0
  | .avail => plainPacket 0x03 0
  | .rembytes => plainPacket 0x04 0
  | .fill n => plainPacket 0x05 n
  | .getu => plainPacket 0x06 0
  | .get n => plainPacket 0x07 n
  | .take n => plainPacket 0x08 n
  | .read n => plainPacket 0x09 n
  | .sread n => plainPacket 0x0A n
  | .sget n => plainPacket 0x0B n
  | .pull => plainPacket 0x0C 0
  | .drop n => plainPacket 0x0D n
  | .align => plainPacket 0x0E 0
  | .copy dest cnt => .packet ⟨commandWord 0x0F 0 0 0, dest, cnt⟩
  | .save => plainPacket 0x10 0
  | .restore => plainPacket 0x11 0
  | .rdreg sel => plainPacket 0x12 sel
  | .ctx mode p1 p2 => .packet ⟨commandWord 0x13 p2 p1 mode, 0, 0⟩
  | .xform tid len word dest => .packet ⟨commandWord 0x14 len tid 0, word, dest⟩
  | .identity p q => .entry (entryWord ⟨p, .identity, q⟩)
  | .omitLast1 p q => .entry (entryWord ⟨p, .omitLast1, q⟩)
  | .omitLast2 p q => .entry (entryWord ⟨p, .omitLast2, q⟩)
  | .omitLast3 p q => .entry (entryWord ⟨p, .omitLast3, q⟩)
  | .omitLast4 p q => .entry (entryWord ⟨p, .omitLast4, q⟩)
  | .omitLast5 p q => .entry (entryWord ⟨p, .omitLast5, q⟩)
  | .omitLast6 p q => .entry (entryWord ⟨p, .omitLast6, q⟩)
  | .omitLast7 p q => .entry (entryWord ⟨p, .omitLast7, q⟩)
  | .omitLast8 p q => .entry (entryWord ⟨p, .omitLast8, q⟩)
  | .omitLast9 p q => .entry (entryWord ⟨p, .omitLast9, q⟩)
  | .uppercaseFirst p q => .entry (entryWord ⟨p, .uppercaseFirst, q⟩)
  | .uppercaseAll p q => .entry (entryWord ⟨p, .uppercaseAll, q⟩)
  | .omitFirst1 p q => .entry (entryWord ⟨p, .omitFirst1, q⟩)
  | .omitFirst2 p q => .entry (entryWord ⟨p, .omitFirst2, q⟩)
  | .omitFirst3 p q => .entry (entryWord ⟨p, .omitFirst3, q⟩)
  | .omitFirst4 p q => .entry (entryWord ⟨p, .omitFirst4, q⟩)
  | .omitFirst5 p q => .entry (entryWord ⟨p, .omitFirst5, q⟩)
  | .omitFirst6 p q => .entry (entryWord ⟨p, .omitFirst6, q⟩)
  | .omitFirst7 p q => .entry (entryWord ⟨p, .omitFirst7, q⟩)
  | .omitFirst8 p q => .entry (entryWord ⟨p, .omitFirst8, q⟩)
  | .omitFirst9 p q => .entry (entryWord ⟨p, .omitFirst9, q⟩)

/-- Decoding of either kind of word. -/
def decodeAny (u : Units) : Encoding → Except DecodeError Instr
  | .packet p => decode u p
  | .entry e => (decodeEntry e).map Entry.toInstr

/-- The instruction the decoder reads from a row of spec/opcode_table.json: a row of at most 24 bits is a transform-table entry, a
longer row is a command word with `A0 = A1 = 0`, on a block with both optional units. -/
def decodeTableWord (nbits w : Nat) : Option Instr :=
  let code : Encoding :=
    if nbits ≤ 24 then .entry (BitVec.ofNat 24 w) else .packet ⟨BitVec.ofNat 32 w, 0, 0⟩
  match decodeAny .all code with
  | .ok i => some i
  | .error _ => none

end Sys2Proof
end

