-- ==== Sys2Proof/Machine/Operands.lean ====
section
/-!
DEFINITION. The operand forms and derived quantities of the rules: the legal range of `n` and of an address pair
(spec/30_encoding.md R88, R89), `avail`, `total`, `rembytes`, `mask`, `peek` (spec/00_scope.md R12, R13), the operands of a transform
(spec/30_encoding.md R84) and the fragments of the pool (spec/45_transform.md R202).
-/

namespace Sys2Proof.Machine

/-- The optional units of a configuration (R8). -/
def units (c : Config) : Units := ⟨c.hasCtx, c.hasXform⟩

/-- `NDIR = min(32, W - 8)` (R7). -/
def ndir (c : Config) : Nat := min 32 (c.w.bits - 8)

/-- The number of addresses of a space, `2^AW` (R5, R50). -/
def spaceSize (c : Config) : Nat := 2 ^ c.aw

/-- The address range test of `INIT`, `RESEAT`, `COPY` (R89) and of the word of `XFORM` (R200): `a + k < 2^AW`. -/
def spanFits (c : Config) (a k : Nat) : Bool := a + k < spaceSize c

/-- The largest register number of `RDREG` (10_state.md R32). -/
def lastRegister : Nat := 8

/-- The largest `n` of `READ` and `DROP` (R88). -/
def widestField : Nat := 32

/-- `mask(n) = 2^n - 1`, for `n` in `0..32` (R12). -/
def mask (n : Nat) : BitVec 64 := BitVec.ofNat 64 (2 ^ n - 1)

/-- `avail() = W - bitPos` (R13). -/
def Stream.avail (w : AccWidth) (x : Stream) : Nat := w.bits - x.bitPos

/-- `total() = 8 * remaining + avail()` (R13, R24). -/
def Stream.total (w : AccWidth) (x : Stream) : Nat := 8 * x.remaining + x.avail w

/-- `rembytes() = remaining + (avail() div 8)` (R13). -/
def Stream.rembytes (w : AccWidth) (x : Stream) : Nat := x.remaining + x.avail w / 8

/-- The window unmasked, `acc >> bitPos` (R11, R132). -/
def Stream.window (x : Stream) : BitVec 64 := x.acc >>> x.bitPos

/-- `peek(n) = (acc >> bitPos) & mask(n)` (R13). -/
def Stream.peek (x : Stream) (n : Nat) : BitVec 64 := x.window &&& mask n

/-- The operands of a transform: the length of the dictionary word, its address in `DICT`, the destination in `OUT` (R84, R200). -/
structure XOperands where
  len : Byte
  word : Operand
  dest : Operand
  deriving DecidableEq, Repr

/-- The transform operands of the packet on the command port: `f2`, `A0`, `A1` (R82, R84). -/
def xOperandsOf (p : Packet) : XOperands := ⟨f2Field p.cw, p.a0, p.a1⟩

/-- The bytes up to, not including, the first `0x00`; nothing when there is none (R202). -/
def untilZero : List Byte → Option (List Byte)
  | [] => none
  | b :: rest => if b = 0 then some [] else (untilZero rest).map (b :: ·)

/-- `frag(o)`, the fragment of the pool at offset `o`, or nothing when the offset is ill-formed (R202). -/
def fragment (c : Config) (o : Byte) : Option (List Byte) := untilZero (c.pool.drop o.toNat)

end Sys2Proof.Machine
end

