-- ==== Sys2Proof/Machine/Ops.lean ====
section
/-!
DEFINITION. The named operations over memory, the stream registers and the response port: `MemRead`, `MemWrite`, `load1`, the fill
loop, `respond` and `raise Fault(cause)` (spec/00_scope.md R14, spec/20_memory.md R54, spec/41_fill_peek.md R131,
spec/60_exceptions.md R242, R243).
-/

namespace Sys2Proof.Machine

/-! ### Memory -/

/-- The canonical form: addresses strictly rising, and no entry equal to what an unlisted address reads as. -/
abbrev Memory.wf (m : Memory) : Prop :=
  m.Pairwise (fun c d => c.1 < d.1) ∧ ∀ c ∈ m, c.2 ≠ unlistedByte

/-- Every listed address exists in a space of `size` addresses. -/
abbrev Memory.below (m : Memory) (size : Nat) : Prop := ∀ c ∈ m, c.1 < size

/-- `MemRead(space, a, 1)` (R14). -/
def Memory.read : Memory → Nat → Byte
  | [], _ => unlistedByte
  | (x, b) :: rest, a => if x = a then b else Memory.read rest a

/-- A memory without any entry at `a`. -/
def Memory.erase : Memory → Nat → Memory
  | [], _ => []
  | (x, b) :: rest, a => if x = a then Memory.erase rest a else (x, b) :: Memory.erase rest a

/-- A memory with an entry at `a` put before the first higher address. -/
def Memory.insert : Memory → Nat → Byte → Memory
  | [], a, v => [(a, v)]
  | (x, b) :: rest, a, v => if a < x then (a, v) :: (x, b) :: rest else (x, b) :: Memory.insert rest a v

/-- `MemWrite(space, a, 1, v)` (R14), in canonical form: the unlisted value leaves no entry. -/
def Memory.write (m : Memory) (a : Nat) (v : Byte) : Memory :=
  if v = unlistedByte then m.erase a else (m.erase a).insert a v

/-- The `k` bytes from address `a` upwards. -/
def Memory.readBytes (m : Memory) (a : Nat) : Nat → List Byte
  | 0 => []
  | k + 1 => m.read a :: m.readBytes (a + 1) k

/-- The bytes written from address `a` upwards, in ascending order (R59). -/
def Memory.writeBytes (m : Memory) (a : Nat) : List Byte → Memory
  | [] => m
  | v :: rest => (m.write a v).writeBytes (a + 1) rest

/-! ### The stream registers -/

/-- `load1()` (R54): the byte at `cursor` enters `acc` at the high end. Its callers have `remaining >= 1` and `bitPos >= 8`. -/
def Stream.load1 (w : AccWidth) (inMem : Memory) (x : Stream) : Stream where
  acc := (x.acc >>> 8) ||| ((inMem.read x.cursor).setWidth 64 <<< (w.bits - 8))
  bitPos := x.bitPos - 8
  cursor := x.cursor + 1
  remaining := x.remaining - 1

/-- `while avail() < target and remaining > 0 do load1()`, at most `fuel` times. -/
def Stream.stageLoop (w : AccWidth) (inMem : Memory) (target : Nat) : Nat → Stream → Stream
  | 0, x => x
  | fuel + 1, x =>
    if x.avail w < target ∧ 0 < x.remaining then
      Stream.stageLoop w inMem target fuel (x.load1 w inMem)
    else x

/-- Staging until `target` bits are in the window or the chunk is used up; `remaining` bounds the loop (R278). -/
def Stream.stage (w : AccWidth) (inMem : Memory) (target : Nat) (x : Stream) : Stream :=
  Stream.stageLoop w inMem target x.remaining x

/-- `fill(n)`, the loop of R131 under `REFILL = MIN`. -/
def Stream.fill (w : AccWidth) (inMem : Memory) (n : Nat) (x : Stream) : Stream := x.stage w inMem (n + 1)

/-- `bitPos <- bitPos + n`: consuming moves `bitPos` and leaves `acc` (R20). -/
def Stream.consume (x : Stream) (n : Nat) : Stream := { x with bitPos := x.bitPos + n }

/-- `k` successive `load1()` (R55, R130). -/
def Stream.loadMany (w : AccWidth) (inMem : Memory) : Nat → Stream → Stream
  | 0, x => x
  | k + 1, x => Stream.loadMany w inMem k (x.load1 w inMem)

/-! ### Responses, taking a fault and leaving it -/

/-- What a step of the block ends in. -/
abbrev Result := Host.Outcome State Fault Refusal

/-- `respond(status, value)` (R14, R90, R91). -/
def respond (st : Status) (v : Value) (s : State) : State := { s with resp := some ⟨st, v⟩ }

/-- `raise Fault(cause)`, taking the block's exception (R242): the first cause is latched, `fault` is set, the response is `FAULT` with
this cause. No other register and no memory changes; there is no handler and no saved register. -/
def raise (c : Cause) (s : State) : State := respond .fault (c.code.setWidth 64) (s.latch c)

/-- The return from the fault state, made only by a successful `INIT` (R110, R244) and by reset. -/
def leaveFault (s : State) : State := s.clearLatch

/-- A command refused while `fault = 1`: `FAULT` with the latched cause, nothing else (R243). -/
def refuse (s : State) : State := respond .fault (s.faultCause.setWidth 64) s

/-- The first check of every command but `INIT` and `RDREG` (R243, R245 item 1). -/
def unlessLatched (s : State) (run : Result) : Result := if s.fault then .next (refuse s) else run

/-- The end of a command that may have read `IN`: `s` before it, `t` after it. It read the addresses from `cursor` before to `cursor`
after (R58), all of which must exist: where one does not, the model stops (log 13). No state with `cursor + remaining < 2^AW` gets
there (R22, R89). -/
def endRead (s t : State) : Result :=
  if s.strm.cursor < t.strm.cursor ∧ spaceSize s.cfg < t.strm.cursor then .fault (.noSuchAddress .input) else .next t

/-- The state with other stream registers. -/
def State.withStream (s : State) (x : Stream) : State := { s with strm := x }

/-- Staging in a state: the stream registers after `stage`. -/
def State.staged (s : State) (target : Nat) : State := s.withStream (s.strm.stage s.cfg.w s.inMem target)

/-- The filled state: the stream registers after `fill(n)`. -/
def State.filled (s : State) (n : Nat) : State := s.withStream (s.strm.fill s.cfg.w s.inMem n)

/-- The state with `n` more bits consumed. -/
def State.consume (s : State) (n : Nat) : State := s.withStream (s.strm.consume n)

/-- `avail()` of a state. -/
def State.avail (s : State) : Nat := s.strm.avail s.cfg.w

/-- `total()` of a state. -/
def State.total (s : State) : Nat := s.strm.total s.cfg.w

/-- `rembytes()` of a state. -/
def State.rembytes (s : State) : Nat := s.strm.rembytes s.cfg.w

/-- `peek(n)` of a state. -/
def State.peek (s : State) (n : Nat) : Value := s.strm.peek n

end Sys2Proof.Machine
end

