-- ==== Sys2Proof/Machine/Bulk.lean ====
section
/-!
DEFINITION. The byte-boundary, bulk copy and checkpoint commands `ALIGN`, `COPY`, `SAVE`, `RESTORE` (spec/43_align_copy_ckpt.md).
-/

namespace Sys2Proof.Machine

/-- `ALIGN` (R170): the padding is consumed in both outcomes. -/
def execAlign (s : State) : Result :=
  unlessLatched s <|
    let pad := s.avail % 8
    let st := if s.peek pad = 0 then Status.ok else Status.badPad
    .next (respond st 0 (s.consume pad))

/-- The drain of `COPY` (R171): at most `cnt` staged whole bytes, and the stream registers after it. -/
def Stream.drain (w : AccWidth) : Nat → Stream → List Byte × Stream
  | 0, x => ([], x)
  | cnt + 1, x =>
    if 8 ≤ x.avail w then
      let r := Stream.drain w cnt (x.consume 8)
      ((x.peek 8).setWidth 8 :: r.1, r.2)
    else ([], x)

/-- What `COPY` of `cnt` bytes writes, and the stream registers after it (R171): the drained bytes, then bytes straight from `IN`. -/
def copyBody (cnt : Nat) (s : State) : List Byte × Stream :=
  let r := s.strm.drain s.cfg.w cnt
  let m := cnt - r.1.length
  (r.1 ++ s.inMem.readBytes r.2.cursor m,
    { r.2 with cursor := r.2.cursor + m, remaining := r.2.remaining - m })

/-- `COPY dest, cnt` (R171). -/
def execCopy (dest cnt : Operand) (s : State) : Result :=
  unlessLatched s <|
    if spanFits s.cfg dest.toNat cnt.toNat then
      if s.rembytes < cnt.toNat then .next (raise .copyRange s)
      else
        let r := copyBody cnt.toNat s
        endRead s (respond .ok 0 { s.withStream r.2 with outMem := s.outMem.writeBytes dest.toNat r.1 })
    else .next (raise .illegalField s)

/-- `SAVE` (R172). -/
def execSave (s : State) : Result :=
  unlessLatched s (.next (respond .ok 0 (({ s with ck := s.strm }).withCkValid true)))

/-- `RESTORE` (R173): `ckValid` stays 1. -/
def execRestore (s : State) : Result :=
  unlessLatched s <|
    if s.ckValid then .next (respond .ok 0 (s.withStream s.ck)) else .next (raise .noCheckpoint s)

end Sys2Proof.Machine
end

