-- ==== Sys2Proof/Machine/Checked.lean ====
section
/-!
DEFINITION. The streaming-safe commands and their primitives `SREAD`, `SGET`, `PULL`, `DROP` (spec/42_safe_pull_drop.md).
-/

namespace Sys2Proof.Machine

/-- The safe loop (R150, R151): bytes are staged until `n` bits are in the window; where the chunk ends first the answer is `NODATA` and
what was staged stays staged. -/
def safeField (n : BitVec 6) (s : State) (done : State → State) : Result :=
  unlessLatched s <|
    if ndir s.cfg < n.toNat then .next (raise .illegalField s)
    else
      let t := s.staged n.toNat
      if t.avail < n.toNat then endRead s (respond .noData 0 t) else endRead s (done t)

/-- `SREAD n` (R150). -/
def execSread (n : BitVec 6) (s : State) : Result :=
  safeField n s (fun t => respond .ok (t.peek n.toNat) (t.consume n.toNat))

/-- `SGET n` (R151). -/
def execSget (n : BitVec 6) (s : State) : Result :=
  safeField n s (fun t => respond .ok (t.peek n.toNat) t)

/-- `PULL` (R152): `remaining = 0` is tested before the room. -/
def execPull (s : State) : Result :=
  unlessLatched s <|
    if s.strm.remaining = 0 then .next (respond .noData 0 s)
    else if s.strm.bitPos < 8 then .next (raise .noRoom s)
    else endRead s (respond .ok 0 (s.withStream (s.strm.load1 s.cfg.w s.inMem)))

/-- `DROP n` (R153): its bound is `avail()`; it never stages. -/
def execDrop (n : BitVec 6) (s : State) : Result :=
  unlessLatched s <|
    if widestField < n.toNat then .next (raise .illegalField s)
    else if s.avail < n.toNat then .next (raise .underrun s)
    else .next (respond .ok 0 (s.consume n.toNat))

end Sys2Proof.Machine
end

