-- ==== Sys2Proof/Machine/Context.lean ====
section
/-!
DEFINITION. The optional ContextModel unit (spec/44_context.md): `CTX`, a pure lookup.
-/

namespace Sys2Proof.Machine

/-- `CTXLUT[i]` for an index of the last byte (R193, R196). -/
def ctxLast (c : Config) (p : Byte) : BitVec 6 := c.ctxLut[p.toNat]'(by have := p.isLt; omega)

/-- `CTXLUT[256 + i]` for an index of the second-last byte (R193, R196). -/
def ctxSecond (c : Config) (p : Byte) : BitVec 6 := c.ctxLut[256 + p.toNat]'(by have := p.isLt; omega)

/-- `SGNLUT[i]` (R194). -/
def bucket (c : Config) (p : Byte) : BitVec 3 := c.sgnLut[p.toNat]'(by have := p.isLt; omega)

/-- The context id of a mode and the two previous bytes (R190 to R195). -/
def contextId (c : Config) (mode : BitVec 6) (p1 p2 : Byte) : BitVec 6 :=
  match mode.toNat with
  | 0 => (p1 &&& 0x3F).setWidth 6
  | 1 => (p1 >>> 2).setWidth 6
  | 2 => ctxLast c p1 ||| ctxSecond c p2
  | 3 => ((bucket c p1).setWidth 6 <<< 3) + (bucket c p2).setWidth 6
  | _ => 0

/-- `CTX mode, p1, p2` (R190); its opcode is reserved where the unit is absent (R86). -/
def execCtx (mode : BitVec 6) (p1 p2 : Byte) (s : State) : Result :=
  unlessLatched s <|
    if s.cfg.hasCtx then .next (respond .ok ((contextId s.cfg mode p1 p2).setWidth 64) s)
    else .next (raise .illegalOpcode s)

end Sys2Proof.Machine
end

