-- ==== Sys2Proof/Machine/Session.lean ====
section
/-!
DEFINITION. The session and query commands `INIT`, `RESEAT`, `WARMUP`, `AVAIL`, `REMBYTES`, `RDREG` (spec/40_session_query.md).
-/

namespace Sys2Proof.Machine

/-- The stream registers of a new session on a chunk (R110): an empty window. -/
def startStream (w : AccWidth) (base len : Operand) : Stream := ⟨0, w.bits, base.toNat, len.toNat⟩

/-- `INIT base, len` (R110). Accepted while `fault = 1`; one that fails its check keeps the latch (R243). -/
def execInit (base len : Operand) (s : State) : Result :=
  if spanFits s.cfg base.toNat len.toNat then
    .next (respond .ok 0 (leaveFault ((s.withStream (startStream s.cfg.w base len)).withCkValid false)))
  else .next (raise .illegalField s)

/-- `RESEAT base, len` (R111): `acc` and `bitPos` are kept, `ckValid` is cleared. -/
def execReseat (base len : Operand) (s : State) : Result :=
  unlessLatched s <|
    if spanFits s.cfg base.toNat len.toNat then
      .next (respond .ok 0
        ((s.withStream { s.strm with cursor := base.toNat, remaining := len.toNat }).withCkValid false))
    else .next (raise .illegalField s)

/-- `WARMUP` (R112). -/
def execWarmup (s : State) : Result :=
  unlessLatched s <|
    if s.avail = 0 then
      if s.strm.remaining = 0 then .next (respond .noData 0 s)
      else endRead s (respond .ok 0 (s.withStream (s.strm.load1 s.cfg.w s.inMem)))
    else .next (respond .ok 0 s)

/-- `AVAIL` (R113). -/
def execAvail (s : State) : Result :=
  unlessLatched s (.next (respond .ok (BitVec.ofNat 64 s.avail) s))

/-- `REMBYTES` (R114). -/
def execRembytes (s : State) : Result :=
  unlessLatched s (.next (respond .ok (BitVec.ofNat 64 s.rembytes) s))

/-- A register of the checkpoint bank as `RDREG` reads it: 0 while there is no checkpoint (R28, R32). -/
def State.bankRead (s : State) (v : Value) : Value := if s.ckValid then v else 0

/-- The register map of `RDREG` (R32, R115); `none` for a reserved number. -/
def State.register (s : State) (sel : Nat) : Option Value :=
  match sel with
  | 0 => some s.strm.acc
  | 1 => some (BitVec.ofNat 64 s.strm.bitPos)
  | 2 => some (BitVec.ofNat 64 s.strm.cursor)
  | 3 => some (BitVec.ofNat 64 s.strm.remaining)
  | 4 => some (s.statusReg.setWidth 64)
  | 5 => some (s.bankRead s.ck.acc)
  | 6 => some (s.bankRead (BitVec.ofNat 64 s.ck.bitPos))
  | 7 => some (s.bankRead (BitVec.ofNat 64 s.ck.cursor))
  | 8 => some (s.bankRead (BitVec.ofNat 64 s.ck.remaining))
  | _ => none

/-- `RDREG sel` (R115). Accepted while `fault = 1` (R243); `sel > 8` is out of range (R88). -/
def execRdreg (sel : BitVec 6) (s : State) : Result :=
  match s.register sel.toNat with
  | some v => .next (respond .ok v s)
  | none => .next (raise .illegalField s)

end Sys2Proof.Machine
end

