-- ==== Sys2Proof/Machine/Transform.lean ====
section
/-!
DEFINITION. The optional WordTransformer unit (spec/45_transform.md): the 21 body operations, and `XFORM`, which selects an entry of the
transform table and runs it.
-/

namespace Sys2Proof.Machine

/-! ### The uppercase step (R225) -/

/-- `ucstep(b, i)`: the body after the step at index `i`, and how many bytes the character there spans. At an index outside the body,
which the rules never use, the body is kept and the span is 1. -/
def ucstep (c : Config) (b : List Byte) (i : Nat) : List Byte × Nat :=
  match b[i]? with
  | none => (b, 1)
  | some v =>
    if v < c.ucT1 then
      (if c.ucLo ≤ v ∧ v ≤ c.ucHi then b.set i (v ^^^ c.ucX12) else b, 1)
    else if v < c.ucT2 then
      (if i + 1 < b.length then b.modify (i + 1) (· ^^^ c.ucX12) else b, 2)
    else
      (if i + 2 < b.length then b.modify (i + 2) (· ^^^ c.ucX3) else b, 3)

/-- No case step. -/
def keepBody (_ : Config) (b : List Byte) : List Byte := b

/-- The case step of `UPPERCASE_FIRST` (R214): one step at index 0 of a body that is not empty. -/
def upperFirst (c : Config) (b : List Byte) : List Byte := if 0 < b.length then (ucstep c b 0).1 else b

/-- `while i < blen do i <- i + ucstep(b, i)`, at most `fuel` times. -/
def upperLoop (c : Config) : Nat → Nat → List Byte → List Byte
  | 0, _, b => b
  | fuel + 1, i, b =>
    if i < b.length then
      let r := ucstep c b i
      upperLoop c fuel (i + r.2) r.1
    else b

/-- The case step of `UPPERCASE_ALL` (R215); every step advances, so the length of the body bounds the loop. -/
def upperAll (c : Config) (b : List Byte) : List Byte := upperLoop c b.length 0 b

/-! ### The body extents (R204 to R224) -/

/-- `(skip, blen)` of `IDENTITY` and of the case operations: the whole word (R204, R214, R215). -/
def extentWhole (len : Nat) : Nat × Nat := (0, len)

/-- `(skip, blen)` of `OMIT_LAST_k`, saturating (R205 to R213). -/
def extentOmitLast (k len : Nat) : Nat × Nat := (0, len - min k len)

/-- `(skip, blen)` of `OMIT_FIRST_k`, saturating (R216 to R224). -/
def extentOmitFirst (k len : Nat) : Nat × Nat := (min k len, len - min k len)

/-! ### The expansion (R200, R203) -/

/-- The expansion of a word by an entry, from the check of its fragments on (R200): prefix fragment, body, suffix fragment are written
at `dest` upwards and the count is answered. Every fault comes before any write. -/
def expand (extent : Nat → Nat × Nat) (caseStep : Config → List Byte → List Byte) (p q : Byte) (x : XOperands) (s : State) : State :=
  match fragment s.cfg p, fragment s.cfg q with
  | some pre, some suf =>
    let e := extent x.len.toNat
    let count := pre.length + e.2 + suf.length
    if x.dest.toNat + count < spaceSize s.cfg then
      let body := caseStep s.cfg (s.dictMem.readBytes (x.word.toNat + e.1) e.2)
      respond .ok (BitVec.ofNat 64 count)
        { s with outMem := s.outMem.writeBytes x.dest.toNat (pre ++ body ++ suf) }
    else raise .xformRange s
  | _, _ => raise .xformRange s

/-- The expansion by an entry with operation `IDENTITY` (R204). -/
def xfIdentity (p q : Byte) (x : XOperands) (s : State) : State := expand extentWhole keepBody p q x s

/-- The expansion by an entry with operation `OMIT_LAST_1` (R205). -/
def xfOmitLast1 (p q : Byte) (x : XOperands) (s : State) : State := expand (extentOmitLast 1) keepBody p q x s

/-- The expansion by an entry with operation `OMIT_LAST_2` (R206). -/
def xfOmitLast2 (p q : Byte) (x : XOperands) (s : State) : State := expand (extentOmitLast 2) keepBody p q x s

/-- The expansion by an entry with operation `OMIT_LAST_3` (R207). -/
def xfOmitLast3 (p q : Byte) (x : XOperands) (s : State) : State := expand (extentOmitLast 3) keepBody p q x s

/-- The expansion by an entry with operation `OMIT_LAST_4` (R208). -/
def xfOmitLast4 (p q : Byte) (x : XOperands) (s : State) : State := expand (extentOmitLast 4) keepBody p q x s

/-- The expansion by an entry with operation `OMIT_LAST_5` (R209). -/
def xfOmitLast5 (p q : Byte) (x : XOperands) (s : State) : State := expand (extentOmitLast 5) keepBody p q x s

/-- The expansion by an entry with operation `OMIT_LAST_6` (R210). -/
def xfOmitLast6 (p q : Byte) (x : XOperands) (s : State) : State := expand (extentOmitLast 6) keepBody p q x s

/-- The expansion by an entry with operation `OMIT_LAST_7` (R211). -/
def xfOmitLast7 (p q : Byte) (x : XOperands) (s : State) : State := expand (extentOmitLast 7) keepBody p q x s

/-- The expansion by an entry with operation `OMIT_LAST_8` (R212). -/
def xfOmitLast8 (p q : Byte) (x : XOperands) (s : State) : State := expand (extentOmitLast 8) keepBody p q x s

/-- The expansion by an entry with operation `OMIT_LAST_9` (R213). -/
def xfOmitLast9 (p q : Byte) (x : XOperands) (s : State) : State := expand (extentOmitLast 9) keepBody p q x s

/-- The expansion by an entry with operation `UPPERCASE_FIRST` (R214). -/
def xfUppercaseFirst (p q : Byte) (x : XOperands) (s : State) : State := expand extentWhole upperFirst p q x s

/-- The expansion by an entry with operation `UPPERCASE_ALL` (R215). -/
def xfUppercaseAll (p q : Byte) (x : XOperands) (s : State) : State := expand extentWhole upperAll p q x s

/-- The expansion by an entry with operation `OMIT_FIRST_1` (R216). -/
def xfOmitFirst1 (p q : Byte) (x : XOperands) (s : State) : State := expand (extentOmitFirst 1) keepBody p q x s

/-- The expansion by an entry with operation `OMIT_FIRST_2` (R217). -/
def xfOmitFirst2 (p q : Byte) (x : XOperands) (s : State) : State := expand (extentOmitFirst 2) keepBody p q x s

/-- The expansion by an entry with operation `OMIT_FIRST_3` (R218). -/
def xfOmitFirst3 (p q : Byte) (x : XOperands) (s : State) : State := expand (extentOmitFirst 3) keepBody p q x s

/-- The expansion by an entry with operation `OMIT_FIRST_4` (R219). -/
def xfOmitFirst4 (p q : Byte) (x : XOperands) (s : State) : State := expand (extentOmitFirst 4) keepBody p q x s

/-- The expansion by an entry with operation `OMIT_FIRST_5` (R220). -/
def xfOmitFirst5 (p q : Byte) (x : XOperands) (s : State) : State := expand (extentOmitFirst 5) keepBody p q x s

/-- The expansion by an entry with operation `OMIT_FIRST_6` (R221). -/
def xfOmitFirst6 (p q : Byte) (x : XOperands) (s : State) : State := expand (extentOmitFirst 6) keepBody p q x s

/-- The expansion by an entry with operation `OMIT_FIRST_7` (R222). -/
def xfOmitFirst7 (p q : Byte) (x : XOperands) (s : State) : State := expand (extentOmitFirst 7) keepBody p q x s

/-- The expansion by an entry with operation `OMIT_FIRST_8` (R223). -/
def xfOmitFirst8 (p q : Byte) (x : XOperands) (s : State) : State := expand (extentOmitFirst 8) keepBody p q x s

/-- The expansion by an entry with operation `OMIT_FIRST_9` (R224). -/
def xfOmitFirst9 (p q : Byte) (x : XOperands) (s : State) : State := expand (extentOmitFirst 9) keepBody p q x s

/-- The expansion by an entry. -/
def runBody (e : Entry) (x : XOperands) (s : State) : State :=
  match e.op with
  | .identity => xfIdentity e.prefixId e.suffixId x s
  | .omitLast1 => xfOmitLast1 e.prefixId e.suffixId x s
  | .omitLast2 => xfOmitLast2 e.prefixId e.suffixId x s
  | .omitLast3 => xfOmitLast3 e.prefixId e.suffixId x s
  | .omitLast4 => xfOmitLast4 e.prefixId e.suffixId x s
  | .omitLast5 => xfOmitLast5 e.prefixId e.suffixId x s
  | .omitLast6 => xfOmitLast6 e.prefixId e.suffixId x s
  | .omitLast7 => xfOmitLast7 e.prefixId e.suffixId x s
  | .omitLast8 => xfOmitLast8 e.prefixId e.suffixId x s
  | .omitLast9 => xfOmitLast9 e.prefixId e.suffixId x s
  | .uppercaseFirst => xfUppercaseFirst e.prefixId e.suffixId x s
  | .uppercaseAll => xfUppercaseAll e.prefixId e.suffixId x s
  | .omitFirst1 => xfOmitFirst1 e.prefixId e.suffixId x s
  | .omitFirst2 => xfOmitFirst2 e.prefixId e.suffixId x s
  | .omitFirst3 => xfOmitFirst3 e.prefixId e.suffixId x s
  | .omitFirst4 => xfOmitFirst4 e.prefixId e.suffixId x s
  | .omitFirst5 => xfOmitFirst5 e.prefixId e.suffixId x s
  | .omitFirst6 => xfOmitFirst6 e.prefixId e.suffixId x s
  | .omitFirst7 => xfOmitFirst7 e.prefixId e.suffixId x s
  | .omitFirst8 => xfOmitFirst8 e.prefixId e.suffixId x s
  | .omitFirst9 => xfOmitFirst9 e.prefixId e.suffixId x s

/-- The checks of `XFORM` that do not read the table (R200, R245): the latch, the presence of the unit (R86), the range of the word. -/
def transformGuard (x : XOperands) (s : State) (run : State) : Result :=
  unlessLatched s <|
    if s.cfg.hasXform then
      if spanFits s.cfg x.word.toNat x.len.toNat then .next run else .next (raise .illegalField s)
    else .next (raise .illegalOpcode s)

/-- `XFORM tid, word, len, dest` (R200): `tid` must be below `NT` and name a well-formed entry, which is then run. -/
def execXform (tid len : Byte) (word dest : Operand) (s : State) : Result :=
  let x : XOperands := ⟨len, word, dest⟩
  transformGuard x s <|
    match s.cfg.xt[tid.toNat]? with
    | none => raise .xformRange s
    | some w =>
      match decodeEntry w with
      | .error _ => raise .xformRange s
      | .ok e => runBody e x s

/-! ### The entries as instructions (log 10) -/

/-- An entry run on the operands of the packet on the command port (log 10). -/
def runEntry (run : XOperands → State → State) (s : State) : Result :=
  let x := xOperandsOf s.port
  transformGuard x s (run x s)

/-- The entry `IDENTITY` (R204) on the word that the command port's operands name. -/
def execIdentity (p q : Byte) (s : State) : Result := runEntry (xfIdentity p q) s

/-- The entry `OMIT_LAST_1` (R205) on the word that the command port's operands name. -/
def execOmitLast1 (p q : Byte) (s : State) : Result := runEntry (xfOmitLast1 p q) s

/-- The entry `OMIT_LAST_2` (R206) on the word that the command port's operands name. -/
def execOmitLast2 (p q : Byte) (s : State) : Result := runEntry (xfOmitLast2 p q) s

/-- The entry `OMIT_LAST_3` (R207) on the word that the command port's operands name. -/
def execOmitLast3 (p q : Byte) (s : State) : Result := runEntry (xfOmitLast3 p q) s

/-- The entry `OMIT_LAST_4` (R208) on the word that the command port's operands name. -/
def execOmitLast4 (p q : Byte) (s : State) : Result := runEntry (xfOmitLast4 p q) s

/-- The entry `OMIT_LAST_5` (R209) on the word that the command port's operands name. -/
def execOmitLast5 (p q : Byte) (s : State) : Result := runEntry (xfOmitLast5 p q) s

/-- The entry `OMIT_LAST_6` (R210) on the word that the command port's operands name. -/
def execOmitLast6 (p q : Byte) (s : State) : Result := runEntry (xfOmitLast6 p q) s

/-- The entry `OMIT_LAST_7` (R211) on the word that the command port's operands name. -/
def execOmitLast7 (p q : Byte) (s : State) : Result := runEntry (xfOmitLast7 p q) s

/-- The entry `OMIT_LAST_8` (R212) on the word that the command port's operands name. -/
def execOmitLast8 (p q : Byte) (s : State) : Result := runEntry (xfOmitLast8 p q) s

/-- The entry `OMIT_LAST_9` (R213) on the word that the command port's operands name. -/
def execOmitLast9 (p q : Byte) (s : State) : Result := runEntry (xfOmitLast9 p q) s

/-- The entry `UPPERCASE_FIRST` (R214) on the word that the command port's operands name. -/
def execUppercaseFirst (p q : Byte) (s : State) : Result := runEntry (xfUppercaseFirst p q) s

/-- The entry `UPPERCASE_ALL` (R215) on the word that the command port's operands name. -/
def execUppercaseAll (p q : Byte) (s : State) : Result := runEntry (xfUppercaseAll p q) s

/-- The entry `OMIT_FIRST_1` (R216) on the word that the command port's operands name. -/
def execOmitFirst1 (p q : Byte) (s : State) : Result := runEntry (xfOmitFirst1 p q) s

/-- The entry `OMIT_FIRST_2` (R217) on the word that the command port's operands name. -/
def execOmitFirst2 (p q : Byte) (s : State) : Result := runEntry (xfOmitFirst2 p q) s

/-- The entry `OMIT_FIRST_3` (R218) on the word that the command port's operands name. -/
def execOmitFirst3 (p q : Byte) (s : State) : Result := runEntry (xfOmitFirst3 p q) s

/-- The entry `OMIT_FIRST_4` (R219) on the word that the command port's operands name. -/
def execOmitFirst4 (p q : Byte) (s : State) : Result := runEntry (xfOmitFirst4 p q) s

/-- The entry `OMIT_FIRST_5` (R220) on the word that the command port's operands name. -/
def execOmitFirst5 (p q : Byte) (s : State) : Result := runEntry (xfOmitFirst5 p q) s

/-- The entry `OMIT_FIRST_6` (R221) on the word that the command port's operands name. -/
def execOmitFirst6 (p q : Byte) (s : State) : Result := runEntry (xfOmitFirst6 p q) s

/-- The entry `OMIT_FIRST_7` (R222) on the word that the command port's operands name. -/
def execOmitFirst7 (p q : Byte) (s : State) : Result := runEntry (xfOmitFirst7 p q) s

/-- The entry `OMIT_FIRST_8` (R223) on the word that the command port's operands name. -/
def execOmitFirst8 (p q : Byte) (s : State) : Result := runEntry (xfOmitFirst8 p q) s

/-- The entry `OMIT_FIRST_9` (R224) on the word that the command port's operands name. -/
def execOmitFirst9 (p q : Byte) (s : State) : Result := runEntry (xfOmitFirst9 p q) s

end Sys2Proof.Machine
end

