-- ==== Sys2Proof/Machine/Window.lean ====
section
/-!
DEFINITION. The unchecked window commands `FILL`, `GETU`, `GET`, `TAKE`, `READ` (spec/41_fill_peek.md).
-/

namespace Sys2Proof.Machine

/-- The checks of an unchecked read of `n` bits, after the latch: the range of `n` (R88), then `n > total()`, `UNDERRUN` (R131, R133 to
R135). -/
def checkedRead (limit : Nat) (n : Nat) (s : State) (run : Result) : Result :=
  unlessLatched s <|
    if limit < n then .next (raise .illegalField s)
    else if s.total < n then .next (raise .underrun s)
    else run

/-- `FILL n` (R131). -/
def execFill (n : BitVec 6) (s : State) : Result :=
  checkedRead (ndir s.cfg) n.toNat s (endRead s (respond .ok 0 (s.filled n.toNat)))

/-- `GETU` (R132): it does not fill and does not mask. -/
def execGetu (s : State) : Result :=
  unlessLatched s (.next (respond .ok s.strm.window s))

/-- `GET n` (R133): fill, then peek. -/
def execGet (n : BitVec 6) (s : State) : Result :=
  let t := s.filled n.toNat
  checkedRead (ndir s.cfg) n.toNat s (endRead s (respond .ok (t.peek n.toNat) t))

/-- One field of `n` bits: fill, peek, consume (the body of R134). -/
def takeField (n : Nat) (s : State) : Value × State :=
  let t := s.filled n
  (t.peek n, t.consume n)

/-- `TAKE n` (R134). -/
def execTake (n : BitVec 6) (s : State) : Result :=
  let r := takeField n.toNat s
  checkedRead (ndir s.cfg) n.toNat s (endRead s (respond .ok r.1 r.2))

/-- A field of up to 32 bits (the body of R135): split into 16 and `n - 16` bits when `W = 32` and `n > 16`. -/
def readField (n : Nat) (s : State) : Value × State :=
  if s.cfg.w = .w64 ∨ n ≤ 16 then takeField n s
  else
    let lo := takeField 16 s
    let hi := takeField (n - 16) lo.2
    (lo.1 ||| (hi.1 <<< 16), hi.2)

/-- `READ n` (R135): `UNDERRUN` is tested once on the whole `n`. -/
def execRead (n : BitVec 6) (s : State) : Result :=
  let r := readField n.toNat s
  checkedRead widestField n.toNat s (endRead s (respond .ok r.1 r.2))

end Sys2Proof.Machine
end

