-- ==== Sys2Proof/Machine/Dispatch.lean ====
section
/-!
DEFINITION. The meaning of every instruction: one arm per constructor of Instr.
-/

namespace Sys2Proof.Machine

def exec (i : Instr) (s : State) : Host.Outcome State Fault Refusal :=
  match i with
  | .init base len => Sys2Proof.Machine.execInit base len s
  | .reseat base len => Sys2Proof.Machine.execReseat base len s
  | .warmup => Sys2Proof.Machine.execWarmup s
  | .avail => Sys2Proof.Machine.execAvail s
  | .rembytes => Sys2Proof.Machine.execRembytes s
  | .fill n => Sys2Proof.Machine.execFill n s
  | .getu => Sys2Proof.Machine.execGetu s
  | .get n => Sys2Proof.Machine.execGet n s
  | .take n => Sys2Proof.Machine.execTake n s
  | .read n => Sys2Proof.Machine.execRead n s
  | .sread n => Sys2Proof.Machine.execSread n s
  | .sget n => Sys2Proof.Machine.execSget n s
  | .pull => Sys2Proof.Machine.execPull s
  | .drop n => Sys2Proof.Machine.execDrop n s
  | .align => Sys2Proof.Machine.execAlign s
  | .copy dest cnt => Sys2Proof.Machine.execCopy dest cnt s
  | .save => Sys2Proof.Machine.execSave s
  | .restore => Sys2Proof.Machine.execRestore s
  | .rdreg sel => Sys2Proof.Machine.execRdreg sel s
  | .ctx mode p1 p2 => Sys2Proof.Machine.execCtx mode p1 p2 s
  | .xform tid len word dest => Sys2Proof.Machine.execXform tid len word dest s
  | .identity p q => Sys2Proof.Machine.execIdentity p q s
  | .omitLast1 p q => Sys2Proof.Machine.execOmitLast1 p q s
  | .omitLast2 p q => Sys2Proof.Machine.execOmitLast2 p q s
  | .omitLast3 p q => Sys2Proof.Machine.execOmitLast3 p q s
  | .omitLast4 p q => Sys2Proof.Machine.execOmitLast4 p q s
  | .omitLast5 p q => Sys2Proof.Machine.execOmitLast5 p q s
  | .omitLast6 p q => Sys2Proof.Machine.execOmitLast6 p q s
  | .omitLast7 p q => Sys2Proof.Machine.execOmitLast7 p q s
  | .omitLast8 p q => Sys2Proof.Machine.execOmitLast8 p q s
  | .omitLast9 p q => Sys2Proof.Machine.execOmitLast9 p q s
  | .uppercaseFirst p q => Sys2Proof.Machine.execUppercaseFirst p q s
  | .uppercaseAll p q => Sys2Proof.Machine.execUppercaseAll p q s
  | .omitFirst1 p q => Sys2Proof.Machine.execOmitFirst1 p q s
  | .omitFirst2 p q => Sys2Proof.Machine.execOmitFirst2 p q s
  | .omitFirst3 p q => Sys2Proof.Machine.execOmitFirst3 p q s
  | .omitFirst4 p q => Sys2Proof.Machine.execOmitFirst4 p q s
  | .omitFirst5 p q => Sys2Proof.Machine.execOmitFirst5 p q s
  | .omitFirst6 p q => Sys2Proof.Machine.execOmitFirst6 p q s
  | .omitFirst7 p q => Sys2Proof.Machine.execOmitFirst7 p q s
  | .omitFirst8 p q => Sys2Proof.Machine.execOmitFirst8 p q s
  | .omitFirst9 p q => Sys2Proof.Machine.execOmitFirst9 p q s

end Sys2Proof.Machine
end

