-- ==== Sys2Proof/Machine/Command.lean ====
section
/-!
DEFINITION. The host's events: accepting a command packet (spec/30_encoding.md R81, R92), the reset event (spec/70_reset_and_hazards.md
R270) and host writes (spec/20_memory.md R63). Also how a table row is put where the next step fetches it.
-/

namespace Sys2Proof.Machine

/-- The block accepts a packet: its fields stand on the command port while it runs (R80, R81). -/
def State.accept (s : State) (p : Packet) : State := { s with port := p }

/-- The cause of a packet that is no instruction (R86, R87, R241). -/
def rejectCause : DecodeError → Cause
  | .reservedOpcode => .illegalOpcode
  | .mustBeZero => .illegalField
  | .illFormedEntry => .xformRange

/-- `INIT` and `RDREG`, the opcodes that the latch does not refuse (R243, R245 item 1). -/
def passesLatch (p : Packet) : Bool := opField p.cw == 0x00 || opField p.cw == 0x12

/-- A packet that is no instruction: refused while `fault = 1`, unless its opcode is that of `INIT` or `RDREG` (R243), else a fault
(R86, R87, R92). -/
def rejectPacket (p : Packet) (e : DecodeError) (s : State) : State :=
  if s.fault && !passesLatch p then refuse s else raise (rejectCause e) s

/-- The whole of one command (R81, R92): the packet is accepted, decoded and executed. -/
def runPacket (p : Packet) (s : State) : Result :=
  match decode (units s.cfg) p with
  | .ok i => exec i (s.accept p)
  | .error e => .next (rejectPacket p e (s.accept p))

/-- The reset event (R270): registers at the values of R37, no response; the configuration, the memories and the host's events to come
are not the block's. -/
def resetEvent (s : State) : State := State.resetWith s.cfg s.inMem s.outMem s.dictMem s.host

/-- The first address that a packet writes in `OUT`: `A0` of `COPY`, `A1` of `XFORM` (R84); other commands write nothing. -/
def outDest (p : Packet) : Nat := if opField p.cw == 0x0F then p.a0.toNat else p.a1.toNat

/-- `old` with the first `k` bytes from `a` upwards taken from `new`. -/
def Memory.overlay (old new : Memory) (a : Nat) : Nat → Memory
  | 0 => old
  | k + 1 => (old.write a (new.read a)).overlay new (a + 1) k

/-- Reset during a command (R270): no response; of the bytes that the command would have written, the first `k` are written. `s` is the
state before the command, `t` the state it would have reached. -/
def abandon (p : Packet) (k : Nat) (s t : State) : State :=
  resetEvent { s with outMem := s.outMem.overlay t.outMem (outDest p) k }

/-- A host write between two commands (R63); an address at or above `2^AW` does not exist. -/
def hostPut (sp : Space) (a : Nat) (b : Byte) (s : State) : Result :=
  if spaceSize s.cfg ≤ a then .fault (.noSuchAddress sp)
  else
    match sp with
    | .input => .next { s with inMem := s.inMem.write a b }
    | .output => .next { s with outMem := s.outMem.write a b }
    | .dict => .next { s with dictMem := s.dictMem.write a b }

/-- One host event. -/
def runEvent (e : HostEvent) (s : State) : Result :=
  match e with
  | .command p => runPacket p s
  | .reset => .next (resetEvent s)
  | .abort p k =>
    match runPacket p s with
    | .next t => .next (abandon p k s t)
    | .fault f => .fault f
    | .refused r => .refused r
  | .put sp a b => hostPut sp a b s

/-- A configuration in which entry 0 of the transform table is `e` and every pool offset names the empty fragment, with the
WordTransformer present: what running one table entry takes (log 10). -/
def entryConfig (c : Config) (e : EntryWord) : Config :=
  { c with
    hasXform := true
    xt := [e]
    pool := List.replicate 256 0
    ntRange := by simp
    poolRange := by rw [List.length_replicate]; omega }

/-- The packet `XFORM 0, 0, 0, 0`, which runs entry 0 on the empty word (log 10). -/
def entryPacket : Packet := ⟨0xA0000000, 0, 0⟩

/-- A table row's word where the next step fetches it: a command word as the next packet, an entry as entry 0 of the transform table
with `XFORM 0` as the next packet (log 10). -/
def placeWord (s : State) (nbits w : Nat) : State :=
  if nbits ≤ 24 then
    { s with cfg := entryConfig s.cfg (BitVec.ofNat 24 w), host := .command entryPacket :: s.host }
  else { s with host := .command ⟨BitVec.ofNat 32 w, 0, 0⟩ :: s.host }

end Sys2Proof.Machine
end

