-- ==== Sys2Proof/WellFormed.lean ====
section
/-!
DEFINITION. Well-formed instructions, for a configuration: the unit is present (spec/30_encoding.md R86), `n` is in the range of its
command (R88), the address range is legal (R89, spec/45_transform.md R200), the fragments of an entry are well-formed (R202). The
meanings test each of these again and raise the fault the spec names.
-/

namespace Sys2Proof

open Sys2Proof.Machine

/-- The unit that executes the instruction is present (R2, R86). -/
def Instr.unitPresent (u : Units) : Instr → Bool
  | .init _ _ | .reseat _ _ | .warmup | .avail | .rembytes | .fill _ | .getu | .get _ | .take _ | .read _ | .sread _ | .sget _
  | .pull | .drop _ | .align | .copy _ _ | .save | .restore | .rdreg _ => true
  | .ctx _ _ _ => u.ctx
  | .xform _ _ _ _ => u.xform
  | .identity _ _ | .omitLast1 _ _ | .omitLast2 _ _ | .omitLast3 _ _ | .omitLast4 _ _ | .omitLast5 _ _ | .omitLast6 _ _
  | .omitLast7 _ _ | .omitLast8 _ _ | .omitLast9 _ _ | .uppercaseFirst _ _ | .uppercaseAll _ _ | .omitFirst1 _ _ | .omitFirst2 _ _
  | .omitFirst3 _ _ | .omitFirst4 _ _ | .omitFirst5 _ _ | .omitFirst6 _ _ | .omitFirst7 _ _ | .omitFirst8 _ _ | .omitFirst9 _ _ =>
    u.xform

/-- Both fragments of an entry are well-formed (R202). -/
def fragmentsOk (c : Config) (p q : Byte) : Bool := (fragment c p).isSome && (fragment c q).isSome

/-- The operands are in range: `n` (R88), the address range (R89, R200), the fragments of an entry (R202). -/
def Instr.inRange (c : Config) : Instr → Bool
  | .init base len => spanFits c base.toNat len.toNat
  | .reseat base len => spanFits c base.toNat len.toNat
  | .warmup | .avail | .rembytes | .getu | .pull | .align | .save | .restore => true
  | .fill n | .get n | .take n | .sread n | .sget n => n.toNat ≤ ndir c
  | .read n | .drop n => n.toNat ≤ widestField
  | .copy dest cnt => spanFits c dest.toNat cnt.toNat
  | .rdreg sel => sel.toNat ≤ lastRegister
  | .ctx _ _ _ => true
  | .xform _ len word _ => spanFits c word.toNat len.toNat
  | .identity p q | .omitLast1 p q | .omitLast2 p q | .omitLast3 p q | .omitLast4 p q | .omitLast5 p q | .omitLast6 p q
  | .omitLast7 p q | .omitLast8 p q | .omitLast9 p q | .uppercaseFirst p q | .uppercaseAll p q | .omitFirst1 p q | .omitFirst2 p q
  | .omitFirst3 p q | .omitFirst4 p q | .omitFirst5 p q | .omitFirst6 p q | .omitFirst7 p q | .omitFirst8 p q | .omitFirst9 p q =>
    fragmentsOk c p q

/-- A well-formed instruction of a configuration. -/
def Instr.wellFormed (c : Config) (i : Instr) : Bool := i.unitPresent (units c) && i.inRange c

end Sys2Proof
end

