-- ==== Sys2Proof/Safety.lean ====
section
/-!
DEFINITION. What the statements are about: the invariant of the machine, the logical bit stream that the commands read
(spec/20_memory.md R53), the caller contracts (spec/60_exceptions.md R241, spec/70_reset_and_hazards.md R272), admissible refills
(spec/41_fill_peek.md R130), the bytes a transform stands for (spec/45_transform.md), and runs of several instructions.
-/

namespace Sys2Proof.Machine

/-! ### The invariant -/

/-- Stream registers that fit their widths (10_state.md R20 to R23): `acc` in `W` bits, `bitPos` in `0..W`, the chunk below `2^AW`. -/
abbrev Stream.Ok (c : Config) (x : Stream) : Prop :=
  x.acc.toNat < 2 ^ c.w.bits ∧ x.bitPos ≤ c.w.bits ∧ x.cursor + x.remaining < spaceSize c

/-- The latch: `faultCause` is 0 while `fault = 0`, and one of the codes 1 to 7 while `fault = 1` (R33, R241). -/
abbrev State.LatchOk (s : State) : Prop :=
  (s.fault = false → s.faultCause = 0) ∧ (s.fault = true → 1 ≤ s.faultCause.toNat ∧ s.faultCause.toNat ≤ 7)

/-- A memory of a space of the configuration: in canonical form, with addresses below `2^AW`. -/
abbrev Memory.Ok (c : Config) (m : Memory) : Prop := m.wf ∧ m.below (spaceSize c)

/-- The invariant of the machine. -/
abbrev State.Inv (s : State) : Prop :=
  s.strm.Ok s.cfg ∧ s.ck.Ok s.cfg ∧ s.LatchOk ∧ s.inMem.Ok s.cfg ∧ s.outMem.Ok s.cfg ∧ s.dictMem.Ok s.cfg

/-- A state that meets the invariant and has no latched fault. -/
abbrev State.Ready (s : State) : Prop := s.Inv ∧ s.fault = false

/-! ### The logical stream -/

/-- Bit `k` of the unread stream: the staged bits first, from `acc[bitPos]` upwards, then the bits of the unread bytes of the chunk, each
byte from its bit 0 (R25, R53). -/
def State.streamBit (s : State) (k : Nat) : Bool :=
  if k < s.avail then s.strm.acc.getLsbD (s.strm.bitPos + k)
  else (s.inMem.read (s.strm.cursor + (k - s.avail) / 8)).getLsbD ((k - s.avail) % 8)

/-- `v` is the `n`-bit field at stream bit `k`: bit `i` of `v` is stream bit `k + i`, and the bits from `n` up are 0 (R53). -/
abbrev State.FieldAt (s : State) (k n : Nat) (v : Value) : Prop :=
  ∀ i, v.getLsbD i = (decide (i < n) && s.streamBit (k + i))

/-- `t` has the stream of `s` from its bit `n` on: `n` bits fewer, and every bit that is left is the same (R24, R26). -/
def StreamAdvanced (s t : State) (n : Nat) : Prop :=
  t.total + n = s.total ∧ ∀ k, k < t.total → t.streamBit k = s.streamBit (n + k)

/-- A refill of `k` bytes is admissible for a request of `n` bits (R130). -/
abbrev AdmissibleRefill (w : AccWidth) (n k : Nat) (x : Stream) : Prop :=
  k ≤ x.remaining ∧ 8 * k ≤ x.bitPos ∧ min (n + 1) (x.total w) ≤ x.avail w + 8 * k

/-! ### Transforms -/

/-- A byte of the 1-byte class after the uppercase step (R225). -/
def upperByte (c : Config) (v : Byte) : Byte := if c.ucLo ≤ v ∧ v ≤ c.ucHi then v ^^^ c.ucX12 else v

/-- The uppercase step over a whole body, written along the list: 1-, 2- and 3-byte characters one after the other (R215, R225). -/
def upperText (c : Config) : List Byte → List Byte
  | [] => []
  | [v] => if v < c.ucT1 then [upperByte c v] else [v]
  | [v, b] =>
    if v < c.ucT1 then upperByte c v :: upperText c [b]
    else if v < c.ucT2 then [v, b ^^^ c.ucX12]
    else [v, b]
  | v :: b :: d :: rest =>
    if v < c.ucT1 then upperByte c v :: upperText c (b :: d :: rest)
    else if v < c.ucT2 then v :: (b ^^^ c.ucX12) :: upperText c (d :: rest)
    else v :: b :: (d ^^^ c.ucX3) :: upperText c rest

/-- The uppercase step on the first character of a body (R214, R225). -/
def upperHead (c : Config) : List Byte → List Byte
  | [] => []
  | v :: rest =>
    if v < c.ucT1 then upperByte c v :: rest
    else if v < c.ucT2 then
      match rest with
      | [] => [v]
      | b :: r => v :: (b ^^^ c.ucX12) :: r
    else
      match rest with
      | b :: d :: r => v :: b :: (d ^^^ c.ucX3) :: r
      | r => v :: r

/-- The body that an operation makes of a word (R204 to R224). -/
def bodyText (c : Config) (op : BodyOp) (word : List Byte) : List Byte :=
  match op with
  | .identity => word
  | .omitLast1 => word.take (word.length - 1)
  | .omitLast2 => word.take (word.length - 2)
  | .omitLast3 => word.take (word.length - 3)
  | .omitLast4 => word.take (word.length - 4)
  | .omitLast5 => word.take (word.length - 5)
  | .omitLast6 => word.take (word.length - 6)
  | .omitLast7 => word.take (word.length - 7)
  | .omitLast8 => word.take (word.length - 8)
  | .omitLast9 => word.take (word.length - 9)
  | .uppercaseFirst => upperHead c word
  | .uppercaseAll => upperText c word
  | .omitFirst1 => word.drop 1
  | .omitFirst2 => word.drop 2
  | .omitFirst3 => word.drop 3
  | .omitFirst4 => word.drop 4
  | .omitFirst5 => word.drop 5
  | .omitFirst6 => word.drop 6
  | .omitFirst7 => word.drop 7
  | .omitFirst8 => word.drop 8
  | .omitFirst9 => word.drop 9

/-- The dictionary word that transform operands name (R84, R200). -/
def State.wordAt (s : State) (x : XOperands) : List Byte := s.dictMem.readBytes x.word.toNat x.len.toNat

/-- The bytes of an expansion, prefix, body, suffix, when both fragments are well-formed (R200, R202, R203). -/
def State.expansion (s : State) (e : Entry) (x : XOperands) : Option (List Byte) :=
  match fragment s.cfg e.prefixId, fragment s.cfg e.suffixId with
  | some pre, some suf => some (pre ++ bodyText s.cfg e.op (s.wordAt x) ++ suf)
  | _, _ => none

/-- The entry that `XFORM` with transform id `tid` runs, when `tid < NT` and the entry is well-formed (R200, R201). -/
def State.entryAt (s : State) (tid : Byte) : Option Entry :=
  match s.cfg.xt[tid.toNat]? with
  | none => none
  | some w => (decodeEntry w).toOption

/-- An expansion exists and ends below `2^AW` (R200). -/
def State.expands (s : State) (e : Entry) (x : XOperands) : Bool :=
  match s.expansion e x with
  | some bytes => decide (x.dest.toNat + bytes.length < spaceSize s.cfg)
  | none => false

/-- The outcome of a completed expansion (R200): `OK` with the count, `OUT` holding the bytes at `dest` upwards, every other byte of `OUT`
and all else as before. -/
def ExpandedTo (s : State) (dest : Nat) (bytes : List Byte) (r : Result) : Prop :=
  ∃ t, r = .next t ∧
    t = { s with outMem := t.outMem, resp := some ⟨.ok, BitVec.ofNat 64 bytes.length⟩ } ∧
    (∀ k, (h : k < bytes.length) → t.outMem.read (dest + k) = bytes[k]) ∧
    (∀ a, a < dest ∨ dest + bytes.length ≤ a → t.outMem.read a = s.outMem.read a)

/-! ### Caller contracts -/

/-- The transform-table entry that an instruction is, nothing for a command. -/
def entryOf : Instr → Option Entry
  | .init _ _ | .reseat _ _ | .warmup | .avail | .rembytes | .fill _ | .getu | .get _ | .take _ | .read _ | .sread _ | .sget _
  | .pull | .drop _ | .align | .copy _ _ | .save | .restore | .rdreg _ | .ctx _ _ _ | .xform _ _ _ _ => none
  | .identity p q => some ⟨p, .identity, q⟩
  | .omitLast1 p q => some ⟨p, .omitLast1, q⟩
  | .omitLast2 p q => some ⟨p, .omitLast2, q⟩
  | .omitLast3 p q => some ⟨p, .omitLast3, q⟩
  | .omitLast4 p q => some ⟨p, .omitLast4, q⟩
  | .omitLast5 p q => some ⟨p, .omitLast5, q⟩
  | .omitLast6 p q => some ⟨p, .omitLast6, q⟩
  | .omitLast7 p q => some ⟨p, .omitLast7, q⟩
  | .omitLast8 p q => some ⟨p, .omitLast8, q⟩
  | .omitLast9 p q => some ⟨p, .omitLast9, q⟩
  | .uppercaseFirst p q => some ⟨p, .uppercaseFirst, q⟩
  | .uppercaseAll p q => some ⟨p, .uppercaseAll, q⟩
  | .omitFirst1 p q => some ⟨p, .omitFirst1, q⟩
  | .omitFirst2 p q => some ⟨p, .omitFirst2, q⟩
  | .omitFirst3 p q => some ⟨p, .omitFirst3, q⟩
  | .omitFirst4 p q => some ⟨p, .omitFirst4, q⟩
  | .omitFirst5 p q => some ⟨p, .omitFirst5, q⟩
  | .omitFirst6 p q => some ⟨p, .omitFirst6, q⟩
  | .omitFirst7 p q => some ⟨p, .omitFirst7, q⟩
  | .omitFirst8 p q => some ⟨p, .omitFirst8, q⟩
  | .omitFirst9 p q => some ⟨p, .omitFirst9, q⟩

/-- The contract of a transform (R200): the word ends below `2^AW`, the expansion exists and ends below `2^AW`. -/
def State.transformContract (s : State) (e : Entry) (x : XOperands) : Bool :=
  spanFits s.cfg x.word.toNat x.len.toNat && s.expands e x

/-- The precondition of an instruction on the state (R241, R272): what a host must know before it issues the command. -/
def callerContract (i : Instr) (s : State) : Bool :=
  match i with
  | .fill n | .get n | .take n | .read n => decide (n.toNat ≤ s.total)
  | .drop n => decide (n.toNat ≤ s.avail)
  | .pull => decide (s.strm.remaining = 0 ∨ 8 ≤ s.strm.bitPos)
  | .copy _ cnt => decide (cnt.toNat ≤ s.rembytes)
  | .restore => s.ckValid
  | .xform tid len word dest =>
    match s.entryAt tid with
    | some e => s.transformContract e ⟨len, word, dest⟩
    | none => false
  | .init _ _ | .reseat _ _ | .warmup | .avail | .rembytes | .getu | .sread _ | .sget _ | .align | .save | .rdreg _
  | .ctx _ _ _ => true
  | .identity _ _ | .omitLast1 _ _ | .omitLast2 _ _ | .omitLast3 _ _ | .omitLast4 _ _ | .omitLast5 _ _ | .omitLast6 _ _
  | .omitLast7 _ _ | .omitLast8 _ _ | .omitLast9 _ _ | .uppercaseFirst _ _ | .uppercaseAll _ _ | .omitFirst1 _ _ | .omitFirst2 _ _
  | .omitFirst3 _ _ | .omitFirst4 _ _ | .omitFirst5 _ _ | .omitFirst6 _ _ | .omitFirst7 _ _ | .omitFirst8 _ _ | .omitFirst9 _ _ =>
    match entryOf i with
    | some e => s.transformContract e (xOperandsOf s.port)
    | none => false

/-- The transform operands an instruction uses: those of `XFORM`, else those on the command port (R84, log 10). -/
def transformOperands (i : Instr) (s : State) : XOperands :=
  match entryOf i, i with
  | none, .xform _ len word dest => ⟨len, word, dest⟩
  | _, _ => xOperandsOf s.port

/-- The instructions that write `OUT`: `COPY`, `XFORM` and the table entries (R50). -/
def writesOut (i : Instr) : Bool :=
  match entryOf i, i with
  | some _, _ => true
  | none, .copy _ _ => true
  | none, .xform _ _ _ _ => true
  | none, _ => false

/-- The instructions of the optional units: `CTX`, `XFORM` and the table entries (R2, R27). -/
def ofOptionalUnit (i : Instr) : Bool :=
  match entryOf i, i with
  | some _, _ => true
  | none, .ctx _ _ _ => true
  | none, .xform _ _ _ _ => true
  | none, _ => false

/-- How many stream bits an instruction consumes, by the status it answers (R24): the field of `TAKE`, `READ`, `SREAD`, `DROP` when it is
`OK`, the padding of `ALIGN`, nothing for the others that this is used for. -/
def bitsConsumed (i : Instr) (s : State) (st : Status) : Nat :=
  match entryOf i, i with
  | none, .take n => if st = .ok then n.toNat else 0
  | none, .read n => if st = .ok then n.toNat else 0
  | none, .sread n => if st = .ok then n.toNat else 0
  | none, .drop n => if st = .ok then n.toNat else 0
  | none, .align => if st = .fault then 0 else s.avail % 8
  | _, _ => 0

/-! ### The outcomes the statements name -/

/-- A state after a command that answered `st` with `v` and left the stream registers at `x`: nothing else changed. -/
def State.answered (s : State) (x : Stream) (st : Status) (v : Value) : State := { s with strm := x, resp := some ⟨st, v⟩ }

/-- A state without a latched fault after it took one (R242): nothing else changed. -/
def State.faulted (s : State) (c : Cause) : State :=
  { s with fault := true, faultCause := c.code, resp := some ⟨.fault, c.code.setWidth 64⟩ }

/-- The number of bytes that staging for `target` bits loads: enough for the bits that are missing, capped by the chunk (R131). -/
def bytesToStage (w : AccWidth) (target : Nat) (x : Stream) : Nat := min x.remaining ((target - x.avail w + 7) / 8)

/-- The stream registers after staging for `target` bits, in closed form. -/
def stagedStream (s : State) (target : Nat) (x : Stream) : Stream :=
  x.loadMany s.cfg.w s.inMem (bytesToStage s.cfg.w target x)

/-- A response is a `FAULT` (R90). -/
def State.answeredFault (s : State) : Bool :=
  match s.resp with
  | some r => decide (r.status = .fault)
  | none => false

/-! ### Runs of several instructions -/

/-- The instructions of a list executed in order, with the response of each; nothing when the model stops. -/
def runInstrs : List Instr → State → Option (State × List (Option Response))
  | [], s => some (s, [])
  | i :: rest, s =>
    match exec i s with
    | .next t =>
      match runInstrs rest t with
      | some (u, rs) => some (u, t.resp :: rs)
      | none => none
    | .fault _ => none
    | .refused _ => none

/-- An entry instruction that completes its expansion whenever both fragments are well-formed and the bytes end below `2^AW` (R200): what
it writes is the prefix fragment, `body`, the suffix fragment. -/
def EntryExpands (i : Instr) (s : State) (p q : Byte) (body : List Byte) : Prop :=
  ∀ pre suf, fragment s.cfg p = some pre → fragment s.cfg q = some suf →
    s.port.a1.toNat + (pre ++ body ++ suf).length < spaceSize s.cfg →
      ExpandedTo s s.port.a1.toNat (pre ++ body ++ suf) (exec i s)

/-- Bit `k` of the fields of a list, each a width and a value, packed one after the other with the low bit first (R53, R136 item 5). -/
def packedBit : List (Nat × Nat) → Nat → Bool
  | [], _ => false
  | (w, v) :: rest, k => if k < w then v.testBit k else packedBit rest (k - w)

/-- A result with its next state changed by `f`. -/
def Result.mapNext (f : State → State) : Result → Result
  | .next t => .next (f t)
  | .fault e => .fault e
  | .refused r => .refused r

/-- Two states whose unread streams are the same bits, however many of them are staged in either (R26, R137). -/
def SameStream (s t : State) : Prop :=
  t.cfg = s.cfg ∧ t.total = s.total ∧ ∀ k, k < s.total → t.streamBit k = s.streamBit k

/-- The commands whose response does not depend on how far staging has run ahead (R137). -/
def policyFree (i : Instr) : Bool :=
  match entryOf i, i with
  | none, .get _ | none, .take _ | none, .read _ | none, .sread _ | none, .sget _ => true
  | none, .align | none, .warmup | none, .rembytes => true
  | _, _ => false

end Sys2Proof.Machine
end

