-- ==== Sys2Proof/Certificates/Slice0/Obligations.lean ====
section
/-!
DEFINITION. The statements for the provers. Each docstring names the rule of spec/ it formalises. `State.answered`, `State.faulted` and
the other names of the outcomes stand in Sys2Proof/Safety.lean: a next state written with them says that all else is unchanged.
-/

open Sys2Proof Sys2Proof.Machine

/-! ### Encoding -/

/-- Every instruction whose unit is present is read back from its own words (30_encoding.md R84, R85, 45_transform.md R201). -/
def Obligations.DecodeOfEncode : Prop :=
  ∀ (u : Units) (i : Instr), i.unitPresent u = true → decodeAny u (encode i) = .ok i

/-- A command word that decodes is the word of one instruction, the one it decodes to. The operands `A0`, `A1` are kept, or they are
ignored and the encoder writes 0 (R84, R94). -/
def Obligations.WordOfDecode : Prop :=
  ∀ (u : Units) (p : Packet) (i : Instr), decode u p = .ok i →
    encode i = .packet p ∨
      (encode i = .packet ⟨p.cw, 0, 0⟩ ∧ ∀ a0 a1, decode u ⟨p.cw, a0, a1⟩ = .ok i)

/-- A transform-table entry decodes exactly when `op <= 20` and bits 15:13 are zero, and then it is the word of what it decodes to
(R200, R201). -/
def Obligations.EntryWords : Prop :=
  (∀ (w : EntryWord) (e : Entry), decodeEntry w = .ok e ↔ entryWord e = w) ∧
  (∀ w : EntryWord, (∃ e, decodeEntry w = .ok e) ↔ (w.extractLsb' 8 5).toNat ≤ 20 ∧ w.extractLsb' 13 3 = 0)

/-- Words written out from the tables of R85, R94 and R201 decode to what they stand for, with every field at a distinct value. -/
def Obligations.WrittenWordsDecode : Prop :=
  decode .all ⟨0x00000000, 0x100, 12⟩ = .ok (.init 0x100 12) ∧
  decode .all ⟨0x48000020, 7, 9⟩ = .ok (.read 32) ∧
  decode .all ⟨0x78000000, 0x40, 3⟩ = .ok (.copy 0x40 3) ∧
  decode .all ⟨0x98C3E502, 0, 0⟩ = .ok (.ctx 2 0xE5 0xC3) ∧
  decode .all ⟨0xA0030100, 0x10, 0x80⟩ = .ok (.xform 1 3 0x10 0x80) ∧
  (decodeEntry 0x010B02).map Entry.toInstr = .ok (.uppercaseAll 1 2)

/-- A must-be-zero bit raises `ILLEGAL_FIELD` and has no other effect; a word is well formed when its bits under the mask of its format
are the opcode's (R83, R87). -/
def Obligations.MustBeZeroFaults : Prop :=
  ∀ (s : State) (p : Packet) (rest : List HostEvent) (f : Format) (i : Instr),
    s.host = .command p :: rest → s.fault = false → commandOf (units s.cfg) p = some (f, i) →
      (p.cw &&& f.mask = (opField p.cw).setWidth 32 <<< 27 → decode (units s.cfg) p = .ok i) ∧
      (p.cw &&& f.mask ≠ (opField p.cw).setWidth 32 <<< 27 →
        step s = .next (({ s with host := rest, port := p } : State).faulted .illegalField))

/-- A reserved opcode raises `ILLEGAL_OPCODE` and has no other effect (R86). -/
def Obligations.ReservedOpcodeFaults : Prop :=
  ∀ (s : State) (p : Packet) (rest : List HostEvent), s.host = .command p :: rest → s.fault = false →
    (0x15 ≤ (opField p.cw).toNat ∨ (opField p.cw = 0x13 ∧ s.cfg.hasCtx = false) ∨
      (opField p.cw = 0x14 ∧ s.cfg.hasXform = false)) →
    step s = .next (({ s with host := rest, port := p } : State).faulted .illegalOpcode)

/-! ### The step -/

/-- A step runs the decoded command: the packet leaves the host's events and stands on the command port, and then the step is `exec` of
the instruction (R81, R92; the port register is the model's, log 7). -/
def Obligations.StepRunsDecodedCommand : Prop :=
  ∀ (s : State) (p : Packet) (rest : List HostEvent) (i : Instr),
    s.host = .command p :: rest → decode (units s.cfg) p = .ok i →
      step s = exec i { s with host := rest, port := p }

/-- `XFORM` runs the table entry that its transform id selects (R200): a step on such a packet is `exec` of the entry (the entries as
instructions are the model's form, log 10). -/
def Obligations.XformStepRunsEntry : Prop :=
  ∀ (s : State) (p : Packet) (rest : List HostEvent) (tid len : Byte) (word dest : Operand) (e : Entry),
    s.host = .command p :: rest → decode (units s.cfg) p = .ok (.xform tid len word dest) → s.entryAt tid = some e →
      step s = exec e.toInstr { s with host := rest, port := p }

/-- An idle block holds its state (R253). The reset event sets the registers of R37, keeps the configuration and the memories, and gives no
response (R270); the port register is cleared and the checkpoint bank is zeros by the model's choice (log 6, log 7). -/
def Obligations.IdleAndResetSteps : Prop :=
  ∀ s : State,
    (s.host = [] → step s = .next s) ∧
    (∀ rest, s.host = .reset :: rest →
      step s = .next { s with
        strm := ⟨0, s.cfg.w.bits, 0, 0⟩, ck := ⟨0, 0, 0, 0⟩, ckValid := false, fault := false, faultCause := 0
        port := ⟨0, 0, 0⟩, resp := none, host := rest })

/-- Reset leaves the values of R37, for every configuration, whatever the memories hold: the stream registers as after `INIT 0, 0`, the
checkpoint not valid and not observable, the latch clear, the ROM parameters at their configured constants. State.reset is one such, by
the model's choice of its configuration (log 2), of memories with nothing listed (log 5) and of no host event (log 8). -/
def Obligations.ResetStateValues : Prop :=
  (∀ (c : Config) (mi mo md : Memory) (h : List HostEvent),
    let t := State.resetWith c mi mo md h
    t.strm.acc = 0 ∧ t.strm.bitPos = c.w.bits ∧ t.avail = 0 ∧ t.strm.cursor = 0 ∧ t.strm.remaining = 0 ∧
    t.ckValid = false ∧ (∀ sel, 5 ≤ sel → sel ≤ 8 → t.register sel = some 0) ∧
    t.fault = false ∧ t.faultCause = 0 ∧ t.cfg = c) ∧
  State.reset = State.resetWith Config.atReset [] [] [] []

/-- Reset during a command (R270): the registers are reset, there is no response, and each byte of `OUT` is the new one or the old one,
new for the first `k` addresses the command writes. Which bytes are written by then is the host event's parameter (log 9); that the
checkpoint bank holds zeros (log 6), the port register zeros (log 7) afterwards, and that the event is taken off the list (log 8), are
the model's choice, where R37 and R270 leave the bank unspecified. -/
def Obligations.AbortedCommand : Prop :=
  ∀ (s t : State) (p : Packet) (k : Nat) (rest : List HostEvent), s.host = .abort p k :: rest →
    runPacket p { s with host := rest } = .next t →
      ∃ u, step s = .next u ∧ u = State.resetWith s.cfg s.inMem u.outMem s.dictMem rest ∧
        ∀ a, u.outMem.read a =
          if outDest p ≤ a ∧ a < outDest p + k then t.outMem.read a else s.outMem.read a

/-- The host writes a byte of a space between two commands (R63): that byte changes and nothing else. An address at or above `2^AW` does
not exist: the model stops (log 13). -/
def Obligations.HostWriteLands : Prop :=
  ∀ (s : State) (a : Nat) (b : Byte) (rest : List HostEvent),
    (s.host = .put .input a b :: rest →
      if a < 2 ^ s.cfg.aw then
        ∃ m, step s = .next { s with host := rest, inMem := m } ∧ ∀ x, m.read x = if x = a then b else s.inMem.read x
      else step s = .fault (.noSuchAddress .input)) ∧
    (s.host = .put .output a b :: rest →
      if a < 2 ^ s.cfg.aw then
        ∃ m, step s = .next { s with host := rest, outMem := m } ∧ ∀ x, m.read x = if x = a then b else s.outMem.read x
      else step s = .fault (.noSuchAddress .output)) ∧
    (s.host = .put .dict a b :: rest →
      if a < 2 ^ s.cfg.aw then
        ∃ m, step s = .next { s with host := rest, dictMem := m } ∧ ∀ x, m.read x = if x = a then b else s.dictMem.read x
      else step s = .fault (.noSuchAddress .dict))

/-! ### Faults -/

/-- While `fault = 1` every command but `INIT` and `RDREG` does nothing and answers `FAULT` with the latched cause, without being decoded;
`RDREG` runs normally and may itself fault, which leaves the latched cause; `INIT` runs normally and clears the latch if it passes its
checks, else the latch stays (R243). -/
def Obligations.LatchRefusesPackets : Prop :=
  ∀ (s : State) (p : Packet) (rest : List HostEvent), s.host = .command p :: rest → s.fault = true →
    let u : State := { s with host := rest, port := p }
    (opField p.cw ≠ 0x00 → opField p.cw ≠ 0x12 → step s = .next (u.answered s.strm .fault (s.faultCause.setWidth 64))) ∧
    (∀ sel : BitVec 6, p.cw = 0x90000000 ||| sel.setWidth 32 →
      step s = .next (match s.register sel.toNat with
        | some v => u.answered s.strm .ok v
        | none => u.answered s.strm .fault 2)) ∧
    (opField p.cw = 0x12 → (∀ sel : BitVec 6, p.cw ≠ 0x90000000 ||| sel.setWidth 32) →
      step s = .next (u.answered s.strm .fault 2)) ∧
    (opField p.cw = 0x00 →
      step s = .next (
        if p.cw = 0 ∧ p.a0.toNat + p.a1.toNat < 2 ^ s.cfg.aw then
          { u with
            strm := ⟨0, s.cfg.w.bits, p.a0.toNat, p.a1.toNat⟩, ckValid := false, fault := false, faultCause := 0
            resp := some ⟨.ok, 0⟩ }
        else u.answered s.strm .fault 2))

/-- `raise Fault(cause)` keeps the first cause, sets `fault` and answers `FAULT` with this cause; and faults are precise: a command that
answers `FAULT` leaves every register but the latch, and every memory, as it was (R242). -/
def Obligations.FaultsArePrecise : Prop :=
  (∀ (c : Cause) (s : State),
    raise c s = { s with
      fault := true, faultCause := if s.fault then s.faultCause else c.code, resp := some ⟨.fault, c.code.setWidth 64⟩ }) ∧
  (∀ (i : Instr) (s t : State), exec i s = .next t → t.answeredFault = true →
    t = { s with fault := true, faultCause := t.faultCause, resp := t.resp } ∧
    (s.fault = true → t.faultCause = s.faultCause) ∧
    (s.fault = false → t.resp = some ⟨.fault, t.faultCause.setWidth 64⟩))

/-- Only a successful `INIT` or a reset leaves the fault state (R244). -/
def Obligations.OnlyInitLeavesFaultState : Prop :=
  ∀ s t : State, step s = .next t → s.fault = true → t.fault = false →
    (∃ rest, s.host = .reset :: rest) ∨ (∃ p k rest, s.host = .abort p k :: rest) ∨
    (∃ p rest, s.host = .command p :: rest ∧ p.cw = 0 ∧ p.a0.toNat + p.a1.toNat < 2 ^ s.cfg.aw ∧ t.resp = some ⟨.ok, 0⟩)

/-- From a state that meets the invariant and has no latched fault every instruction completes, and it answers `FAULT` exactly when an
operand is out of range or the host broke the contract of the command (R88, R89, R200, R241, R272). -/
def Obligations.FaultOnlyOnBrokenContract : Prop :=
  ∀ (i : Instr) (s : State), s.Ready →
    ∃ t, exec i s = .next t ∧
      (t.answeredFault = false ↔ i.wellFormed s.cfg = true ∧ callerContract i s = true)

/-- The unchecked commands and the bounded ones fault where the host broke their contract: `n` out of range (R88), too few bits in the
stream (R131, R133 to R135) or in the window (R153), the range of a copy (R89, R171); nothing else changes. -/
def Obligations.StreamCommandsFault : Prop :=
  ∀ s : State, s.fault = false →
    (∀ n : BitVec 6, ndir s.cfg < n.toNat →
      exec (.fill n) s = .next (s.faulted .illegalField) ∧ exec (.get n) s = .next (s.faulted .illegalField) ∧
      exec (.take n) s = .next (s.faulted .illegalField) ∧ exec (.sread n) s = .next (s.faulted .illegalField) ∧
      exec (.sget n) s = .next (s.faulted .illegalField)) ∧
    (∀ n : BitVec 6, n.toNat ≤ ndir s.cfg → s.total < n.toNat →
      exec (.fill n) s = .next (s.faulted .underrun) ∧ exec (.get n) s = .next (s.faulted .underrun) ∧
      exec (.take n) s = .next (s.faulted .underrun)) ∧
    (∀ n : BitVec 6, 32 < n.toNat →
      exec (.read n) s = .next (s.faulted .illegalField) ∧ exec (.drop n) s = .next (s.faulted .illegalField)) ∧
    (∀ n : BitVec 6, n.toNat ≤ 32 → s.total < n.toNat → exec (.read n) s = .next (s.faulted .underrun)) ∧
    (∀ n : BitVec 6, n.toNat ≤ 32 → s.avail < n.toNat → exec (.drop n) s = .next (s.faulted .underrun)) ∧
    (∀ dest cnt : Operand, 2 ^ s.cfg.aw ≤ dest.toNat + cnt.toNat →
      exec (.copy dest cnt) s = .next (s.faulted .illegalField)) ∧
    (∀ dest cnt : Operand, dest.toNat + cnt.toNat < 2 ^ s.cfg.aw → s.rembytes < cnt.toNat →
      exec (.copy dest cnt) s = .next (s.faulted .copyRange))

/-! ### What no instruction does -/

/-- The configuration, the spaces `IN` and `DICT`, the command port and the host's events are unchanged by every instruction, and `OUT`
too but for `COPY`, `XFORM` and the table entries (R50, R52, R36; the port and the events are the model's, log 7, log 8). -/
def Obligations.FrameOfEveryInstruction : Prop :=
  (∀ (i : Instr) (s t : State), exec i s = .next t →
    t.cfg = s.cfg ∧ t.inMem = s.inMem ∧ t.dictMem = s.dictMem ∧ t.port = s.port ∧ t.host = s.host ∧
    (writesOut i = false → ∀ a, t.outMem.read a = s.outMem.read a)) ∧
  (∀ s t : State, step s = .next t → t.cfg = s.cfg)

/-- Who writes the flags and the bank (R28, R29): `ckValid` is set by `SAVE` alone and cleared by `INIT` and `RESEAT` alone; `SAVE` alone
writes the bank; the latch is set by a `FAULT` answer alone and cleared by `INIT` alone; the cause changes only with it. -/
def Obligations.FlagWriters : Prop :=
  ∀ (i : Instr) (s t : State), exec i s = .next t →
    (s.ckValid = false → t.ckValid = true → i = .save) ∧
    (s.ckValid = true → t.ckValid = false → ∃ base len, i = .init base len ∨ i = .reseat base len) ∧
    (i ≠ .save → t.ck = s.ck) ∧
    (s.fault = false → t.fault = true → t.answeredFault = true) ∧
    (s.fault = true → t.fault = false → ∃ base len, i = .init base len) ∧
    (s.faultCause ≠ t.faultCause → s.fault ≠ t.fault ∨ ∃ base len, i = .init base len)

/-- The optional units neither read nor write the stream registers (R27): with other stream registers they do the same and leave those. -/
def Obligations.OptionalUnitsApart : Prop :=
  ∀ (i : Instr) (s : State) (x : Stream), ofOptionalUnit i = true →
    exec i { s with strm := x } = Result.mapNext (fun t => { t with strm := x }) (exec i s)

/-- `cursor + remaining` is constant but for `INIT`, `RESEAT` and `RESTORE` (R23). -/
def Obligations.ChunkEndConstant : Prop :=
  ∀ (i : Instr) (s t : State), exec i s = .next t → i ≠ .restore → (∀ base len, i ≠ .init base len ∧ i ≠ .reseat base len) →
    t.strm.cursor + t.strm.remaining = s.strm.cursor + s.strm.remaining

/-- No over-read (R58): an instruction reads `IN` only in the unread part of the chunk, so other bytes anywhere else make no difference. -/
def Obligations.NoOverRead : Prop :=
  ∀ (i : Instr) (s : State) (m : Memory),
    (∀ a, s.strm.cursor ≤ a → a < s.strm.cursor + s.strm.remaining → m.read a = s.inMem.read a) →
      exec i { s with inMem := m } = Result.mapNext (fun t => { t with inMem := m }) (exec i s)

/-- `DICT` is read only inside the word that the operands of a transform name (R200). -/
def Obligations.DictReadOnlyInsideWord : Prop :=
  ∀ (i : Instr) (s : State) (m : Memory),
    (let x := transformOperands i s
     ∀ a, x.word.toNat ≤ a → a < x.word.toNat + x.len.toNat → m.read a = s.dictMem.read a) →
      exec i { s with dictMem := m } = Result.mapNext (fun t => { t with dictMem := m }) (exec i s)

/-- Every step keeps the invariant: the stream registers and the bank fit their widths, `cursor + remaining` stays below `2^AW`, the latch
holds a code of R241 exactly while `fault = 1`, and every memory keeps its canonical form below `2^AW` (R21, R22, R33). -/
def Obligations.StepKeepsInvariant : Prop :=
  ∀ s t : State, s.Inv → step s = .next t → t.Inv

/-- The invariant holds after reset, in every configuration with nothing listed in the memories (R37). The configuration of State.reset, the
unlisted memories, the zeros of the checkpoint bank and the empty list of events are the model's choice (log 2, log 5, log 6, log 8). -/
def Obligations.ResetMeetsInvariant : Prop :=
  State.reset.Inv ∧ ∀ (c : Config) (h : List HostEvent), (State.resetWith c [] [] [] h).Inv

/-- Every command that the host presents gets its response (R81, R278). -/
def Obligations.EveryCommandResponds : Prop :=
  ∀ (s : State) (p : Packet) (rest : List HostEvent), s.Inv → s.host = .command p :: rest →
    ∃ t r, step s = .next t ∧ t.resp = some r ∧ t.host = rest

/-- The responses that exist (R90, R91): `NODATA` from four commands and `BADPAD` from `ALIGN`, with value 0; `FAULT` with a cause in bits
3:0 and zeros above; results of at most 32 bits but for `GETU`, `RDREG` and `REMBYTES`. -/
def Obligations.ResponsesAreLegal : Prop :=
  ∀ (i : Instr) (s t : State), exec i s = .next t →
    ∃ r, t.resp = some r ∧
      (r.status = .noData → r.value = 0 ∧ (i = .warmup ∨ i = .pull ∨ ∃ n, i = .sread n ∨ i = .sget n)) ∧
      (r.status = .badPad → r.value = 0 ∧ i = .align) ∧
      (r.status = .fault → r.value.toNat < 16) ∧
      (i ≠ .getu → i ≠ .rembytes → (∀ sel, i ≠ .rdreg sel) → r.value.toNat < 2 ^ 32)

/-! ### Session and query commands -/

/-- `INIT` (R110): a new session on the chunk, with the checkpoint flag and the latch cleared; or `ILLEGAL_FIELD`, with an earlier cause
kept. -/
def Obligations.InitStartsSession : Prop :=
  ∀ (base len : Operand) (s : State),
    exec (.init base len) s = .next (
      if base.toNat + len.toNat < 2 ^ s.cfg.aw then
        { s with
          strm := ⟨0, s.cfg.w.bits, base.toNat, len.toNat⟩, ckValid := false, fault := false, faultCause := 0
          resp := some ⟨.ok, 0⟩ }
      else if s.fault then s.answered s.strm .fault 2
      else s.faulted .illegalField)

/-- `RESEAT` (R111): `cursor` and `remaining` are set, `acc` and `bitPos` kept, `ckValid` cleared; or `ILLEGAL_FIELD`. -/
def Obligations.ReseatKeepsWindow : Prop :=
  ∀ (base len : Operand) (s : State), s.fault = false →
    exec (.reseat base len) s = .next (
      if base.toNat + len.toNat < 2 ^ s.cfg.aw then
        { s with
          strm := ⟨s.strm.acc, s.strm.bitPos, base.toNat, len.toNat⟩, ckValid := false, resp := some ⟨.ok, 0⟩ }
      else s.faulted .illegalField)

/-- `AVAIL`, `REMBYTES`, `GETU` (R113, R114, R132) answer what their formula gives and change nothing. -/
def Obligations.QueriesAnswer : Prop :=
  ∀ s : State, s.fault = false →
    exec .avail s = .next (s.answered s.strm .ok (BitVec.ofNat 64 (s.cfg.w.bits - s.strm.bitPos))) ∧
    exec .rembytes s = .next (s.answered s.strm .ok
      (BitVec.ofNat 64 (s.strm.remaining + (s.cfg.w.bits - s.strm.bitPos) / 8))) ∧
    exec .getu s = .next (s.answered s.strm .ok (s.strm.acc >>> s.strm.bitPos))

/-- `RDREG` (R32, R33, R115) answers the register of its number, also while `fault = 1`, with `STATUS` laid out as R33 says and the bank
read as 0 without a checkpoint; a number above 8 raises `ILLEGAL_FIELD`, which keeps an earlier cause. -/
def Obligations.RdregReadsRegisters : Prop :=
  ∀ s : State,
    exec (.rdreg 0) s = .next (s.answered s.strm .ok s.strm.acc) ∧
    exec (.rdreg 1) s = .next (s.answered s.strm .ok (BitVec.ofNat 64 s.strm.bitPos)) ∧
    exec (.rdreg 2) s = .next (s.answered s.strm .ok (BitVec.ofNat 64 s.strm.cursor)) ∧
    exec (.rdreg 3) s = .next (s.answered s.strm .ok (BitVec.ofNat 64 s.strm.remaining)) ∧
    exec (.rdreg 4) s = .next (s.answered s.strm .ok
      (BitVec.ofNat 64 (16 * s.faultCause.toNat + 2 * s.ckValid.toNat + s.fault.toNat))) ∧
    exec (.rdreg 5) s = .next (s.answered s.strm .ok (if s.ckValid then s.ck.acc else 0)) ∧
    exec (.rdreg 6) s = .next (s.answered s.strm .ok (if s.ckValid then BitVec.ofNat 64 s.ck.bitPos else 0)) ∧
    exec (.rdreg 7) s = .next (s.answered s.strm .ok (if s.ckValid then BitVec.ofNat 64 s.ck.cursor else 0)) ∧
    exec (.rdreg 8) s = .next (s.answered s.strm .ok (if s.ckValid then BitVec.ofNat 64 s.ck.remaining else 0)) ∧
    (∀ sel : BitVec 6, 8 < sel.toNat →
      exec (.rdreg sel) s = .next (if s.fault then s.answered s.strm .fault 2 else s.faulted .illegalField))

/-! ### The unchecked window commands -/

/-- `FILL` (R130, R131) stages `max(0, ceil((n + 1 - avail()) / 8))` bytes capped at `remaining`, one `load1()` after the other: the
least admissible number. -/
def Obligations.FillStagesLeast : Prop :=
  ∀ (n : BitVec 6) (s : State), s.Ready → n.toNat ≤ ndir s.cfg → n.toNat ≤ s.total →
    let k := min s.strm.remaining ((n.toNat + 1 - s.avail + 7) / 8)
    exec (.fill n) s = .next (s.answered (s.strm.loadMany s.cfg.w s.inMem k) .ok 0) ∧
    AdmissibleRefill s.cfg.w n.toNat k s.strm ∧
    ∀ j, AdmissibleRefill s.cfg.w n.toNat j s.strm → k ≤ j

/-- `GET` (R133) answers the field of `n` stream bits at the read position (R53) and only stages; `TAKE` (R134) answers the same field,
stages the same bytes and moves `bitPos` by `n`. -/
def Obligations.GetAndTakeField : Prop :=
  ∀ (n : BitVec 6) (s : State), s.Ready → n.toNat ≤ ndir s.cfg → n.toNat ≤ s.total →
    ∃ v, s.FieldAt 0 n.toNat v ∧
      exec (.get n) s = .next (s.answered (stagedStream s (n.toNat + 1) s.strm) .ok v) ∧
      exec (.take n) s = .next (s.answered ((stagedStream s (n.toNat + 1) s.strm).consume n.toNat) .ok v)

/-- `READ` (R135) answers a field of up to 32 bits; for `W = 32` and `n > 16` it takes 16 bits and then the rest. -/
def Obligations.ReadReadsField : Prop :=
  ∀ (n : BitVec 6) (s : State), s.Ready → n.toNat ≤ 32 → n.toNat ≤ s.total →
    ∃ v, s.FieldAt 0 n.toNat v ∧
      exec (.read n) s = .next (s.answered
        (if s.cfg.w = .w64 ∨ n.toNat ≤ 16 then (stagedStream s (n.toNat + 1) s.strm).consume n.toNat
        else
          let lo := (stagedStream s 17 s.strm).consume 16
          (stagedStream s (n.toNat - 15) lo).consume (n.toNat - 16)) .ok v)

/-- `GET n`, `FILL n`, `SGET n` a second time (R136 items 1 and 2, R151): the same answer, no register changes, and `IN` is not read, so
it may hold anything by then. -/
def Obligations.PeekIsIdempotent : Prop :=
  ∀ (n : BitVec 6) (i : Instr) (s t : State) (m : Memory), s.Inv → i = .get n ∨ i = .fill n ∨ i = .sget n →
    exec i s = .next t → exec i { t with inMem := m } = .next { t with inMem := m }

/-- `TAKE n` has the result and the final state of `GET n; DROP n` (R136 item 3). -/
def Obligations.TakeIsGetThenDrop : Prop :=
  ∀ (n : BitVec 6) (s : State), s.Ready → n.toNat ≤ ndir s.cfg → n.toNat ≤ s.total →
    ∃ v t u, exec (.get n) s = .next t ∧ t.resp = some ⟨.ok, v⟩ ∧ exec (.drop n) t = .next u ∧ u.resp = some ⟨.ok, 0⟩ ∧
      exec (.take n) s = .next { u with resp := some ⟨.ok, v⟩ }

/-- `TAKE a; TAKE b` returns the two parts of what `TAKE (a + b)` returns, and leaves the same `total()` (R136 item 4). -/
def Obligations.TakeSplits : Prop :=
  ∀ (a b c : BitVec 6) (s : State), s.Ready → c.toNat = a.toNat + b.toNat → c.toNat ≤ ndir s.cfg → c.toNat ≤ s.total →
    ∃ va vb t u v z, exec (.take a) s = .next t ∧ t.resp = some ⟨.ok, va⟩ ∧ exec (.take b) t = .next u ∧
      u.resp = some ⟨.ok, vb⟩ ∧ exec (.take c) s = .next z ∧ z.resp = some ⟨.ok, v⟩ ∧
      v = va ||| (vb <<< a.toNat) ∧ u.total = z.total

/-- Round trip of bit extraction (R136 item 5): `READ` of each width in turn returns the fields that were packed low bit first into the
stream. -/
def Obligations.ReadRoundTrip : Prop :=
  ∀ (fields : List (Nat × Nat)) (s : State), s.Ready →
    (∀ f ∈ fields, 1 ≤ f.1 ∧ f.1 ≤ 24 ∧ f.2 < 2 ^ f.1) →
    (fields.map Prod.fst).sum ≤ s.total →
    (∀ k, k < (fields.map Prod.fst).sum → s.streamBit k = packedBit fields k) →
      ∃ t, runInstrs (fields.map (fun f => .read (BitVec.ofNat 6 f.1))) s =
        some (t, fields.map (fun f => some ⟨.ok, BitVec.ofNat 64 f.2⟩))

/-- How the stream moves (R24, R26): every instruction but `COPY`, `INIT`, `RESEAT`, `RESTORE` lowers `total()` by the bits it consumes,
and the bits that are left are the same bits. -/
def Obligations.StreamAdvances : Prop :=
  ∀ (i : Instr) (s t : State), s.Ready → exec i s = .next t → i ≠ .restore →
    (∀ a b, i ≠ .copy a b ∧ i ≠ .init a b ∧ i ≠ .reseat a b) →
      ∃ r, t.resp = some r ∧ StreamAdvanced s t (bitsConsumed i s r.status)

/-- What does not depend on the refill policy (R137): from two states with the same unread stream, however much of it is staged in each,
these commands give the same response and leave the same unread stream. -/
def Obligations.RefillPolicyInvisible : Prop :=
  ∀ (i : Instr) (s s' t t' : State), policyFree i = true → s.Ready → s'.Ready → SameStream s s' →
    exec i s = .next t → exec i s' = .next t' → t.resp = t'.resp ∧ SameStream t t'

/-! ### The safe commands and their primitives -/

/-- `SREAD` and `SGET` with enough input (R150, R151): the field, staged with the fewest bytes that reach `n` bits. -/
def Obligations.SafeReadsReturnField : Prop :=
  ∀ (n : BitVec 6) (s : State), s.Ready → n.toNat ≤ ndir s.cfg → n.toNat ≤ s.total →
    ∃ v, s.FieldAt 0 n.toNat v ∧
      exec (.sread n) s = .next (s.answered ((stagedStream s n.toNat s.strm).consume n.toNat) .ok v) ∧
      exec (.sget n) s = .next (s.answered (stagedStream s n.toNat s.strm) .ok v)

/-- `SREAD` and `SGET` without enough input (R150, R151) answer `NODATA`: all that is left is staged, nothing is consumed and no bit is
lost. -/
def Obligations.SafeReadsAnswerNoData : Prop :=
  ∀ (n : BitVec 6) (s : State), s.Ready → n.toNat ≤ ndir s.cfg → s.total < n.toNat →
    ∃ x, exec (.sread n) s = .next (s.answered x .noData 0) ∧ exec (.sget n) s = .next (s.answered x .noData 0) ∧
      x = s.strm.loadMany s.cfg.w s.inMem s.strm.remaining ∧
      x.remaining = 0 ∧ x.cursor = s.strm.cursor + s.strm.remaining ∧ x.avail s.cfg.w = s.total ∧
      StreamAdvanced s { s with strm := x } 0

/-- `WARMUP` (R112) stages one byte at the high end of `acc` (R54) when the window is empty and a byte is there. `PULL` (R152) answers
`NODATA` without input, then raises `NOROOM` when fewer than 8 bits are consumed, else stages one byte. -/
def Obligations.SingleByteLoads : Prop :=
  ∀ s : State, s.Ready →
    let acc := (s.strm.acc >>> 8) ||| ((s.inMem.read s.strm.cursor).setWidth 64 <<< (s.cfg.w.bits - 8))
    exec .warmup s = .next (
      if s.strm.bitPos < s.cfg.w.bits then s.answered s.strm .ok 0
      else if s.strm.remaining = 0 then s.answered s.strm .noData 0
      else s.answered ⟨acc, s.cfg.w.bits - 8, s.strm.cursor + 1, s.strm.remaining - 1⟩ .ok 0) ∧
    exec .pull s = .next (
      if s.strm.remaining = 0 then s.answered s.strm .noData 0
      else if s.strm.bitPos < 8 then s.faulted .noRoom
      else s.answered ⟨acc, s.strm.bitPos - 8, s.strm.cursor + 1, s.strm.remaining - 1⟩ .ok 0)

/-- `DROP` (R153) moves `bitPos` over staged bits and changes nothing else. -/
def Obligations.DropConsumesStagedBits : Prop :=
  ∀ (n : BitVec 6) (s : State), s.fault = false → n.toNat ≤ 32 → n.toNat ≤ s.avail →
    exec (.drop n) s = .next (s.answered
      ⟨s.strm.acc, s.strm.bitPos + n.toNat, s.strm.cursor, s.strm.remaining⟩ .ok 0)

/-- Retry after `NODATA` (R154, one boundary): `RESEAT` on the next chunk and the same command again return the field that the staged
bits and the new bytes hold together. -/
def Obligations.RetryAfterReseat : Prop :=
  ∀ (n : BitVec 6) (base len : Operand) (s : State), s.Ready → n.toNat ≤ ndir s.cfg → s.total < n.toNat →
    base.toNat + len.toNat < 2 ^ s.cfg.aw → n.toNat ≤ s.total + 8 * len.toNat →
      ∃ t v, runInstrs [.sread n, .reseat base len, .sread n] s =
          some (t, [some ⟨.noData, 0⟩, some ⟨.ok, 0⟩, some ⟨.ok, v⟩]) ∧
        t.total + n.toNat = s.total + 8 * len.toNat ∧
        ∀ j, v.getLsbD j = (decide (j < n.toNat) &&
          if j < s.total then s.streamBit j
          else (s.inMem.read (base.toNat + (j - s.total) / 8)).getLsbD ((j - s.total) % 8))

/-! ### Byte boundary, copy and checkpoint -/

/-- `ALIGN` (R170) consumes the `avail() mod 8` padding bits in both outcomes and answers `OK` exactly when they are all 0. -/
def Obligations.AlignSkipsPadding : Prop :=
  ∀ s : State, s.fault = false →
    exec .align s = .next (s.answered
      ⟨s.strm.acc, s.strm.bitPos + s.avail % 8, s.strm.cursor, s.strm.remaining⟩
      (if ∀ k, k < s.avail % 8 → s.streamBit k = false then .ok else .badPad) 0)

/-- `COPY` (R171): the staged whole bytes are drained to `dest` upwards, then bytes come straight from `IN`; `acc` stays, and every other
byte of `OUT` stays. -/
def Obligations.CopyWritesBytes : Prop :=
  ∀ (dest cnt : Operand) (s : State), s.Ready → dest.toNat + cnt.toNat < 2 ^ s.cfg.aw → cnt.toNat ≤ s.rembytes →
    let k := min cnt.toNat (s.avail / 8)
    ∃ m, exec (.copy dest cnt) s = .next { s with
        strm := ⟨s.strm.acc, s.strm.bitPos + 8 * k, s.strm.cursor + (cnt.toNat - k), s.strm.remaining - (cnt.toNat - k)⟩
        outMem := m, resp := some ⟨.ok, 0⟩ } ∧
      (∀ j b, j < k → b < 8 → (m.read (dest.toNat + j)).getLsbD b = s.strm.acc.getLsbD (s.strm.bitPos + 8 * j + b)) ∧
      (∀ j, k ≤ j → j < cnt.toNat → m.read (dest.toNat + j) = s.inMem.read (s.strm.cursor + (j - k))) ∧
      (∀ a, a < dest.toNat ∨ dest.toNat + cnt.toNat ≤ a → m.read a = s.outMem.read a)

/-- On a byte boundary `COPY` writes exactly the next `cnt` bytes of the stream, in order, and consumes them (R24, R171, R273). -/
def Obligations.AlignedCopyIsStream : Prop :=
  ∀ (dest cnt : Operand) (s : State), s.Ready → dest.toNat + cnt.toNat < 2 ^ s.cfg.aw → cnt.toNat ≤ s.rembytes →
    s.avail % 8 = 0 →
      ∃ t, exec (.copy dest cnt) s = .next t ∧ StreamAdvanced s t (8 * cnt.toNat) ∧
        ∀ j b, j < cnt.toNat → b < 8 → (t.outMem.read (dest.toNat + j)).getLsbD b = s.streamBit (8 * j + b)

/-- `SAVE` (R172) copies the stream registers into the bank; `RESTORE` (R173) copies them back, or raises `NO_CHECKPOINT`. -/
def Obligations.SaveAndRestore : Prop :=
  ∀ s : State, s.fault = false →
    exec .save s = .next { s with ck := s.strm, ckValid := true, resp := some ⟨.ok, 0⟩ } ∧
    exec .restore s = .next (if s.ckValid then s.answered s.ck .ok 0 else s.faulted .noCheckpoint)

/-- The checkpoint law (R174): after `SAVE` in state `s` and any instructions but `INIT`, `RESEAT`, `SAVE`, none of which faults,
`RESTORE` brings the stream registers of `s` back, bit for bit, and replaying the same instructions gives the same responses. -/
def Obligations.CheckpointLaw : Prop :=
  ∀ (is : List Instr) (s t u : State) (rs : List (Option Response)), exec .save s = .next t → s.fault = false →
    (∀ i ∈ is, i ≠ .save ∧ ∀ base len, i ≠ .init base len ∧ i ≠ .reseat base len) →
    runInstrs is t = some (u, rs) → u.fault = false →
      ∃ z, exec .restore u = .next z ∧ z = u.answered s.strm .ok 0 ∧
        ∃ z', runInstrs is z = some (z', rs) ∧ z'.strm = u.strm

/-! ### The context unit -/

/-- The context modes that need no table (R191, R192, R195): `p1 & 0x3F`, `p1 >> 2`, and 0 for modes 4 to 63; nothing else changes. -/
def Obligations.ContextOfLastByte : Prop :=
  ∀ (mode : BitVec 6) (p1 p2 : Byte) (s : State), s.fault = false → s.cfg.hasCtx = true →
    (mode = 0 → exec (.ctx mode p1 p2) s = .next (s.answered s.strm .ok (BitVec.ofNat 64 (p1.toNat % 64)))) ∧
    (mode = 1 → exec (.ctx mode p1 p2) s = .next (s.answered s.strm .ok (BitVec.ofNat 64 (p1.toNat / 4)))) ∧
    (4 ≤ mode.toNat → exec (.ctx mode p1 p2) s = .next (s.answered s.strm .ok 0))

/-- The context modes over the tables (R193, R194): the OR of two entries of `CTXLUT`, and the concatenation of two buckets of `SGNLUT`;
nothing else changes. -/
def Obligations.ContextOfTables : Prop :=
  ∀ (p1 p2 : Byte) (s : State), s.fault = false → s.cfg.hasCtx = true →
    (∀ e1 e2, s.cfg.ctxLut[p1.toNat]? = some e1 → s.cfg.ctxLut[256 + p2.toNat]? = some e2 →
      exec (.ctx 2 p1 p2) s = .next (s.answered s.strm .ok ((e1 ||| e2).setWidth 64))) ∧
    (∀ b1 b2, s.cfg.sgnLut[p1.toNat]? = some b1 → s.cfg.sgnLut[p2.toNat]? = some b2 →
      exec (.ctx 3 p1 p2) s = .next (s.answered s.strm .ok ((b1 ++ b2).setWidth 64)))

/-! ### The transform unit -/

/-- `XFORM` (R200, R203): the prefix fragment, the body that the entry's operation makes of the word, the suffix fragment are written at
`dest` upwards, nothing else changes, and the count is answered. -/
def Obligations.XformExpandsWord : Prop :=
  ∀ (tid len : Byte) (word dest : Operand) (s : State) (e : Entry) (bytes : List Byte),
    s.fault = false → s.cfg.hasXform = true → word.toNat + len.toNat < 2 ^ s.cfg.aw →
    s.entryAt tid = some e → s.expansion e ⟨len, word, dest⟩ = some bytes → dest.toNat + bytes.length < 2 ^ s.cfg.aw →
      ExpandedTo s dest.toNat bytes (exec (.xform tid len word dest) s)

/-- Where `XFORM` faults (R200, R245), in this order: the word's range, the transform id or its entry, a fragment or the end of the
output. -/
def Obligations.XformFaults : Prop :=
  ∀ (tid len : Byte) (word dest : Operand) (s : State), s.fault = false → s.cfg.hasXform = true →
    (2 ^ s.cfg.aw ≤ word.toNat + len.toNat → exec (.xform tid len word dest) s = .next (s.faulted .illegalField)) ∧
    (word.toNat + len.toNat < 2 ^ s.cfg.aw → s.entryAt tid = none →
      exec (.xform tid len word dest) s = .next (s.faulted .xformRange)) ∧
    (∀ e, word.toNat + len.toNat < 2 ^ s.cfg.aw → s.entryAt tid = some e → s.expands e ⟨len, word, dest⟩ = false →
      exec (.xform tid len word dest) s = .next (s.faulted .xformRange))

/-- The entries that keep the whole word (R204, R214, R215, R225): unchanged, its first character uppercased, all of it uppercased. -/
def Obligations.WholeWordEntries : Prop :=
  ∀ (p q : Byte) (s : State), s.fault = false → s.cfg.hasXform = true →
    (xOperandsOf s.port).word.toNat + (xOperandsOf s.port).len.toNat < 2 ^ s.cfg.aw →
    let word := s.wordAt (xOperandsOf s.port)
    EntryExpands (.identity p q) s p q word ∧
    EntryExpands (.uppercaseFirst p q) s p q (upperHead s.cfg word) ∧
    EntryExpands (.uppercaseAll p q) s p q (upperText s.cfg word)

/-- The entries `OMIT_LAST_1` to `OMIT_LAST_9` (R205 to R213) shorten the word from the back; a word shorter than that leaves no body. -/
def Obligations.OmitLastEntries : Prop :=
  ∀ (p q : Byte) (s : State), s.fault = false → s.cfg.hasXform = true →
    (xOperandsOf s.port).word.toNat + (xOperandsOf s.port).len.toNat < 2 ^ s.cfg.aw →
    let word := s.wordAt (xOperandsOf s.port)
    EntryExpands (.omitLast1 p q) s p q (word.take (word.length - 1)) ∧
    EntryExpands (.omitLast2 p q) s p q (word.take (word.length - 2)) ∧
    EntryExpands (.omitLast3 p q) s p q (word.take (word.length - 3)) ∧
    EntryExpands (.omitLast4 p q) s p q (word.take (word.length - 4)) ∧
    EntryExpands (.omitLast5 p q) s p q (word.take (word.length - 5)) ∧
    EntryExpands (.omitLast6 p q) s p q (word.take (word.length - 6)) ∧
    EntryExpands (.omitLast7 p q) s p q (word.take (word.length - 7)) ∧
    EntryExpands (.omitLast8 p q) s p q (word.take (word.length - 8)) ∧
    EntryExpands (.omitLast9 p q) s p q (word.take (word.length - 9))

/-- The entries `OMIT_FIRST_1` to `OMIT_FIRST_9` (R216 to R224) skip bytes from the front; a word shorter than that leaves no body. -/
def Obligations.OmitFirstEntries : Prop :=
  ∀ (p q : Byte) (s : State), s.fault = false → s.cfg.hasXform = true →
    (xOperandsOf s.port).word.toNat + (xOperandsOf s.port).len.toNat < 2 ^ s.cfg.aw →
    let word := s.wordAt (xOperandsOf s.port)
    EntryExpands (.omitFirst1 p q) s p q (word.drop 1) ∧
    EntryExpands (.omitFirst2 p q) s p q (word.drop 2) ∧
    EntryExpands (.omitFirst3 p q) s p q (word.drop 3) ∧
    EntryExpands (.omitFirst4 p q) s p q (word.drop 4) ∧
    EntryExpands (.omitFirst5 p q) s p q (word.drop 5) ∧
    EntryExpands (.omitFirst6 p q) s p q (word.drop 6) ∧
    EntryExpands (.omitFirst7 p q) s p q (word.drop 7) ∧
    EntryExpands (.omitFirst8 p q) s p q (word.drop 8) ∧
    EntryExpands (.omitFirst9 p q) s p q (word.drop 9)

/-- The size law (R226): an expansion is never longer than prefix, word and suffix together, and the case operations keep the length of
the body. -/
def Obligations.ExpansionSize : Prop :=
  ∀ (s : State) (e : Entry) (x : XOperands) (pre suf bytes : List Byte),
    fragment s.cfg e.prefixId = some pre → fragment s.cfg e.suffixId = some suf → s.expansion e x = some bytes →
      bytes.length ≤ pre.length + x.len.toNat + suf.length ∧
      (e.op = .uppercaseFirst ∨ e.op = .uppercaseAll ∨ e.op = .identity →
        bytes.length = pre.length + x.len.toNat + suf.length)

/-- A fragment (R202) is the bytes of the pool from its offset up to, not including, the first zero byte there; an offset with none is
ill-formed. -/
def Obligations.FragmentsOfPool : Prop :=
  ∀ (c : Config) (o : Byte),
    (∀ l, fragment c o = some l ↔
      (0 : Byte) ∉ l ∧ ∃ rest, c.pool.drop o.toNat = l ++ (0 : Byte) :: rest) ∧
    (fragment c o = none ↔ (0 : Byte) ∉ c.pool.drop o.toNat)
end

