-- ==== Sys2Proof/Laws/Memory.lean ====
section
/-!
SUPPORT. The laws of a memory: a read after a write, what a write leaves alone, and that every operation keeps the canonical form.
-/

namespace Sys2Proof.Machine.Laws

open Sys2Proof Sys2Proof.Machine

variable {m : Memory} {a b size : Nat} {v : Byte}

/-! ### Reading after a write -/

theorem read_erase_same : (m.erase a).read a = unlistedByte := by
  induction m with
  | nil => rfl
  | cons c rest ih =>
    obtain ⟨x, u⟩ := c
    by_cases h : x = a <;> simp [Memory.erase, Memory.read, h, ih]

theorem read_erase_other (h : b ≠ a) : (m.erase a).read b = m.read b := by
  induction m with
  | nil => rfl
  | cons c rest ih =>
    obtain ⟨x, u⟩ := c
    by_cases hx : x = a
    · subst hx
      simp [Memory.erase, Memory.read, Ne.symm h, ih]
    · simp [Memory.erase, Memory.read, hx, ih]

theorem read_insert_other (h : b ≠ a) : (m.insert a v).read b = m.read b := by
  induction m with
  | nil => simp [Memory.insert, Memory.read, Ne.symm h]
  | cons c rest ih =>
    obtain ⟨x, u⟩ := c
    by_cases hx : a < x
    · simp [Memory.insert, hx, Memory.read, Ne.symm h]
    · simp [Memory.insert, hx, Memory.read, ih]

theorem read_insert_same (h : ∀ c ∈ m, c.1 ≠ a) : (m.insert a v).read a = v := by
  induction m with
  | nil => simp [Memory.insert, Memory.read]
  | cons c rest ih =>
    obtain ⟨x, u⟩ := c
    have hx : x ≠ a := h (x, u) (by simp)
    by_cases hlt : a < x
    · simp [Memory.insert, hlt, Memory.read]
    · simp [Memory.insert, hlt, Memory.read, hx, ih (fun c hc => h c (by simp [hc]))]

theorem mem_erase {c : Host.Cell} (h : c ∈ m.erase a) : c ∈ m ∧ c.1 ≠ a := by
  induction m with
  | nil => simp [Memory.erase] at h
  | cons d rest ih =>
    obtain ⟨x, u⟩ := d
    by_cases hx : x = a
    · rw [Memory.erase, if_pos hx] at h
      exact ⟨List.mem_cons_of_mem _ (ih h).1, (ih h).2⟩
    · rw [Memory.erase, if_neg hx] at h
      rcases List.mem_cons.1 h with rfl | h
      · exact ⟨List.mem_cons_self, hx⟩
      · exact ⟨List.mem_cons_of_mem _ (ih h).1, (ih h).2⟩

theorem mem_insert {c : Host.Cell} (h : c ∈ m.insert a v) : c = (a, v) ∨ c ∈ m := by
  induction m with
  | nil => simpa [Memory.insert] using h
  | cons d rest ih =>
    obtain ⟨x, u⟩ := d
    by_cases hx : a < x
    · rw [Memory.insert, if_pos hx] at h
      simpa using h
    · rw [Memory.insert, if_neg hx] at h
      rcases List.mem_cons.1 h with rfl | h
      · exact .inr List.mem_cons_self
      · exact (ih h).imp id (List.mem_cons_of_mem _)

/-- A read after a write to the same address gives the value written. -/
@[simp] theorem read_write_same : (m.write a v).read a = v := by
  unfold Memory.write
  split
  next h => rw [read_erase_same, h]
  next => exact read_insert_same (fun c hc => (mem_erase hc).2)

/-- A write leaves every other address alone. -/
theorem read_write_other (h : b ≠ a) : (m.write a v).read b = m.read b := by
  unfold Memory.write
  split
  next => exact read_erase_other h
  next => rw [read_insert_other h, read_erase_other h]

/-- What a run of ascending writes leaves (R59): the bytes at their addresses, everything else as before. -/
theorem read_writeBytes {bytes : List Byte} :
    (m.writeBytes a bytes).read b =
      if h : a ≤ b ∧ b < a + bytes.length then bytes[b - a]'(by omega) else m.read b := by
  induction bytes generalizing m a with
  | nil => simp [Memory.writeBytes]
  | cons u rest ih =>
    rw [Memory.writeBytes, ih]
    by_cases hb : b = a
    · subst hb
      simp
    · by_cases hin : a + 1 ≤ b ∧ b < a + 1 + rest.length
      · have hin' : a ≤ b ∧ b < a + (u :: rest).length := by simp; omega
        rw [dif_pos hin, dif_pos hin', List.getElem_cons, dif_neg (by omega)]
        congr 1
      · have hout : ¬(a ≤ b ∧ b < a + (u :: rest).length) := by simp; omega
        rw [dif_neg hin, dif_neg hout, read_write_other hb]

/-- Reading a run of bytes gives one byte for each address. -/
@[simp] theorem length_readBytes (k : Nat) : (m.readBytes a k).length = k := by
  induction k generalizing a with
  | zero => rfl
  | succ k ih => simp [Memory.readBytes, ih]

theorem getElem_readBytes {k i : Nat} (h : i < (m.readBytes a k).length) : (m.readBytes a k)[i] = m.read (a + i) := by
  induction k generalizing a i with
  | zero => simp [Memory.readBytes] at h
  | succ k ih =>
    cases i with
    | zero => simp [Memory.readBytes]
    | succ i =>
      simp only [Memory.readBytes, List.getElem_cons_succ]
      rw [ih]
      congr 1
      omega

/-! ### The canonical form -/

theorem wf_erase (h : m.wf) : (m.erase a).wf := by
  refine ⟨?_, fun c hc => h.2 c (mem_erase hc).1⟩
  obtain ⟨h, -⟩ := h
  induction m with
  | nil => simp [Memory.erase]
  | cons d rest ih =>
    obtain ⟨x, u⟩ := d
    rw [List.pairwise_cons] at h
    by_cases hx : x = a
    · rw [Memory.erase, if_pos hx]
      exact ih h.2
    · rw [Memory.erase, if_neg hx, List.pairwise_cons]
      exact ⟨fun c hc => h.1 c (mem_erase hc).1, ih h.2⟩

theorem wf_insert (h : m.wf) (hne : ∀ c ∈ m, c.1 ≠ a) (hv : v ≠ unlistedByte) : (m.insert a v).wf := by
  refine ⟨?_, fun c hc => ?_⟩
  · obtain ⟨h, -⟩ := h
    induction m with
    | nil => simp [Memory.insert]
    | cons d rest ih =>
      obtain ⟨x, u⟩ := d
      have hx : x ≠ a := hne (x, u) List.mem_cons_self
      rw [List.pairwise_cons] at h
      by_cases hlt : a < x
      · rw [Memory.insert, if_pos hlt, List.pairwise_cons, List.pairwise_cons]
        refine ⟨fun c hc => ?_, h⟩
        rcases List.mem_cons.1 hc with rfl | hc
        · exact hlt
        · exact Nat.lt_trans hlt (h.1 c hc)
      · rw [Memory.insert, if_neg hlt, List.pairwise_cons]
        refine ⟨fun c hc => ?_, ih (fun c hc => hne c (List.mem_cons_of_mem _ hc)) h.2⟩
        rcases mem_insert hc with rfl | hc
        · show x < a
          omega
        · exact h.1 c hc
  · rcases mem_insert hc with rfl | hc
    · exact hv
    · exact h.2 c hc

/-- A write keeps the canonical form. -/
theorem wf_write (h : m.wf) : (m.write a v).wf := by
  unfold Memory.write
  split
  next => exact wf_erase h
  next hv => exact wf_insert (wf_erase h) (fun c hc => (mem_erase hc).2) hv

/-- A run of writes keeps the canonical form. -/
theorem wf_writeBytes {bytes : List Byte} (h : m.wf) : (m.writeBytes a bytes).wf := by
  induction bytes generalizing m a with
  | nil => exact h
  | cons u rest ih => exact ih (wf_write h)

/-- Taking bytes over from another memory keeps the canonical form. -/
theorem wf_overlay {n : Memory} {k : Nat} (h : m.wf) : (m.overlay n a k).wf := by
  induction k generalizing m a with
  | zero => exact h
  | succ k ih => exact ih (wf_write h)

/-- A write at an existing address, or of the unlisted value, keeps every listed address below the size. -/
theorem below_write (h : m.below size) (ha : a < size ∨ v = unlistedByte) : (m.write a v).below size := by
  intro c hc
  unfold Memory.write at hc
  split at hc
  next => exact h c (mem_erase hc).1
  next hv =>
    rcases mem_insert hc with rfl | hc
    · exact ha.resolve_right hv
    · exact h c (mem_erase hc).1

/-- A run of writes below the size keeps every listed address below the size. -/
theorem below_writeBytes {bytes : List Byte} (h : m.below size) (ha : a + bytes.length ≤ size) :
    (m.writeBytes a bytes).below size := by
  induction bytes generalizing m a with
  | nil => exact h
  | cons u rest ih =>
    simp only [List.length_cons] at ha
    exact ih (below_write h (.inl (by omega))) (by omega)

/-- An address at or above the size of a space reads as the unlisted value. -/
theorem read_eq_unlisted (h : m.below size) (ha : size ≤ a) : m.read a = unlistedByte := by
  induction m with
  | nil => rfl
  | cons d rest ih =>
    obtain ⟨x, u⟩ := d
    have hx : x < size := h (x, u) List.mem_cons_self
    rw [Memory.read, if_neg (by omega)]
    exact ih (fun c hc => h c (List.mem_cons_of_mem _ hc))

/-- Taking bytes over from a memory of the same space keeps every listed address below the size. -/
theorem below_overlay {n : Memory} {k : Nat} (h : m.below size) (hn : n.below size) : (m.overlay n a k).below size := by
  induction k generalizing m a with
  | zero => exact h
  | succ k ih =>
    refine ih (below_write h ?_)
    by_cases ha : a < size
    · exact .inl ha
    · exact .inr (read_eq_unlisted hn (by omega))

/-- What an overlay leaves: the bytes of the other memory in its range, everything else as before. -/
theorem read_overlay {n : Memory} {k : Nat} :
    (m.overlay n a k).read b = if a ≤ b ∧ b < a + k then n.read b else m.read b := by
  induction k generalizing m a with
  | zero => simp [Memory.overlay]
  | succ k ih =>
    rw [Memory.overlay, ih]
    by_cases hb : b = a
    · subst hb
      simp
    · rw [read_write_other hb]
      by_cases hin : a + 1 ≤ b ∧ b < a + 1 + k
      · rw [if_pos hin, if_pos (by omega)]
      · rw [if_neg hin, if_neg (by omega)]

/-- The memories of State.reset are in canonical form. -/
theorem reset_wf : State.reset.inMem.wf ∧ State.reset.outMem.wf ∧ State.reset.dictMem.wf := by
  refine ⟨?_, ?_, ?_⟩ <;> exact ⟨List.Pairwise.nil, fun c hc => absurd hc List.not_mem_nil⟩

end Sys2Proof.Machine.Laws
end

