-- ==== Sys2Proof/Laws/State.lean ====
section
/-!
SUPPORT. One lemma per field per update of the state, so that no later proof unfolds a record update.
-/

namespace Sys2Proof.Machine.Laws

open Sys2Proof Sys2Proof.Machine

/-! ### `respond` -/

@[simp] theorem respond_cfg (st : Status) (v : Value) (s : State) : (respond st v s).cfg = s.cfg := rfl
@[simp] theorem respond_strm (st : Status) (v : Value) (s : State) : (respond st v s).strm = s.strm := rfl
@[simp] theorem respond_ck (st : Status) (v : Value) (s : State) : (respond st v s).ck = s.ck := rfl
@[simp] theorem respond_ckValid (st : Status) (v : Value) (s : State) : (respond st v s).ckValid = s.ckValid := rfl
@[simp] theorem respond_fault (st : Status) (v : Value) (s : State) : (respond st v s).fault = s.fault := rfl
@[simp] theorem respond_faultCause (st : Status) (v : Value) (s : State) : (respond st v s).faultCause = s.faultCause := rfl
@[simp] theorem respond_inMem (st : Status) (v : Value) (s : State) : (respond st v s).inMem = s.inMem := rfl
@[simp] theorem respond_outMem (st : Status) (v : Value) (s : State) : (respond st v s).outMem = s.outMem := rfl
@[simp] theorem respond_dictMem (st : Status) (v : Value) (s : State) : (respond st v s).dictMem = s.dictMem := rfl
@[simp] theorem respond_port (st : Status) (v : Value) (s : State) : (respond st v s).port = s.port := rfl
@[simp] theorem respond_resp (st : Status) (v : Value) (s : State) : (respond st v s).resp = some ⟨st, v⟩ := rfl
@[simp] theorem respond_host (st : Status) (v : Value) (s : State) : (respond st v s).host = s.host := rfl

/-! ### `withStream` -/

@[simp] theorem withStream_cfg (x : Stream) (s : State) : (s.withStream x).cfg = s.cfg := rfl
@[simp] theorem withStream_strm (x : Stream) (s : State) : (s.withStream x).strm = x := rfl
@[simp] theorem withStream_ck (x : Stream) (s : State) : (s.withStream x).ck = s.ck := rfl
@[simp] theorem withStream_ckValid (x : Stream) (s : State) : (s.withStream x).ckValid = s.ckValid := rfl
@[simp] theorem withStream_fault (x : Stream) (s : State) : (s.withStream x).fault = s.fault := rfl
@[simp] theorem withStream_faultCause (x : Stream) (s : State) : (s.withStream x).faultCause = s.faultCause := rfl
@[simp] theorem withStream_inMem (x : Stream) (s : State) : (s.withStream x).inMem = s.inMem := rfl
@[simp] theorem withStream_outMem (x : Stream) (s : State) : (s.withStream x).outMem = s.outMem := rfl
@[simp] theorem withStream_dictMem (x : Stream) (s : State) : (s.withStream x).dictMem = s.dictMem := rfl
@[simp] theorem withStream_port (x : Stream) (s : State) : (s.withStream x).port = s.port := rfl
@[simp] theorem withStream_resp (x : Stream) (s : State) : (s.withStream x).resp = s.resp := rfl
@[simp] theorem withStream_host (x : Stream) (s : State) : (s.withStream x).host = s.host := rfl

/-! ### `withCkValid` -/

@[simp] theorem withCkValid_cfg (b : Bool) (s : State) : (s.withCkValid b).cfg = s.cfg := rfl
@[simp] theorem withCkValid_strm (b : Bool) (s : State) : (s.withCkValid b).strm = s.strm := rfl
@[simp] theorem withCkValid_ck (b : Bool) (s : State) : (s.withCkValid b).ck = s.ck := rfl
@[simp] theorem withCkValid_ckValid (b : Bool) (s : State) : (s.withCkValid b).ckValid = b := rfl
@[simp] theorem withCkValid_fault (b : Bool) (s : State) : (s.withCkValid b).fault = s.fault := rfl
@[simp] theorem withCkValid_faultCause (b : Bool) (s : State) : (s.withCkValid b).faultCause = s.faultCause := rfl
@[simp] theorem withCkValid_inMem (b : Bool) (s : State) : (s.withCkValid b).inMem = s.inMem := rfl
@[simp] theorem withCkValid_outMem (b : Bool) (s : State) : (s.withCkValid b).outMem = s.outMem := rfl
@[simp] theorem withCkValid_dictMem (b : Bool) (s : State) : (s.withCkValid b).dictMem = s.dictMem := rfl
@[simp] theorem withCkValid_port (b : Bool) (s : State) : (s.withCkValid b).port = s.port := rfl
@[simp] theorem withCkValid_resp (b : Bool) (s : State) : (s.withCkValid b).resp = s.resp := rfl
@[simp] theorem withCkValid_host (b : Bool) (s : State) : (s.withCkValid b).host = s.host := rfl

/-! ### `latch` -/

@[simp] theorem latch_cfg (c : Cause) (s : State) : (s.latch c).cfg = s.cfg := rfl
@[simp] theorem latch_strm (c : Cause) (s : State) : (s.latch c).strm = s.strm := rfl
@[simp] theorem latch_ck (c : Cause) (s : State) : (s.latch c).ck = s.ck := rfl
@[simp] theorem latch_ckValid (c : Cause) (s : State) : (s.latch c).ckValid = s.ckValid := rfl
@[simp] theorem latch_fault (c : Cause) (s : State) : (s.latch c).fault = true := rfl
@[simp] theorem latch_faultCause (c : Cause) (s : State) : (s.latch c).faultCause = if s.fault then s.faultCause else c.code := rfl
@[simp] theorem latch_inMem (c : Cause) (s : State) : (s.latch c).inMem = s.inMem := rfl
@[simp] theorem latch_outMem (c : Cause) (s : State) : (s.latch c).outMem = s.outMem := rfl
@[simp] theorem latch_dictMem (c : Cause) (s : State) : (s.latch c).dictMem = s.dictMem := rfl
@[simp] theorem latch_port (c : Cause) (s : State) : (s.latch c).port = s.port := rfl
@[simp] theorem latch_resp (c : Cause) (s : State) : (s.latch c).resp = s.resp := rfl
@[simp] theorem latch_host (c : Cause) (s : State) : (s.latch c).host = s.host := rfl

/-! ### `clearLatch` -/

@[simp] theorem clearLatch_cfg (s : State) : (s.clearLatch).cfg = s.cfg := rfl
@[simp] theorem clearLatch_strm (s : State) : (s.clearLatch).strm = s.strm := rfl
@[simp] theorem clearLatch_ck (s : State) : (s.clearLatch).ck = s.ck := rfl
@[simp] theorem clearLatch_ckValid (s : State) : (s.clearLatch).ckValid = s.ckValid := rfl
@[simp] theorem clearLatch_fault (s : State) : (s.clearLatch).fault = false := rfl
@[simp] theorem clearLatch_faultCause (s : State) : (s.clearLatch).faultCause = 0 := rfl
@[simp] theorem clearLatch_inMem (s : State) : (s.clearLatch).inMem = s.inMem := rfl
@[simp] theorem clearLatch_outMem (s : State) : (s.clearLatch).outMem = s.outMem := rfl
@[simp] theorem clearLatch_dictMem (s : State) : (s.clearLatch).dictMem = s.dictMem := rfl
@[simp] theorem clearLatch_port (s : State) : (s.clearLatch).port = s.port := rfl
@[simp] theorem clearLatch_resp (s : State) : (s.clearLatch).resp = s.resp := rfl
@[simp] theorem clearLatch_host (s : State) : (s.clearLatch).host = s.host := rfl

/-! ### `leaveFault` -/

@[simp] theorem leaveFault_cfg (s : State) : (leaveFault s).cfg = s.cfg := rfl
@[simp] theorem leaveFault_strm (s : State) : (leaveFault s).strm = s.strm := rfl
@[simp] theorem leaveFault_ck (s : State) : (leaveFault s).ck = s.ck := rfl
@[simp] theorem leaveFault_ckValid (s : State) : (leaveFault s).ckValid = s.ckValid := rfl
@[simp] theorem leaveFault_fault (s : State) : (leaveFault s).fault = false := rfl
@[simp] theorem leaveFault_faultCause (s : State) : (leaveFault s).faultCause = 0 := rfl
@[simp] theorem leaveFault_inMem (s : State) : (leaveFault s).inMem = s.inMem := rfl
@[simp] theorem leaveFault_outMem (s : State) : (leaveFault s).outMem = s.outMem := rfl
@[simp] theorem leaveFault_dictMem (s : State) : (leaveFault s).dictMem = s.dictMem := rfl
@[simp] theorem leaveFault_port (s : State) : (leaveFault s).port = s.port := rfl
@[simp] theorem leaveFault_resp (s : State) : (leaveFault s).resp = s.resp := rfl
@[simp] theorem leaveFault_host (s : State) : (leaveFault s).host = s.host := rfl

/-! ### `raise` -/

@[simp] theorem raise_cfg (c : Cause) (s : State) : (raise c s).cfg = s.cfg := rfl
@[simp] theorem raise_strm (c : Cause) (s : State) : (raise c s).strm = s.strm := rfl
@[simp] theorem raise_ck (c : Cause) (s : State) : (raise c s).ck = s.ck := rfl
@[simp] theorem raise_ckValid (c : Cause) (s : State) : (raise c s).ckValid = s.ckValid := rfl
@[simp] theorem raise_fault (c : Cause) (s : State) : (raise c s).fault = true := rfl
@[simp] theorem raise_faultCause (c : Cause) (s : State) : (raise c s).faultCause = if s.fault then s.faultCause else c.code := rfl
@[simp] theorem raise_inMem (c : Cause) (s : State) : (raise c s).inMem = s.inMem := rfl
@[simp] theorem raise_outMem (c : Cause) (s : State) : (raise c s).outMem = s.outMem := rfl
@[simp] theorem raise_dictMem (c : Cause) (s : State) : (raise c s).dictMem = s.dictMem := rfl
@[simp] theorem raise_port (c : Cause) (s : State) : (raise c s).port = s.port := rfl
@[simp] theorem raise_resp (c : Cause) (s : State) : (raise c s).resp = some ⟨.fault, c.code.setWidth 64⟩ := rfl
@[simp] theorem raise_host (c : Cause) (s : State) : (raise c s).host = s.host := rfl

/-! ### `refuse` -/

@[simp] theorem refuse_cfg (s : State) : (refuse s).cfg = s.cfg := rfl
@[simp] theorem refuse_strm (s : State) : (refuse s).strm = s.strm := rfl
@[simp] theorem refuse_ck (s : State) : (refuse s).ck = s.ck := rfl
@[simp] theorem refuse_ckValid (s : State) : (refuse s).ckValid = s.ckValid := rfl
@[simp] theorem refuse_fault (s : State) : (refuse s).fault = s.fault := rfl
@[simp] theorem refuse_faultCause (s : State) : (refuse s).faultCause = s.faultCause := rfl
@[simp] theorem refuse_inMem (s : State) : (refuse s).inMem = s.inMem := rfl
@[simp] theorem refuse_outMem (s : State) : (refuse s).outMem = s.outMem := rfl
@[simp] theorem refuse_dictMem (s : State) : (refuse s).dictMem = s.dictMem := rfl
@[simp] theorem refuse_port (s : State) : (refuse s).port = s.port := rfl
@[simp] theorem refuse_resp (s : State) : (refuse s).resp = some ⟨.fault, s.faultCause.setWidth 64⟩ := rfl
@[simp] theorem refuse_host (s : State) : (refuse s).host = s.host := rfl

/-! ### `accept` -/

@[simp] theorem accept_cfg (p : Packet) (s : State) : (s.accept p).cfg = s.cfg := rfl
@[simp] theorem accept_strm (p : Packet) (s : State) : (s.accept p).strm = s.strm := rfl
@[simp] theorem accept_ck (p : Packet) (s : State) : (s.accept p).ck = s.ck := rfl
@[simp] theorem accept_ckValid (p : Packet) (s : State) : (s.accept p).ckValid = s.ckValid := rfl
@[simp] theorem accept_fault (p : Packet) (s : State) : (s.accept p).fault = s.fault := rfl
@[simp] theorem accept_faultCause (p : Packet) (s : State) : (s.accept p).faultCause = s.faultCause := rfl
@[simp] theorem accept_inMem (p : Packet) (s : State) : (s.accept p).inMem = s.inMem := rfl
@[simp] theorem accept_outMem (p : Packet) (s : State) : (s.accept p).outMem = s.outMem := rfl
@[simp] theorem accept_dictMem (p : Packet) (s : State) : (s.accept p).dictMem = s.dictMem := rfl
@[simp] theorem accept_port (p : Packet) (s : State) : (s.accept p).port = p := rfl
@[simp] theorem accept_resp (p : Packet) (s : State) : (s.accept p).resp = s.resp := rfl
@[simp] theorem accept_host (p : Packet) (s : State) : (s.accept p).host = s.host := rfl

/-! ### `staged` -/

@[simp] theorem staged_cfg (n : Nat) (s : State) : (s.staged n).cfg = s.cfg := rfl
@[simp] theorem staged_strm (n : Nat) (s : State) : (s.staged n).strm = s.strm.stage s.cfg.w s.inMem n := rfl
@[simp] theorem staged_ck (n : Nat) (s : State) : (s.staged n).ck = s.ck := rfl
@[simp] theorem staged_ckValid (n : Nat) (s : State) : (s.staged n).ckValid = s.ckValid := rfl
@[simp] theorem staged_fault (n : Nat) (s : State) : (s.staged n).fault = s.fault := rfl
@[simp] theorem staged_faultCause (n : Nat) (s : State) : (s.staged n).faultCause = s.faultCause := rfl
@[simp] theorem staged_inMem (n : Nat) (s : State) : (s.staged n).inMem = s.inMem := rfl
@[simp] theorem staged_outMem (n : Nat) (s : State) : (s.staged n).outMem = s.outMem := rfl
@[simp] theorem staged_dictMem (n : Nat) (s : State) : (s.staged n).dictMem = s.dictMem := rfl
@[simp] theorem staged_port (n : Nat) (s : State) : (s.staged n).port = s.port := rfl
@[simp] theorem staged_resp (n : Nat) (s : State) : (s.staged n).resp = s.resp := rfl
@[simp] theorem staged_host (n : Nat) (s : State) : (s.staged n).host = s.host := rfl

/-! ### `filled` -/

@[simp] theorem filled_cfg (n : Nat) (s : State) : (s.filled n).cfg = s.cfg := rfl
@[simp] theorem filled_strm (n : Nat) (s : State) : (s.filled n).strm = s.strm.fill s.cfg.w s.inMem n := rfl
@[simp] theorem filled_ck (n : Nat) (s : State) : (s.filled n).ck = s.ck := rfl
@[simp] theorem filled_ckValid (n : Nat) (s : State) : (s.filled n).ckValid = s.ckValid := rfl
@[simp] theorem filled_fault (n : Nat) (s : State) : (s.filled n).fault = s.fault := rfl
@[simp] theorem filled_faultCause (n : Nat) (s : State) : (s.filled n).faultCause = s.faultCause := rfl
@[simp] theorem filled_inMem (n : Nat) (s : State) : (s.filled n).inMem = s.inMem := rfl
@[simp] theorem filled_outMem (n : Nat) (s : State) : (s.filled n).outMem = s.outMem := rfl
@[simp] theorem filled_dictMem (n : Nat) (s : State) : (s.filled n).dictMem = s.dictMem := rfl
@[simp] theorem filled_port (n : Nat) (s : State) : (s.filled n).port = s.port := rfl
@[simp] theorem filled_resp (n : Nat) (s : State) : (s.filled n).resp = s.resp := rfl
@[simp] theorem filled_host (n : Nat) (s : State) : (s.filled n).host = s.host := rfl

/-! ### `consume` -/

@[simp] theorem consume_cfg (n : Nat) (s : State) : (s.consume n).cfg = s.cfg := rfl
@[simp] theorem consume_strm (n : Nat) (s : State) : (s.consume n).strm = s.strm.consume n := rfl
@[simp] theorem consume_ck (n : Nat) (s : State) : (s.consume n).ck = s.ck := rfl
@[simp] theorem consume_ckValid (n : Nat) (s : State) : (s.consume n).ckValid = s.ckValid := rfl
@[simp] theorem consume_fault (n : Nat) (s : State) : (s.consume n).fault = s.fault := rfl
@[simp] theorem consume_faultCause (n : Nat) (s : State) : (s.consume n).faultCause = s.faultCause := rfl
@[simp] theorem consume_inMem (n : Nat) (s : State) : (s.consume n).inMem = s.inMem := rfl
@[simp] theorem consume_outMem (n : Nat) (s : State) : (s.consume n).outMem = s.outMem := rfl
@[simp] theorem consume_dictMem (n : Nat) (s : State) : (s.consume n).dictMem = s.dictMem := rfl
@[simp] theorem consume_port (n : Nat) (s : State) : (s.consume n).port = s.port := rfl
@[simp] theorem consume_resp (n : Nat) (s : State) : (s.consume n).resp = s.resp := rfl
@[simp] theorem consume_host (n : Nat) (s : State) : (s.consume n).host = s.host := rfl

/-! ### Derived quantities under an update of the stream registers -/

@[simp] theorem withStream_avail (x : Stream) (s : State) : (s.withStream x).avail = x.avail s.cfg.w := rfl
@[simp] theorem withStream_total (x : Stream) (s : State) : (s.withStream x).total = x.total s.cfg.w := rfl
@[simp] theorem respond_avail (st : Status) (v : Value) (s : State) : (respond st v s).avail = s.avail := rfl
@[simp] theorem respond_total (st : Status) (v : Value) (s : State) : (respond st v s).total = s.total := rfl
@[simp] theorem respond_rembytes (st : Status) (v : Value) (s : State) : (respond st v s).rembytes = s.rembytes := rfl
@[simp] theorem consume_acc (x : Stream) (n : Nat) : (x.consume n).acc = x.acc := rfl
@[simp] theorem consume_bitPos (x : Stream) (n : Nat) : (x.consume n).bitPos = x.bitPos + n := rfl
@[simp] theorem consume_cursor (x : Stream) (n : Nat) : (x.consume n).cursor = x.cursor := rfl
@[simp] theorem consume_remaining (x : Stream) (n : Nat) : (x.consume n).remaining = x.remaining := rfl
@[simp] theorem load1_bitPos (w : AccWidth) (m : Memory) (x : Stream) : (x.load1 w m).bitPos = x.bitPos - 8 := rfl
@[simp] theorem load1_cursor (w : AccWidth) (m : Memory) (x : Stream) : (x.load1 w m).cursor = x.cursor + 1 := rfl
@[simp] theorem load1_remaining (w : AccWidth) (m : Memory) (x : Stream) : (x.load1 w m).remaining = x.remaining - 1 := rfl

/-! ### The outcomes in the form the statements use -/

/-- A fault taken while none is latched (R242). -/
theorem raise_eq_faulted (c : Cause) (s : State) (h : s.fault = false) : raise c s = s.faulted c := by
  simp [raise, respond, State.latch, State.faulted, h]

/-- A response after a change of the stream registers. -/
theorem respond_withStream (st : Status) (v : Value) (x : Stream) (s : State) :
    respond st v (s.withStream x) = s.answered x st v := rfl

/-- A response that leaves the stream registers. -/
theorem respond_eq_answered (st : Status) (v : Value) (s : State) : respond st v s = s.answered s.strm st v := rfl

end Sys2Proof.Machine.Laws
end

