-- ==== Sys2Proof/Laws/Stream.lean ====
section
/-!
SUPPORT. What the stream operations do, said once: `load1`, runs of it, the staging loop in closed form, the logical stream under them,
`peek` as bits of the stream, the drain of `COPY`.
-/

namespace Sys2Proof.Machine.Laws

open Sys2Proof Sys2Proof.Machine

variable {c : Config} {w : AccWidth} {m : Memory} {x : Stream} {s : State}

/-! ### Sizes -/

theorem bits_cases (w : AccWidth) : w.bits = 32 ∨ w.bits = 64 := by cases w <;> simp [AccWidth.bits]

theorem ndir_le (c : Config) : ndir c ≤ 32 ∧ ndir c + 8 ≤ c.w.bits := by
  unfold ndir
  rcases bits_cases c.w with h | h <;> rw [h] <;> omega

theorem spaceSize_le (c : Config) : spaceSize c ≤ 2 ^ 32 := Nat.pow_le_pow_right (by omega) c.awRange.2

/-! ### Runs of `load1` -/

@[simp] theorem loadMany_zero : x.loadMany w m 0 = x := rfl

theorem loadMany_succ (k : Nat) : x.loadMany w m (k + 1) = (x.load1 w m).loadMany w m k := rfl

@[simp] theorem loadMany_bitPos (k : Nat) : (x.loadMany w m k).bitPos = x.bitPos - 8 * k := by
  induction k generalizing x with
  | zero => rfl
  | succ k ih => rw [loadMany_succ, ih, load1_bitPos]; omega

@[simp] theorem loadMany_cursor (k : Nat) : (x.loadMany w m k).cursor = x.cursor + k := by
  induction k generalizing x with
  | zero => rfl
  | succ k ih => rw [loadMany_succ, ih, load1_cursor]; omega

@[simp] theorem loadMany_remaining (k : Nat) : (x.loadMany w m k).remaining = x.remaining - k := by
  induction k generalizing x with
  | zero => rfl
  | succ k ih => rw [loadMany_succ, ih, load1_remaining]; omega

theorem loadMany_avail {k : Nat} (hk : 8 * k ≤ x.bitPos) (hb : x.bitPos ≤ w.bits) :
    (x.loadMany w m k).avail w = x.avail w + 8 * k := by
  unfold Stream.avail
  rw [loadMany_bitPos]
  omega

theorem loadMany_total {k : Nat} (hk : 8 * k ≤ x.bitPos) (hb : x.bitPos ≤ w.bits) (hr : k ≤ x.remaining) :
    (x.loadMany w m k).total w = x.total w := by
  unfold Stream.total
  rw [loadMany_avail hk hb, loadMany_remaining]
  omega

/-! ### The bits of `acc` under `load1` -/

theorem load1_getLsbD (i : Nat) :
    (x.load1 w m).acc.getLsbD i =
      (x.acc.getLsbD (8 + i) ||
        (decide (i < 64) && !decide (i < w.bits - 8) && (m.read x.cursor).getLsbD (i - (w.bits - 8)))) := by
  have hw := bits_cases w
  simp only [Stream.load1, BitVec.getLsbD_or, BitVec.getLsbD_ushiftRight, BitVec.getLsbD_shiftLeft, BitVec.getLsbD_setWidth]
  congr 1
  by_cases h1 : i < 64 <;> by_cases h2 : i < w.bits - 8 <;> simp [h1, h2]
  omega

theorem acc_getLsbD_of_le (h : x.acc.toNat < 2 ^ c.w.bits) {i : Nat} (hi : c.w.bits ≤ i) : x.acc.getLsbD i = false := by
  rw [BitVec.getLsbD, Nat.testBit_eq_false_of_lt]
  exact Nat.lt_of_lt_of_le h (Nat.pow_le_pow_right (by omega) hi)

/-- `load1` keeps stream registers that fit their widths. -/
theorem load1_ok (h : x.Ok c) (hr : 0 < x.remaining) (hb : 8 ≤ x.bitPos) : (x.load1 c.w m).Ok c := by
  obtain ⟨ha, hp, hc⟩ := h
  refine ⟨?_, by rw [load1_bitPos]; omega, by rw [load1_cursor, load1_remaining]; omega⟩
  apply Nat.lt_pow_two_of_testBit
  intro i hi
  rw [← BitVec.getLsbD, load1_getLsbD, acc_getLsbD_of_le ha (by omega)]
  by_cases h64 : i < 64
  · have : 8 ≤ i - (c.w.bits - 8) := by have := bits_cases c.w; omega
    simp [BitVec.getLsbD_of_ge _ _ this]
  · simp [h64]

/-- A run of `load1` within the chunk and the free bits keeps stream registers that fit their widths. -/
theorem loadMany_ok {k : Nat} (h : x.Ok c) (hr : k ≤ x.remaining) (hb : 8 * k ≤ x.bitPos) : (x.loadMany c.w m k).Ok c := by
  induction k generalizing x with
  | zero => exact h
  | succ k ih =>
    rw [loadMany_succ]
    exact ih (load1_ok h (by omega) (by omega)) (by rw [load1_remaining]; omega) (by rw [load1_bitPos]; omega)

/-! ### The logical stream -/

/-- Staging one byte leaves every bit of the logical stream (R24, R53, R54). -/
theorem streamBit_load1 (h : s.strm.Ok s.cfg) (hb : 8 ≤ s.strm.bitPos) (k : Nat) :
    (s.withStream (s.strm.load1 s.cfg.w s.inMem)).streamBit k = s.streamBit k := by
  obtain ⟨ha, hp, -⟩ := h
  have hw := bits_cases s.cfg.w
  have hav : (s.strm.load1 s.cfg.w s.inMem).avail s.cfg.w = s.avail + 8 := by
    show s.cfg.w.bits - (s.strm.bitPos - 8) = s.cfg.w.bits - s.strm.bitPos + 8
    omega
  have hs : s.avail = s.cfg.w.bits - s.strm.bitPos := rfl
  unfold State.streamBit
  simp only [withStream_avail, withStream_strm, withStream_inMem, hav, load1_bitPos, load1_cursor]
  by_cases h1 : k < s.avail
  · rw [if_pos (by omega), if_pos h1, load1_getLsbD]
    have : s.strm.bitPos - 8 + k < s.cfg.w.bits - 8 := by omega
    have e : 8 + (s.strm.bitPos - 8 + k) = s.strm.bitPos + k := by omega
    simp [this, e]
  · by_cases h2 : k < s.avail + 8
    · rw [if_pos h2, if_neg h1, load1_getLsbD, acc_getLsbD_of_le ha (by omega)]
      have e1 : ¬ s.strm.bitPos - 8 + k < s.cfg.w.bits - 8 := by omega
      have e2 : s.strm.bitPos - 8 + k < 64 := by omega
      have e3 : s.strm.bitPos - 8 + k - (s.cfg.w.bits - 8) = k - s.avail := by omega
      have e4 : (k - s.avail) / 8 = 0 := by omega
      have e5 : (k - s.avail) % 8 = k - s.avail := by omega
      simp [e1, e2, e3, e4, e5]
    · rw [if_neg h2, if_neg h1]
      have e1 : s.strm.cursor + 1 + (k - (s.avail + 8)) / 8 = s.strm.cursor + (k - s.avail) / 8 := by omega
      have e2 : (k - (s.avail + 8)) % 8 = (k - s.avail) % 8 := by omega
      rw [e1, e2]

/-- A run of `load1` leaves every bit of the logical stream. -/
theorem streamBit_loadMany {k : Nat} (h : s.strm.Ok s.cfg) (hr : k ≤ s.strm.remaining) (hb : 8 * k ≤ s.strm.bitPos) (j : Nat) :
    (s.withStream (s.strm.loadMany s.cfg.w s.inMem k)).streamBit j = s.streamBit j := by
  induction k generalizing s with
  | zero => rfl
  | succ k ih =>
    rw [loadMany_succ]
    have h1 := load1_ok (m := s.inMem) h (by omega) (by omega)
    have h2 := ih (s := s.withStream (s.strm.load1 s.cfg.w s.inMem)) h1 (by simp; omega) (by simp; omega)
    rw [← streamBit_load1 h (by omega) j, ← h2]
    rfl

/-! ### The staging loop -/

/-- The staging loop in closed form: the bytes that are missing, capped by the chunk (R131). -/
theorem stage_eq_loadMany {target : Nat} (hb : x.bitPos ≤ w.bits) (ht : target + 7 ≤ w.bits) :
    x.stage w m target = x.loadMany w m (bytesToStage w target x) := by
  unfold Stream.stage
  generalize hf : x.remaining = fuel
  induction fuel generalizing x with
  | zero => simp [Stream.stageLoop, bytesToStage, hf]
  | succ fuel ih =>
    rw [Stream.stageLoop]
    by_cases hc : x.avail w < target
    · have hav : x.avail w = w.bits - x.bitPos := rfl
      have hav' : (x.load1 w m).avail w = x.avail w + 8 := by
        show w.bits - (x.bitPos - 8) = w.bits - x.bitPos + 8
        omega
      rw [if_pos ⟨hc, by omega⟩, ih (by rw [load1_bitPos]; omega) (by rw [load1_remaining]; omega)]
      have : bytesToStage w target x = bytesToStage w target (x.load1 w m) + 1 := by
        unfold bytesToStage
        rw [hav', load1_remaining]
        omega
      rw [this, loadMany_succ]
    · rw [if_neg (fun h => hc h.1)]
      have : bytesToStage w target x = 0 := by unfold bytesToStage; omega
      rw [this, loadMany_zero]

/-- The bytes that staging loads fit the chunk and the free bits. -/
theorem bytesToStage_fits {target : Nat} (hb : x.bitPos ≤ w.bits) (ht : target + 7 ≤ w.bits) :
    bytesToStage w target x ≤ x.remaining ∧ 8 * bytesToStage w target x ≤ x.bitPos := by
  have hav : x.avail w = w.bits - x.bitPos := rfl
  unfold bytesToStage
  omega

/-- What staging reaches: the target, or all that is left. -/
theorem bytesToStage_reaches {target : Nat} :
    min target (x.total w) ≤ x.avail w + 8 * bytesToStage w target x := by
  unfold bytesToStage Stream.total
  omega

/-- Staging keeps stream registers that fit their widths. -/
theorem stage_ok {target : Nat} (h : x.Ok c) (ht : target + 7 ≤ c.w.bits) : (x.stage c.w m target).Ok c := by
  rw [stage_eq_loadMany h.2.1 ht]
  have := bytesToStage_fits h.2.1 ht
  exact loadMany_ok h this.1 this.2

/-- Staging leaves every bit of the logical stream. -/
theorem streamBit_staged {target : Nat} (h : s.strm.Ok s.cfg) (ht : target + 7 ≤ s.cfg.w.bits) (j : Nat) :
    (s.staged target).streamBit j = s.streamBit j := by
  unfold State.staged
  rw [stage_eq_loadMany h.2.1 ht]
  have := bytesToStage_fits h.2.1 ht
  exact streamBit_loadMany h this.1 this.2 j

/-! ### `peek` and consuming -/

theorem mask_getLsbD {n i : Nat} (hn : n ≤ 64) : (mask n).getLsbD i = decide (i < n) := by
  unfold mask
  rw [BitVec.getLsbD_ofNat, Nat.testBit_two_pow_sub_one]
  by_cases h : i < n
  · simp [h]; omega
  · simp [h]

/-- `peek(n)` is the `n` bits of `acc` from `bitPos` up (R13). -/
theorem peek_getLsbD {n : Nat} (hn : n ≤ 64) (i : Nat) :
    (x.peek n).getLsbD i = (decide (i < n) && x.acc.getLsbD (x.bitPos + i)) := by
  rw [Stream.peek, Stream.window, BitVec.getLsbD_and, BitVec.getLsbD_ushiftRight, mask_getLsbD hn, Bool.and_comm]

/-- `peek(n)` of staged bits is the field at the read position (R53). -/
theorem peek_fieldAt {n : Nat} (hn : n ≤ s.avail) (h64 : n ≤ 64) : s.FieldAt 0 n (s.peek n) := by
  intro i
  rw [State.peek, peek_getLsbD h64, Nat.zero_add]
  by_cases h : i < n
  · simp only [h, decide_true, Bool.true_and]
    rw [State.streamBit, if_pos (by omega)]
  · simp [h]

/-- Consuming staged bits moves the read position (R20, R24). -/
theorem streamBit_consume {n : Nat} (hn : n ≤ s.avail) (k : Nat) : (s.consume n).streamBit k = s.streamBit (n + k) := by
  have hav : (s.strm.consume n).avail s.cfg.w = s.avail - n := by
    show s.cfg.w.bits - (s.strm.bitPos + n) = s.cfg.w.bits - s.strm.bitPos - n
    omega
  unfold State.streamBit
  simp only [State.consume, withStream_avail, withStream_strm, withStream_inMem, hav, consume_acc, consume_bitPos, consume_cursor]
  by_cases h : k < s.avail - n
  · rw [if_pos h, if_pos (by omega), Nat.add_assoc]
  · rw [if_neg h, if_neg (by omega)]
    have e : k - (s.avail - n) = n + k - s.avail := by omega
    rw [e]

/-- Consuming staged bits keeps stream registers that fit their widths. -/
theorem consume_ok {n : Nat} (h : x.Ok c) (hn : n ≤ x.avail c.w) : (x.consume n).Ok c := by
  have hav : x.avail c.w = c.w.bits - x.bitPos := rfl
  obtain ⟨ha, hp, hc⟩ := h
  exact ⟨ha, by rw [consume_bitPos]; omega, hc⟩

/-! ### The drain of `COPY` -/

/-- The drain takes `min(cnt, avail() div 8)` bytes and moves `bitPos` over them (R171). -/
theorem drain_eq (cnt : Nat) :
    (x.drain w cnt).1.length = min cnt (x.avail w / 8) ∧ (x.drain w cnt).2 = x.consume (8 * min cnt (x.avail w / 8)) := by
  induction cnt generalizing x with
  | zero => simp [Stream.drain, Stream.consume]
  | succ cnt ih =>
    have hav : (x.consume 8).avail w = x.avail w - 8 := by
      show w.bits - (x.bitPos + 8) = w.bits - x.bitPos - 8
      omega
    by_cases h : 8 ≤ x.avail w
    · rw [Stream.drain, if_pos h]
      have h1 := (ih (x := x.consume 8)).1
      have h2 := (ih (x := x.consume 8)).2
      rw [hav] at h1 h2
      refine ⟨?_, ?_⟩
      · simp only [List.length_cons, h1]
        omega
      · show ((x.consume 8).drain w cnt).2 = _
        rw [h2]
        simp only [Stream.consume]
        have : x.bitPos + 8 + 8 * min cnt ((x.avail w - 8) / 8) = x.bitPos + 8 * min (cnt + 1) (x.avail w / 8) := by omega
        rw [this]
    · rw [Stream.drain, if_neg h]
      have : min (cnt + 1) (x.avail w / 8) = 0 := by omega
      rw [this]
      simp [Stream.consume]

/-- The bytes the drain writes: byte `i` is the eight staged bits from `8 * i` on (R171). -/
theorem drain_getLsbD {cnt i : Nat} (hi : i < (x.drain w cnt).1.length) {j : Nat} (hj : j < 8) :
    ((x.drain w cnt).1[i]).getLsbD j = x.acc.getLsbD (x.bitPos + (8 * i + j)) := by
  induction cnt generalizing x i with
  | zero => simp [Stream.drain] at hi
  | succ cnt ih =>
    by_cases h : 8 ≤ x.avail w
    · have e : x.drain w (cnt + 1) = ((x.peek 8).setWidth 8 :: ((x.consume 8).drain w cnt).1, ((x.consume 8).drain w cnt).2) := by
        rw [Stream.drain, if_pos h]
      have hi' : i < ((x.peek 8).setWidth 8 :: ((x.consume 8).drain w cnt).1).length := by rw [e] at hi; exact hi
      have eb : (x.drain w (cnt + 1)).1[i] = ((x.peek 8).setWidth 8 :: ((x.consume 8).drain w cnt).1)[i] := by
        simp only [e]
      rw [eb]
      cases i with
      | zero =>
        rw [List.getElem_cons_zero, BitVec.getLsbD_setWidth, peek_getLsbD (by omega)]
        simp [hj]
      | succ i =>
        rw [List.getElem_cons_succ, ih]
        rw [consume_acc, consume_bitPos]
        congr 1
        omega
    · have e : x.drain w (cnt + 1) = ([], x) := by rw [Stream.drain, if_neg h]
      rw [e] at hi
      simp at hi

end Sys2Proof.Machine.Laws
end

