-- ==== Sys2Proof/Laws/Ops.lean ====
section
/-!
SUPPORT. One lemma for each shared operation, saying once everything it can do; later proofs cite these instead of unfolding.
-/

namespace Sys2Proof.Machine.Laws

open Sys2Proof Sys2Proof.Machine

variable {s t : State} {run : Result}

/-! ### The latch and the checks -/

/-- With the latch clear the command runs (R245 item 1). -/
theorem unlessLatched_clear (h : s.fault = false) : unlessLatched s run = run := by simp [unlessLatched, h]

/-- With the latch set the command is refused (R243). -/
theorem unlessLatched_set (h : s.fault = true) : unlessLatched s run = .next (refuse s) := by simp [unlessLatched, h]

/-- Everything `unlessLatched` can answer. -/
theorem unlessLatched_next (h : unlessLatched s run = .next t) :
    (s.fault = true ∧ t = refuse s) ∨ (s.fault = false ∧ run = .next t) := by
  unfold unlessLatched at h
  split at h
  next hf => exact .inl ⟨hf, by simpa using h.symm⟩
  next hf => exact .inr ⟨by simpa using hf, h⟩

/-- Everything `endRead` can answer: the state after the command. -/
theorem endRead_next {u : State} (h : endRead s t = .next u) :
    u = t ∧ ¬(s.strm.cursor < t.strm.cursor ∧ spaceSize s.cfg < t.strm.cursor) := by
  unfold endRead at h
  split at h
  next => simp at h
  next hc => exact ⟨by simpa using h.symm, hc⟩

/-- A command that ends inside the space completes (R22, R58). -/
theorem endRead_inside (h : t.strm.cursor ≤ spaceSize s.cfg) : endRead s t = .next t := by
  unfold endRead
  rw [if_neg (by omega)]

/-- Everything the checks of an unchecked read can answer (R88, R131, R133 to R135). -/
theorem checkedRead_next {limit n : Nat} (h : checkedRead limit n s run = .next t) :
    (s.fault = true ∧ t = refuse s) ∨
    (s.fault = false ∧ limit < n ∧ t = raise .illegalField s) ∨
    (s.fault = false ∧ n ≤ limit ∧ s.total < n ∧ t = raise .underrun s) ∨
    (s.fault = false ∧ n ≤ limit ∧ n ≤ s.total ∧ run = .next t) := by
  rcases unlessLatched_next h with h | ⟨hf, h⟩
  · exact .inl h
  · right
    split at h
    next hl => exact .inl ⟨hf, hl, by simpa using h.symm⟩
    next hl =>
      split at h
      next ht => exact .inr (.inl ⟨hf, by omega, ht, by simpa using h.symm⟩)
      next ht => exact .inr (.inr ⟨hf, by omega, by omega, h⟩)

/-- An unchecked read that passes its checks runs. -/
theorem checkedRead_passes {limit n : Nat} (hf : s.fault = false) (hl : n ≤ limit) (ht : n ≤ s.total) :
    checkedRead limit n s run = run := by
  unfold checkedRead
  rw [unlessLatched_clear hf, if_neg (by omega), if_neg (by omega)]

/-- Everything the safe loop can answer (R150, R151). -/
theorem safeField_next {n : BitVec 6} {done : State → State} (h : safeField n s done = .next t) :
    (s.fault = true ∧ t = refuse s) ∨
    (s.fault = false ∧ ndir s.cfg < n.toNat ∧ t = raise .illegalField s) ∨
    (s.fault = false ∧ n.toNat ≤ ndir s.cfg ∧ (s.staged n.toNat).avail < n.toNat ∧
      t = respond .noData 0 (s.staged n.toNat)) ∨
    (s.fault = false ∧ n.toNat ≤ ndir s.cfg ∧ n.toNat ≤ (s.staged n.toNat).avail ∧ t = done (s.staged n.toNat)) := by
  rcases unlessLatched_next h with h | ⟨hf, h⟩
  · exact .inl h
  · right
    split at h
    next hl => exact .inl ⟨hf, hl, by simpa using h.symm⟩
    next hl =>
      dsimp only at h
      split at h
      next ha => exact .inr (.inl ⟨hf, by omega, ha, (endRead_next h).1⟩)
      next ha => exact .inr (.inr ⟨hf, by omega, by omega, (endRead_next h).1⟩)

/-- Everything the checks of a transform can answer (R86, R200, R243). -/
theorem transformGuard_eq (x : XOperands) (s run : State) :
    transformGuard x s run = .next (
      if s.fault then refuse s
      else if s.cfg.hasXform then
        if spanFits s.cfg x.word.toNat x.len.toNat then run else raise .illegalField s
      else raise .illegalOpcode s) := by
  unfold transformGuard unlessLatched
  by_cases h1 : s.fault
  · simp [h1]
  · by_cases h2 : s.cfg.hasXform
    · by_cases h3 : spanFits s.cfg x.word.toNat x.len.toNat <;> simp [h1, h2, h3]
    · simp [h1, h2]

/-! ### The transform -/

/-- The length of a fragment's scan is that of the pool at most (R202). -/
theorem untilZero_length {l r : List Byte} (h : untilZero l = some r) : r.length < l.length := by
  induction l generalizing r with
  | nil => simp [untilZero] at h
  | cons b rest ih =>
    rw [untilZero] at h
    split at h
    next => simp only [Option.some.injEq] at h; subst h; simp
    next =>
      rw [Option.map_eq_some_iff] at h
      obtain ⟨u, hu, rfl⟩ := h
      simpa using ih hu

/-- Everything an expansion can do: a fault with nothing else changed, or its bytes written at the destination (R200). -/
theorem expand_cases (extent : Nat → Nat × Nat) (caseStep : Config → List Byte → List Byte) (p q : Byte) (x : XOperands) (s : State) :
    expand extent caseStep p q x s = raise .xformRange s ∨
    ∃ pre suf, fragment s.cfg p = some pre ∧ fragment s.cfg q = some suf ∧
      x.dest.toNat + (pre.length + (extent x.len.toNat).2 + suf.length) < spaceSize s.cfg ∧
      expand extent caseStep p q x s =
        respond .ok (BitVec.ofNat 64 (pre.length + (extent x.len.toNat).2 + suf.length))
          { s with outMem := s.outMem.writeBytes x.dest.toNat (pre ++
              caseStep s.cfg (s.dictMem.readBytes (x.word.toNat + (extent x.len.toNat).1) (extent x.len.toNat).2) ++ suf) } := by
  unfold expand
  split
  next pre suf hp hq =>
    dsimp only
    split
    next hd => exact .inr ⟨pre, suf, hp, hq, hd, rfl⟩
    next => exact .inl rfl
  next => exact .inl rfl

/-! ### Faults -/

/-- A status is never two things at once: the responses of `raise` and `refuse` are `FAULT` (R90). -/
theorem raise_answeredFault (c : Cause) (s : State) : (raise c s).answeredFault = true := rfl

theorem refuse_answeredFault (s : State) : (refuse s).answeredFault = true := rfl

/-- The code of a cause is 1 to 7 (R241). -/
theorem code_range (c : Cause) : 1 ≤ c.code.toNat ∧ c.code.toNat ≤ 7 := by cases c <;> decide

/-- Raising keeps the latch in its form (R33, R241, R242). -/
theorem raise_latchOk (c : Cause) (h : s.LatchOk) : (raise c s).LatchOk := by
  refine ⟨fun hf => absurd hf (by simp), fun _ => ?_⟩
  rw [raise_faultCause]
  split
  next hf => exact h.2 hf
  next => exact code_range c

/-- Raising keeps the invariant (R242). -/
theorem raise_inv (c : Cause) (h : s.Inv) : (raise c s).Inv :=
  ⟨h.1, h.2.1, raise_latchOk c h.2.2.1, h.2.2.2.1, h.2.2.2.2.1, h.2.2.2.2.2⟩

/-- Answering keeps the invariant. -/
theorem respond_inv (st : Status) (v : Value) (h : s.Inv) : (respond st v s).Inv := h

/-- Other stream registers that fit their widths keep the invariant. -/
theorem withStream_inv {x : Stream} (h : s.Inv) (hx : x.Ok s.cfg) : (s.withStream x).Inv :=
  ⟨hx, h.2.1, h.2.2.1, h.2.2.2.1, h.2.2.2.2.1, h.2.2.2.2.2⟩

/-- The range test in the words of R89. -/
theorem spanFits_iff (c : Config) (a k : Nat) : spanFits c a k = true ↔ a + k < 2 ^ c.aw := decide_eq_true_iff

/-- The range test fails in the words of R89. -/
theorem spanFits_eq_false_iff (c : Config) (a k : Nat) : spanFits c a k = false ↔ 2 ^ c.aw ≤ a + k :=
  decide_eq_false_iff_not.trans Nat.not_lt

end Sys2Proof.Machine.Laws
end

