-- ==== Sys2Proof/Laws/PerInstr.lean ====
section
/-!
SUPPORT. Per instruction: the encoder writes the fixed bits that spec/opcode_table.json gives the row.
-/

namespace Sys2Proof.Laws.FixedBits

open Sys2Proof

/-- The mask and the match of an instruction's row in spec/opcode_table.json. -/
def row : Instr → Nat × Nat
  | .init _ _ => (0xFFFFFFFF, 0x00000000)
  | .reseat _ _ => (0xFFFFFFFF, 0x08000000)
  | .warmup => (0xFFFFFFFF, 0x10000000)
  | .avail => (0xFFFFFFFF, 0x18000000)
  | .rembytes => (0xFFFFFFFF, 0x20000000)
  | .fill _ => (0xFFFFFFC0, 0x28000000)
  | .getu => (0xFFFFFFFF, 0x30000000)
  | .get _ => (0xFFFFFFC0, 0x38000000)
  | .take _ => (0xFFFFFFC0, 0x40000000)
  | .read _ => (0xFFFFFFC0, 0x48000000)
  | .sread _ => (0xFFFFFFC0, 0x50000000)
  | .sget _ => (0xFFFFFFC0, 0x58000000)
  | .pull => (0xFFFFFFFF, 0x60000000)
  | .drop _ => (0xFFFFFFC0, 0x68000000)
  | .align => (0xFFFFFFFF, 0x70000000)
  | .copy _ _ => (0xFFFFFFFF, 0x78000000)
  | .save => (0xFFFFFFFF, 0x80000000)
  | .restore => (0xFFFFFFFF, 0x88000000)
  | .rdreg _ => (0xFFFFFFC0, 0x90000000)
  | .ctx _ _ _ => (0xFF0000C0, 0x98000000)
  | .xform _ _ _ _ => (0xFF0000FF, 0xA0000000)
  | .identity _ _ => (0x00FF00, 0x000000)
  | .omitLast1 _ _ => (0x00FF00, 0x000100)
  | .omitLast2 _ _ => (0x00FF00, 0x000200)
  | .omitLast3 _ _ => (0x00FF00, 0x000300)
  | .omitLast4 _ _ => (0x00FF00, 0x000400)
  | .omitLast5 _ _ => (0x00FF00, 0x000500)
  | .omitLast6 _ _ => (0x00FF00, 0x000600)
  | .omitLast7 _ _ => (0x00FF00, 0x000700)
  | .omitLast8 _ _ => (0x00FF00, 0x000800)
  | .omitLast9 _ _ => (0x00FF00, 0x000900)
  | .uppercaseFirst _ _ => (0x00FF00, 0x000A00)
  | .uppercaseAll _ _ => (0x00FF00, 0x000B00)
  | .omitFirst1 _ _ => (0x00FF00, 0x000C00)
  | .omitFirst2 _ _ => (0x00FF00, 0x000D00)
  | .omitFirst3 _ _ => (0x00FF00, 0x000E00)
  | .omitFirst4 _ _ => (0x00FF00, 0x000F00)
  | .omitFirst5 _ _ => (0x00FF00, 0x001000)
  | .omitFirst6 _ _ => (0x00FF00, 0x001100)
  | .omitFirst7 _ _ => (0x00FF00, 0x001200)
  | .omitFirst8 _ _ => (0x00FF00, 0x001300)
  | .omitFirst9 _ _ => (0x00FF00, 0x001400)

/-- The bits of an instruction's first word. -/
def word : Encoding → Nat
  | .packet p => p.cw.toNat
  | .entry e => e.toNat

/-- The encoding's bits under the row's mask are the row's match. -/
def Statement (i : Instr) : Prop := word (encode i) &&& (row i).1 = (row i).2

theorem ctx_fixed (p1 p2 : Byte) (n : BitVec 6) : (commandWord 0x13 p2 p1 n).toNat &&& 0xFF0000C0 = 0x98000000 := by
  have h : commandWord 0x13 p2 p1 n &&& 0xFF0000C0#32 = 0x98000000#32 := by
    apply BitVec.eq_of_getLsbD_eq
    intro i hi
    unfold commandWord
    simp only [BitVec.getLsbD_and, BitVec.getLsbD_append]
    interval_cases i <;> simp
  simpa using congrArg BitVec.toNat h

theorem xform_fixed (tid len : Byte) : (commandWord 0x14 len tid 0).toNat &&& 0xFF0000FF = 0xA0000000 := by
  have h : commandWord 0x14 len tid 0 &&& 0xFF0000FF#32 = 0xA0000000#32 := by
    apply BitVec.eq_of_getLsbD_eq
    intro i hi
    unfold commandWord
    simp only [BitVec.getLsbD_and, BitVec.getLsbD_append]
    interval_cases i <;> simp
  simpa using congrArg BitVec.toNat h

theorem entry_fixed (p q : Byte) (op : BodyOp) : (entryWord ⟨p, op, q⟩).toNat &&& 0x00FF00 = op.code.toNat * 256 := by
  have h : entryWord ⟨p, op, q⟩ &&& 0x00FF00#24 = op.code.setWidth 24 <<< 8 := by
    apply BitVec.eq_of_getLsbD_eq
    intro i hi
    unfold entryWord
    simp only [BitVec.getLsbD_and, BitVec.getLsbD_append, BitVec.getLsbD_shiftLeft, BitVec.getLsbD_setWidth]
    interval_cases i <;> simp
  have h2 := congrArg BitVec.toNat h
  cases op <;> simpa [BodyOp.code] using h2

theorem init (base len : Operand) : Statement (.init base len) := by
  show (commandWord 0x00 0 0 0).toNat &&& 0xFFFFFFFF = 0x00000000
  decide

theorem reseat (base len : Operand) : Statement (.reseat base len) := by
  show (commandWord 0x01 0 0 0).toNat &&& 0xFFFFFFFF = 0x08000000
  decide

theorem warmup : Statement (.warmup) := rfl

theorem avail : Statement (.avail) := rfl

theorem rembytes : Statement (.rembytes) := rfl

theorem fill (n : BitVec 6) : Statement (.fill n) := by revert n; unfold Statement; decide

theorem getu : Statement (.getu) := rfl

theorem get (n : BitVec 6) : Statement (.get n) := by revert n; unfold Statement; decide

theorem take (n : BitVec 6) : Statement (.take n) := by revert n; unfold Statement; decide

theorem read (n : BitVec 6) : Statement (.read n) := by revert n; unfold Statement; decide

theorem sread (n : BitVec 6) : Statement (.sread n) := by revert n; unfold Statement; decide

theorem sget (n : BitVec 6) : Statement (.sget n) := by revert n; unfold Statement; decide

theorem pull : Statement (.pull) := rfl

theorem drop (n : BitVec 6) : Statement (.drop n) := by revert n; unfold Statement; decide

theorem align : Statement (.align) := rfl

theorem copy (dest cnt : Operand) : Statement (.copy dest cnt) := by
  show (commandWord 0x0F 0 0 0).toNat &&& 0xFFFFFFFF = 0x78000000
  decide

theorem save : Statement (.save) := rfl

theorem restore : Statement (.restore) := rfl

theorem rdreg (n : BitVec 6) : Statement (.rdreg n) := by revert n; unfold Statement; decide

theorem ctx (mode : BitVec 6) (p1 p2 : Byte) : Statement (.ctx mode p1 p2) := ctx_fixed _ _ _

theorem xform (tid len : Byte) (word dest : Operand) : Statement (.xform tid len word dest) := xform_fixed _ _

theorem identity (p q : Byte) : Statement (.identity p q) := entry_fixed p q .identity

theorem omitLast1 (p q : Byte) : Statement (.omitLast1 p q) := entry_fixed p q .omitLast1

theorem omitLast2 (p q : Byte) : Statement (.omitLast2 p q) := entry_fixed p q .omitLast2

theorem omitLast3 (p q : Byte) : Statement (.omitLast3 p q) := entry_fixed p q .omitLast3

theorem omitLast4 (p q : Byte) : Statement (.omitLast4 p q) := entry_fixed p q .omitLast4

theorem omitLast5 (p q : Byte) : Statement (.omitLast5 p q) := entry_fixed p q .omitLast5

theorem omitLast6 (p q : Byte) : Statement (.omitLast6 p q) := entry_fixed p q .omitLast6

theorem omitLast7 (p q : Byte) : Statement (.omitLast7 p q) := entry_fixed p q .omitLast7

theorem omitLast8 (p q : Byte) : Statement (.omitLast8 p q) := entry_fixed p q .omitLast8

theorem omitLast9 (p q : Byte) : Statement (.omitLast9 p q) := entry_fixed p q .omitLast9

theorem uppercaseFirst (p q : Byte) : Statement (.uppercaseFirst p q) := entry_fixed p q .uppercaseFirst

theorem uppercaseAll (p q : Byte) : Statement (.uppercaseAll p q) := entry_fixed p q .uppercaseAll

theorem omitFirst1 (p q : Byte) : Statement (.omitFirst1 p q) := entry_fixed p q .omitFirst1

theorem omitFirst2 (p q : Byte) : Statement (.omitFirst2 p q) := entry_fixed p q .omitFirst2

theorem omitFirst3 (p q : Byte) : Statement (.omitFirst3 p q) := entry_fixed p q .omitFirst3

theorem omitFirst4 (p q : Byte) : Statement (.omitFirst4 p q) := entry_fixed p q .omitFirst4

theorem omitFirst5 (p q : Byte) : Statement (.omitFirst5 p q) := entry_fixed p q .omitFirst5

theorem omitFirst6 (p q : Byte) : Statement (.omitFirst6 p q) := entry_fixed p q .omitFirst6

theorem omitFirst7 (p q : Byte) : Statement (.omitFirst7 p q) := entry_fixed p q .omitFirst7

theorem omitFirst8 (p q : Byte) : Statement (.omitFirst8 p q) := entry_fixed p q .omitFirst8

theorem omitFirst9 (p q : Byte) : Statement (.omitFirst9 p q) := entry_fixed p q .omitFirst9

end Sys2Proof.Laws.FixedBits
end

