-- ==== Sys2Proof/Laws/Step.lean ====
section
/-!
SUPPORT. Everything a step can answer: one lemma for each kind of host event.
-/

namespace Sys2Proof.Machine.Laws

open Sys2Proof Sys2Proof.Machine

variable {s t : State}

/-- Everything the run of a packet can answer with a next state (R81, R86, R87, R92, R243). -/
theorem runPacket_next {p : Packet} (h : runPacket p s = .next t) :
    (∃ i, decode (units s.cfg) p = .ok i ∧ exec i (s.accept p) = .next t) ∨
    (∃ e, decode (units s.cfg) p = .error e ∧ t = rejectPacket p e (s.accept p)) := by
  unfold runPacket at h
  split at h
  next i hd => exact .inl ⟨i, hd, h⟩
  next e hd => exact .inr ⟨e, hd, by simpa using h.symm⟩

/-- A rejected packet is refused or raises the cause of its error (R86, R87, R243). -/
theorem rejectPacket_cases (p : Packet) (e : DecodeError) (s : State) :
    (s.fault = true ∧ passesLatch p = false ∧ rejectPacket p e s = refuse s) ∨
    ((s.fault = false ∨ passesLatch p = true) ∧ rejectPacket p e s = raise (rejectCause e) s) := by
  unfold rejectPacket
  cases hf : s.fault <;> cases hp : passesLatch p <;> simp

/-- Everything a host write can answer with a next state (R63). -/
theorem hostPut_next {sp : Space} {a : Nat} {b : Byte} (h : hostPut sp a b s = .next t) :
    a < spaceSize s.cfg ∧
    ((sp = .input ∧ t = { s with inMem := s.inMem.write a b }) ∨
     (sp = .output ∧ t = { s with outMem := s.outMem.write a b }) ∨
     (sp = .dict ∧ t = { s with dictMem := s.dictMem.write a b })) := by
  unfold hostPut at h
  split at h
  next => simp at h
  next hlt =>
    refine ⟨by omega, ?_⟩
    cases sp <;> simp_all

/-- Everything a step can answer with a next state (R9, R81, R253, R270). -/
theorem step_next (h : step s = .next t) :
    (s.host = [] ∧ t = s) ∨
    (∃ p rest, s.host = .command p :: rest ∧ runPacket p { s with host := rest } = .next t) ∨
    (∃ rest, s.host = .reset :: rest ∧ t = resetEvent { s with host := rest }) ∨
    (∃ p k rest u, s.host = .abort p k :: rest ∧ runPacket p { s with host := rest } = .next u ∧
      t = abandon p k { s with host := rest } u) ∨
    (∃ sp a b rest, s.host = .put sp a b :: rest ∧ hostPut sp a b { s with host := rest } = .next t) := by
  unfold step at h
  split at h
  next hh => exact .inl ⟨hh, by simpa using h.symm⟩
  next e rest hh =>
    cases e with
    | command p => exact .inr (.inl ⟨p, rest, hh, h⟩)
    | reset => exact .inr (.inr (.inl ⟨rest, hh, by simpa [runEvent] using h.symm⟩))
    | abort p k =>
      unfold runEvent at h
      dsimp only at h
      split at h
      next u hu => exact .inr (.inr (.inr (.inl ⟨p, k, rest, u, hh, hu, by simpa using h.symm⟩)))
      next => simp at h
      next => simp at h
    | put sp a b => exact .inr (.inr (.inr (.inr ⟨sp, a, b, rest, hh, h⟩)))

end Sys2Proof.Machine.Laws
end

