-- ==== Sys2Proof/Laws/Transform.lean ====
section
/-!
SUPPORT. The uppercase step of Machine/Transform.lean, an index into the body, is the step written along the list (R214, R215, R225); the
body of each operation is the one Safety.lean names (R204 to R224).
-/

namespace Sys2Proof.Machine.Laws

open Sys2Proof Sys2Proof.Machine

variable (c : Config)

/-- The uppercase step never moves back and keeps the length of the body. -/
theorem ucstep_length (b : List Byte) (i : Nat) : (ucstep c b i).1.length = b.length ∧ 1 ≤ (ucstep c b i).2 := by
  unfold ucstep
  split
  next => exact ⟨rfl, le_refl 1⟩
  next =>
    split
    next => split <;> simp
    next => split <;> split <;> simp

/-- The uppercase step along the list keeps the length of the body. -/
theorem upperText_length (b : List Byte) : (upperText c b).length = b.length := by
  fun_induction upperText c b <;> simp_all

/-- The uppercase step on the first character keeps the length of the body. -/
theorem upperHead_length (b : List Byte) : (upperHead c b).length = b.length := by
  unfold upperHead
  repeat' split
  all_goals simp_all

/-- `UPPERCASE_FIRST` is the step on the first character (R214). -/
theorem upperFirst_eq (b : List Byte) : upperFirst c b = upperHead c b := by
  cases b with
  | nil => rfl
  | cons v rest =>
    unfold upperFirst upperHead ucstep upperByte
    simp only [List.length_cons, Nat.zero_lt_succ, if_true, List.getElem?_cons_zero]
    by_cases h1 : v < c.ucT1
    · simp only [h1, if_true]; split <;> simp
    · simp only [h1, if_false]
      by_cases h2 : v < c.ucT2
      · simp only [h2, if_true]; cases rest <;> simp
      · simp only [h2, if_false]
        cases rest with
        | nil => simp
        | cons x r => cases r <;> simp

/-- A change behind `done` is a change of what follows it. -/
theorem modify_append (done b : List Byte) (k : Nat) (f : Byte → Byte) :
    (done ++ b).modify (done.length + k) f = done ++ b.modify k f := by
  induction done with
  | nil => simp
  | cons x r ih => simpa [Nat.add_right_comm] using ih

/-- One step at the first byte after `done`, by the class of that byte (R225). -/
theorem ucstep_append (done : List Byte) (v : Byte) (rest : List Byte) :
    ucstep c (done ++ v :: rest) done.length =
      if v < c.ucT1 then (done ++ upperByte c v :: rest, 1)
      else if v < c.ucT2 then (done ++ v :: rest.modify 0 (· ^^^ c.ucX12), 2)
      else (done ++ v :: rest.modify 1 (· ^^^ c.ucX3), 3) := by
  have hv : (done ++ v :: rest)[done.length]? = some v := by simp
  unfold ucstep upperByte
  rw [hv]
  simp only [List.length_append, List.length_cons]
  by_cases h1 : v < c.ucT1
  · by_cases h2 : c.ucLo ≤ v ∧ v ≤ c.ucHi <;> simp [h1, h2]
  · by_cases h2 : v < c.ucT2
    · cases rest <;> simp [h1, h2, modify_append]
    · match rest with
      | [] => simp [h1, h2]
      | [x] => simp [h1, h2]
      | x :: y :: r => simp [h1, h2, modify_append]

/-- Past the end of the body the loop stops. -/
theorem upperLoop_end (fuel i : Nat) (b : List Byte) (h : b.length ≤ i) : upperLoop c fuel i b = b := by
  cases fuel with
  | zero => rfl
  | succ fuel => rw [upperLoop, if_neg (by omega)]

/-- The loop of `UPPERCASE_ALL`, from the index where `done` ends on, is the step along the list there (R215). -/
theorem upperLoop_eq (fuel : Nat) (done b : List Byte) (h : b.length ≤ fuel) :
    upperLoop c fuel done.length (done ++ b) = done ++ upperText c b := by
  induction fuel generalizing done b with
  | zero =>
    rw [List.length_eq_zero_iff.mp (Nat.le_zero.mp h)]
    simp [upperLoop, upperText]
  | succ fuel ih =>
    match b with
    | [] => rw [upperLoop_end c _ _ _ (by simp)]; simp [upperText]
    | v :: rest =>
      rw [upperLoop, if_pos (by simp), ucstep_append]
      by_cases h1 : v < c.ucT1
      · have e := ih (done ++ [upperByte c v]) rest (by simpa using h)
        match rest with
        | [] | [x] | x :: y :: r => simp_all [upperText]
      · by_cases h2 : v < c.ucT2
        · match rest with
          | [] => rw [if_neg h1, if_pos h2, upperLoop_end c _ _ _ (by simp)]; simp [upperText, h1]
          | [x] => rw [if_neg h1, if_pos h2, upperLoop_end c _ _ _ (by simp)]; simp [upperText, h1, h2]
          | x :: y :: r =>
            have e := ih (done ++ [v, x ^^^ c.ucX12]) (y :: r) (by simp at h ⊢; omega)
            rw [if_neg h1, if_pos h2, upperText, if_neg h1, if_pos h2]
            simpa using e
        · match rest with
          | [] => rw [if_neg h1, if_neg h2, upperLoop_end c _ _ _ (by simp)]; simp [upperText, h1]
          | [x] => rw [if_neg h1, if_neg h2, upperLoop_end c _ _ _ (by simp)]; simp [upperText, h1, h2]
          | x :: y :: r =>
            have e := ih (done ++ [v, x, y ^^^ c.ucX3]) r (by simp at h ⊢; omega)
            rw [if_neg h1, if_neg h2, upperText, if_neg h1, if_neg h2]
            simpa using e

/-- `UPPERCASE_ALL` is the step along the whole body (R215). -/
theorem upperAll_eq (b : List Byte) : upperAll c b = upperText c b := by
  simpa [upperAll] using upperLoop_eq c b.length [] b (le_refl _)

/-- No operation lengthens the body, and those that keep the whole word keep its length (R226). -/
theorem bodyText_length (op : BodyOp) (word : List Byte) : (bodyText c op word).length ≤ word.length := by
  cases op <;> simp [bodyText, upperText_length, upperHead_length]

end Sys2Proof.Machine.Laws
end

