-- ==== Sys2Proof/Machine/Assembly.lean ====
section
/-!
DEFINITION. The host toolchain's text form, written and read (spec/30_encoding.md R94), and the pseudo-commands (R95). The block decodes
none of it.
-/

namespace Sys2Proof.Machine

/-- A mnemonic with its operands, in decimal, separated by commas (R94). -/
def textLine (mnemonic : String) (operands : List Nat) : String :=
  match operands with
  | [] => mnemonic
  | _ => mnemonic ++ " " ++ String.intercalate ", " (operands.map toString)

/-- A command in the text form of R94; nothing for a transform-table entry, which is no command. -/
def commandText : Instr → Option String
  | .init base len => some (textLine "INIT" [base.toNat, len.toNat])
  | .reseat base len => some (textLine "RESEAT" [base.toNat, len.toNat])
  | .warmup => some (textLine "WARMUP" [])
  | .avail => some (textLine "AVAIL" [])
  | .rembytes => some (textLine "REMBYTES" [])
  | .fill n => some (textLine "FILL" [n.toNat])
  | .getu => some (textLine "GETU" [])
  | .get n => some (textLine "GET" [n.toNat])
  | .take n => some (textLine "TAKE" [n.toNat])
  | .read n => some (textLine "READ" [n.toNat])
  | .sread n => some (textLine "SREAD" [n.toNat])
  | .sget n => some (textLine "SGET" [n.toNat])
  | .pull => some (textLine "PULL" [])
  | .drop n => some (textLine "DROP" [n.toNat])
  | .align => some (textLine "ALIGN" [])
  | .copy dest cnt => some (textLine "COPY" [dest.toNat, cnt.toNat])
  | .save => some (textLine "SAVE" [])
  | .restore => some (textLine "RESTORE" [])
  | .rdreg sel => some (textLine "RDREG" [sel.toNat])
  | .ctx mode p1 p2 => some (textLine "CTX" [mode.toNat, p1.toNat, p2.toNat])
  | .xform tid len word dest => some (textLine "XFORM" [tid.toNat, word.toNat, len.toNat, dest.toNat])
  | .identity _ _ | .omitLast1 _ _ | .omitLast2 _ _ | .omitLast3 _ _ | .omitLast4 _ _ | .omitLast5 _ _ | .omitLast6 _ _
  | .omitLast7 _ _ | .omitLast8 _ _ | .omitLast9 _ _ | .uppercaseFirst _ _ | .uppercaseAll _ _ | .omitFirst1 _ _ | .omitFirst2 _ _
  | .omitFirst3 _ _ | .omitFirst4 _ _ | .omitFirst5 _ _ | .omitFirst6 _ _ | .omitFirst7 _ _ | .omitFirst8 _ _ | .omitFirst9 _ _ =>
    none

/-- A response in the text form of R94: `-> STATUS value`, the value in decimal. -/
def responseText (r : Response) : String :=
  let name :=
    match r.status with
    | .ok => "OK"
    | .noData => "NODATA"
    | .badPad => "BADPAD"
    | .fault => "FAULT"
  "-> " ++ name ++ " " ++ toString r.value.toNat

/-! ### Reading the text form -/

/-- The digits of a number in a base, most significant first; nothing when one is no digit of the base or there is none. -/
def readDigits (base : Nat) (digits : List Char) : Option Nat :=
  let digit (c : Char) : Option Nat :=
    let v :=
      if '0' ≤ c ∧ c ≤ '9' then c.toNat - '0'.toNat
      else if 'a' ≤ c ∧ c ≤ 'f' then 10 + (c.toNat - 'a'.toNat)
      else if 'A' ≤ c ∧ c ≤ 'F' then 10 + (c.toNat - 'A'.toNat)
      else base
    if v < base then some v else none
  match digits with
  | [] => none
  | _ => digits.foldl (fun acc c => acc.bind (fun a => (digit c).map (fun d => base * a + d))) (some 0)

/-- A name of R94: a register of `RDREG` or a mode of `CTX`. -/
def readName (mnemonic name : String) : Option Nat :=
  if mnemonic = "RDREG" then
    ["ACC", "BITPOS", "CURSOR", "REMAINING", "STATUS", "CK_ACC", "CK_BITPOS", "CK_CURSOR", "CK_REMAINING"].idxOf? name
  else if mnemonic = "CTX" then ["LSB6", "MSB6", "UTF8", "SIGNED"].idxOf? name
  else none

/-- A number: decimal, or hexadecimal with `0x` (R94). -/
def readNumber (text : List Char) : Option Nat :=
  match text with
  | '0' :: 'x' :: digits => readDigits 16 digits
  | _ => readDigits 10 text

/-- The first operand: a number, or a name where R94 allows one, which it does only for `r` of `RDREG` and `mode` of `CTX`. -/
def readFirst (mnemonic : String) (text : List Char) : Option Nat :=
  match readNumber text with
  | some v => some v
  | none => readName mnemonic (String.ofList text)

/-- The operands of a mnemonic in order (R94); nothing where one does not read. A name in a later position reads as nothing, as does
every other line that R94 does not spell (DESIGN CHOICE, log 17). -/
def readOperands (mnemonic : String) (operands : List (List Char)) : Option (List Nat) :=
  match operands with
  | [] => some []
  | first :: rest =>
    match readFirst mnemonic first, rest.mapM readNumber with
    | some v, some vs => some (v :: vs)
    | _, _ => none

/-- A text without the spaces before and after it. -/
def trimSpaces (text : List Char) : List Char := ((text.dropWhile (· == ' ')).reverse.dropWhile (· == ' ')).reverse

/-- A line without its comment, cut into its mnemonic and its operands, without the spaces around each (R94; where spaces may stand:
DESIGN CHOICE, log 17). -/
def cutLine (line : String) : List Char × List (List Char) :=
  let text := trimSpaces (line.toList.takeWhile (· != ';'))
  let rest := trimSpaces (text.dropWhile (· != ' '))
  (text.takeWhile (· != ' '), if rest.isEmpty then [] else (rest.splitOn ',').map trimSpaces)

/-- The command that a mnemonic and its operands spell (R94); nothing where an operand does not fit its field. `RDREG` with a number 9 to
63, which the block answers with a fault (R88), is spelled (DESIGN CHOICE, log 17). -/
def spelled (mnemonic : String) (operands : List Nat) : Option Instr :=
  let field (v : Nat) : Option (BitVec 6) := if v < 64 then some (BitVec.ofNat 6 v) else none
  let byte (v : Nat) : Option Byte := if v < 256 then some (BitVec.ofNat 8 v) else none
  let address (v : Nat) : Option Operand := if v < 2 ^ 32 then some (BitVec.ofNat 32 v) else none
  match operands with
  | [] =>
    match mnemonic with
    | "WARMUP" => some .warmup
    | "AVAIL" => some .avail
    | "REMBYTES" => some .rembytes
    | "GETU" => some .getu
    | "PULL" => some .pull
    | "ALIGN" => some .align
    | "SAVE" => some .save
    | "RESTORE" => some .restore
    | _ => none
  | [n] =>
    match mnemonic with
    | "FILL" => (field n).map .fill
    | "GET" => (field n).map .get
    | "TAKE" => (field n).map .take
    | "READ" => (field n).map .read
    | "SREAD" => (field n).map .sread
    | "SGET" => (field n).map .sget
    | "DROP" => (field n).map .drop
    | "RDREG" => (field n).map .rdreg
    | _ => none
  | [a, b] =>
    match mnemonic, address a, address b with
    | "INIT", some base, some len => some (.init base len)
    | "RESEAT", some base, some len => some (.reseat base len)
    | "COPY", some dest, some cnt => some (.copy dest cnt)
    | _, _, _ => none
  | [mode, p1, p2] =>
    match mnemonic, field mode, byte p1, byte p2 with
    | "CTX", some m, some b, some c => some (.ctx m b c)
    | _, _, _, _ => none
  | [tid, word, len, dest] =>
    match mnemonic, byte tid, address word, byte len, address dest with
    | "XFORM", some t, some w, some l, some d => some (.xform t l w d)
    | _, _, _, _, _ => none
  | _ => none

/-- The command that a line of text spells (R94); nothing for a line that spells none. -/
def commandOfText (line : String) : Option Instr :=
  let cut := cutLine line
  let mnemonic := String.ofList cut.1
  match readOperands mnemonic cut.2 with
  | some operands => spelled mnemonic operands
  | none => none

/-! ### Pseudo-commands -/

/-- `PEEK n` (R95). -/
def peekPseudo (n : BitVec 6) : List Instr := [.get n]

/-- `SKIP n` (R95). -/
def skipPseudo (n : BitVec 6) : List Instr := [.drop n]

/-- The two reads that `APPEND k` begins with: `CURSOR`, then `REMAINING` (R95). -/
def appendReads : List Instr := [.rdreg 2, .rdreg 3]

/-- The command that `APPEND k` ends with, from the values `c` and `r` that the reads answered (R95, R111). DESIGN CHOICE (log 18): where
`c` or `r + k` does not fit the 32 bits of an operand the spec does not say what the host presents; no packet carries it, so there is no
command. -/
def appendCommand (c r : Value) (k : Nat) : Option Instr :=
  if c.toNat < 2 ^ 32 ∧ r.toNat + k < 2 ^ 32 then some (.reseat (BitVec.ofNat 32 c.toNat) (BitVec.ofNat 32 (r.toNat + k)))
  else none

/-- The commands that `TRY n` begins with (R95). -/
def tryReads (n : BitVec 6) : List Instr := [.save, .sread n]

/-- What the host issues after the `SREAD` of `TRY n`: `RESTORE` on `NODATA`, nothing else (R95). -/
def tryAfter (r : Response) : List Instr := if r.status = .noData then [.restore] else []

end Sys2Proof.Machine
end

