-- ==== Sys2Proof/Tests/Slice0.lean ====
section
/-!
SUPPORT. Tests. Expected values come from spec/ (the examples of the rules and spec/95_test_vectors.md), or by hand from the rule named.
The witnesses at the end show, for each statement with hypotheses, a concrete state and operands that meet them.
-/

namespace Sys2Proof.Tests

open Sys2Proof Sys2Proof.Machine

/-! ### Small states -/

/-- A configuration with `AW = 16` and the sample pool of 95_test_vectors.md V9. The sample table has the entries of `" the "`, of `"The"`, one
with the reserved operation 21, and one whose suffix offset 6 is past the pool. -/
def config (w : AccWidth) (ctx xform : Bool) : Config where
  w := w
  aw := 16
  hasCtx := ctx
  hasXform := xform
  ctxLut := tabulate 512 (fun i => BitVec.ofNat 6 i)
  sgnLut := tabulate 256 (fun i => BitVec.ofNat 3 (i / 32))
  xt := [0x000000, 0x010001, 0x000A00, 0x001500, 0x000006]
  pool := [0x00, 0x20, 0x00, 0x2C, 0x20, 0x00]
  ucT1 := 0xC0
  ucT2 := 0xE0
  ucX12 := 0x20
  ucX3 := 0x05
  ucLo := 0x61
  ucHi := 0x7A

/-- The sample input of 95_test_vectors.md, at `IN[0..11]`. -/
def sampleIn : Memory :=
  [(0, 0xB5), (1, 0x3C), (2, 0xF0), (3, 0x0F), (4, 0xA7), (5, 0x01), (6, 0x80), (7, 0xFF), (8, 0x12), (9, 0x34), (10, 0x56), (11, 0x78)]

/-- The word "the" at `DICT[0x10..0x12]`, and a 7-byte word with 1-, 2- and 3-byte characters at `DICT[0x20..0x26]` (R215). -/
def sampleDict : Memory :=
  [(0x10, 0x74), (0x11, 0x68), (0x12, 0x65), (0x20, 0x61), (0x21, 0xC3), (0x22, 0xA9), (0x23, 0xE2), (0x24, 0x82), (0x25, 0xAC), (0x26, 0x7A)]

/-- A state with given stream registers, no checkpoint and no fault. -/
def at_ (w : AccWidth) (acc : BitVec 64) (bitPos cursor remaining : Nat) : State :=
  { State.resetWith (config w true true) sampleIn [] sampleDict [] with strm := ⟨acc, bitPos, cursor, remaining⟩ }

/-- The state with a fault latched. -/
def latched (s : State) : State := { s with fault := true, faultCause := 3 }

/-- The state with `XFORM` operands on the command port: word address, length, destination. -/
def withWord (s : State) (word : Operand) (len : Byte) (dest : Operand) : State :=
  { s with port := ⟨0xA0000000 ||| (len.setWidth 32 <<< 16), word, dest⟩ }

/-- The response and the stream registers after a step. -/
def after : Result → Option (Option Response × Stream)
  | .next t => some (t.resp, t.strm)
  | .fault _ => none
  | .refused _ => none

/-- The response and the first bytes of `OUT` from an address after a step. -/
def written (a k : Nat) : Result → Option (Option Response × List Byte)
  | .next t => some (t.resp, t.outMem.readBytes a k)
  | .fault _ => none
  | .refused _ => none

/-- The flags after a step: `ckValid`, `fault`, `faultCause`. -/
def flags : Result → Option (Bool × Bool × BitVec 4)
  | .next t => some (t.ckValid, t.fault, t.faultCause)
  | .fault _ => none
  | .refused _ => none

/-- A step answers a next state. -/
def completes : Result → Bool
  | .next _ => true
  | .fault _ => false
  | .refused _ => false

/-- The window after `INIT 0, 12`: empty, 12 bytes to come. -/
def fresh : State := at_ .w64 0 64 0 12

/-- The state of 95_test_vectors.md V1 after step 19: one byte staged, 4 bytes to come. -/
def v1s19 : State := at_ .w64 0xFF8001A70FF03CB5 56 8 4


/-! ### Well-formedness: each check refuses an ill-formed term -/

theorem test_wf_ctx_unit_absent : Instr.wellFormed (config .w64 false true) (.ctx 0 1 2) = false := by decide

theorem test_wf_xform_unit_absent : Instr.wellFormed (config .w64 true false) (.xform 0 0 0 0) = false := by decide

theorem test_wf_entry_unit_absent : Instr.wellFormed (config .w64 true false) (.identity 0 0) = false := by decide

theorem test_wf_get_above_ndir : Instr.wellFormed (config .w32 true true) (.get 25) = false ∧ Instr.wellFormed (config .w32 true true) (.get 24) = true ∧
    Instr.wellFormed (config .w64 true true) (.get 33) = false ∧ Instr.wellFormed (config .w64 true true) (.get 32) = true := by decide

theorem test_wf_fill_above_ndir : Instr.wellFormed (config .w32 true true) (.fill 25) = false := by decide

theorem test_wf_take_above_ndir : Instr.wellFormed (config .w32 true true) (.take 25) = false := by decide

theorem test_wf_sread_above_ndir : Instr.wellFormed (config .w32 true true) (.sread 25) = false := by decide

theorem test_wf_sget_above_ndir : Instr.wellFormed (config .w32 true true) (.sget 25) = false := by decide

theorem test_wf_read_above_32 : Instr.wellFormed (config .w32 true true) (.read 33) = false ∧ Instr.wellFormed (config .w32 true true) (.read 32) = true := by decide

theorem test_wf_drop_above_32 : Instr.wellFormed (config .w64 true true) (.drop 33) = false := by decide

theorem test_wf_rdreg_above_8 : Instr.wellFormed (config .w64 true true) (.rdreg 9) = false ∧ Instr.wellFormed (config .w64 true true) (.rdreg 8) = true := by decide

theorem test_wf_init_range : Instr.wellFormed (config .w64 true true) (.init 0xFFFF 1) = false ∧ Instr.wellFormed (config .w64 true true) (.init 0xFFFE 1) = true := by decide

theorem test_wf_reseat_range : Instr.wellFormed (config .w64 true true) (.reseat 0x10000 0) = false := by decide

theorem test_wf_copy_range : Instr.wellFormed (config .w64 true true) (.copy 1 0xFFFF) = false := by decide

theorem test_wf_xform_word_range : Instr.wellFormed (config .w64 true true) (.xform 0 1 0xFFFF 0) = false := by decide

theorem test_wf_fragment_past_pool : Instr.wellFormed (config .w64 true true) (.identity 0 6) = false ∧ Instr.wellFormed (config .w64 true true) (.identity 1 3) = true := by decide

/-! ### Decoding: a word written out for every row (R85, R94, R201; the command words of 95_test_vectors.md V1, V8, V9) -/

theorem test_decode_init : decodeTableWord 32 0x00000000 = some (.init 0 0) := by decide

theorem test_decode_reseat : decodeTableWord 32 0x08000000 = some (.reseat 0 0) := by decide

theorem test_decode_warmup : decodeTableWord 32 0x10000000 = some (.warmup) := by decide

theorem test_decode_avail : decodeTableWord 32 0x18000000 = some (.avail) := by decide

theorem test_decode_rembytes : decodeTableWord 32 0x20000000 = some (.rembytes) := by decide

theorem test_decode_fill : decodeTableWord 32 0x28000018 = some (.fill 24) := by decide

theorem test_decode_getu : decodeTableWord 32 0x30000000 = some (.getu) := by decide

theorem test_decode_get : decodeTableWord 32 0x38000003 = some (.get 3) := by decide

theorem test_decode_take : decodeTableWord 32 0x40000005 = some (.take 5) := by decide

theorem test_decode_read : decodeTableWord 32 0x48000020 = some (.read 32) := by decide

theorem test_decode_sread : decodeTableWord 32 0x50000014 = some (.sread 20) := by decide

theorem test_decode_sget : decodeTableWord 32 0x58000018 = some (.sget 24) := by decide

theorem test_decode_pull : decodeTableWord 32 0x60000000 = some (.pull) := by decide

theorem test_decode_drop : decodeTableWord 32 0x68000004 = some (.drop 4) := by decide

theorem test_decode_align : decodeTableWord 32 0x70000000 = some (.align) := by decide

theorem test_decode_copy : decodeTableWord 32 0x78000000 = some (.copy 0 0) := by decide

theorem test_decode_save : decodeTableWord 32 0x80000000 = some (.save) := by decide

theorem test_decode_restore : decodeTableWord 32 0x88000000 = some (.restore) := by decide

theorem test_decode_rdreg : decodeTableWord 32 0x90000008 = some (.rdreg 8) := by decide

theorem test_decode_ctx : decodeTableWord 32 0x9807E501 = some (.ctx 1 0xE5 7) := by decide

theorem test_decode_xform : decodeTableWord 32 0xA0030100 = some (.xform 1 3 0 0) := by decide

theorem test_decode_identity : decodeTableWord 24 0x010005 = some (.identity 1 5) := by decide

theorem test_decode_omitLast1 : decodeTableWord 24 0x010105 = some (.omitLast1 1 5) := by decide

theorem test_decode_omitLast2 : decodeTableWord 24 0x010205 = some (.omitLast2 1 5) := by decide

theorem test_decode_omitLast3 : decodeTableWord 24 0x010305 = some (.omitLast3 1 5) := by decide

theorem test_decode_omitLast4 : decodeTableWord 24 0x010405 = some (.omitLast4 1 5) := by decide

theorem test_decode_omitLast5 : decodeTableWord 24 0x010505 = some (.omitLast5 1 5) := by decide

theorem test_decode_omitLast6 : decodeTableWord 24 0x010605 = some (.omitLast6 1 5) := by decide

theorem test_decode_omitLast7 : decodeTableWord 24 0x010705 = some (.omitLast7 1 5) := by decide

theorem test_decode_omitLast8 : decodeTableWord 24 0x010805 = some (.omitLast8 1 5) := by decide

theorem test_decode_omitLast9 : decodeTableWord 24 0x010905 = some (.omitLast9 1 5) := by decide

theorem test_decode_uppercaseFirst : decodeTableWord 24 0x010A05 = some (.uppercaseFirst 1 5) := by decide

theorem test_decode_uppercaseAll : decodeTableWord 24 0x010B05 = some (.uppercaseAll 1 5) := by decide

theorem test_decode_omitFirst1 : decodeTableWord 24 0x010C05 = some (.omitFirst1 1 5) := by decide

theorem test_decode_omitFirst2 : decodeTableWord 24 0x010D05 = some (.omitFirst2 1 5) := by decide

theorem test_decode_omitFirst3 : decodeTableWord 24 0x010E05 = some (.omitFirst3 1 5) := by decide

theorem test_decode_omitFirst4 : decodeTableWord 24 0x010F05 = some (.omitFirst4 1 5) := by decide

theorem test_decode_omitFirst5 : decodeTableWord 24 0x011005 = some (.omitFirst5 1 5) := by decide

theorem test_decode_omitFirst6 : decodeTableWord 24 0x011105 = some (.omitFirst6 1 5) := by decide

theorem test_decode_omitFirst7 : decodeTableWord 24 0x011205 = some (.omitFirst7 1 5) := by decide

theorem test_decode_omitFirst8 : decodeTableWord 24 0x011305 = some (.omitFirst8 1 5) := by decide

theorem test_decode_omitFirst9 : decodeTableWord 24 0x011405 = some (.omitFirst9 1 5) := by decide

theorem test_decode_operands_of_init : decode .all ⟨0, 0x100, 12⟩ = .ok (.init 0x100 12) := by decide

theorem test_decode_operands_of_xform : decode .all ⟨0xA0030100, 0x10, 0x80⟩ = .ok (.xform 1 3 0x10 0x80) := by decide

theorem test_decode_reserved_opcodes : decodeTableWord 32 0xA8000000 = none ∧ decodeTableWord 32 0xF8000000 = none ∧ decodeTableWord 24 0x001500 = none := by decide

theorem test_decode_absent_unit : decode ⟨false, true⟩ ⟨0x98000000, 0, 0⟩ = .error .reservedOpcode := by decide

theorem test_decode_must_be_zero : decodeTableWord 32 0x18000001 = none ∧ decodeTableWord 32 0x38000043 = none ∧ decodeTableWord 32 0x39000003 = none ∧
    decodeTableWord 24 0x002000 = none := by decide

/-! ### One step of each command -/

/-- R110. -/
theorem test_init : after (exec (.init 0x100 12) (latched v1s19)) =
    some (some ⟨.ok, 0⟩, ⟨0, 64, 0x100, 12⟩) := by decide

/-- R110, R243: the earlier cause is kept. -/
theorem test_init_out_of_range : after (exec (.init 0xFFFF 1) fresh) = some (some ⟨.fault, 2⟩, ⟨0, 64, 0, 12⟩) ∧
    flags (exec (.init 0xFFFF 1) (latched fresh)) = some (false, true, 3) := by decide

/-- R111. -/
theorem test_reseat : after (exec (.reseat 0x200 3) (at_ .w64 0x78563412FF8001A7 44 12 0)) =
    some (some ⟨.ok, 0⟩, ⟨0x78563412FF8001A7, 44, 0x200, 3⟩) := by decide

/-- R111. -/
theorem test_reseat_clears_checkpoint : flags (exec (.reseat 0 0) { fresh with ckValid := true }) = some (false, false, 0) := by decide

/-- R112. -/
theorem test_warmup : after (exec (.warmup) (fresh)) =
    some (some ⟨.ok, 0⟩, ⟨0xB500000000000000, 56, 1, 11⟩) := by decide

/-- R112. -/
theorem test_warmup_no_input : after (exec (.warmup) (at_ .w64 0 64 5 0)) =
    some (some ⟨.noData, 0⟩, ⟨0, 64, 5, 0⟩) := by decide

/-- R113. -/
theorem test_avail : after (exec (.avail) (at_ .w64 0xB500000000000000 56 1 11)) =
    some (some ⟨.ok, 8⟩, ⟨0xB500000000000000, 56, 1, 11⟩) := by decide

/-- R114. -/
theorem test_rembytes : after (exec (.rembytes) (at_ .w64 0x01A70FF03CB50000 40 6 6)) =
    some (some ⟨.ok, 9⟩, ⟨0x01A70FF03CB50000, 40, 6, 6⟩) := by decide

/-- R131. -/
theorem test_fill_w64 : after (exec (.fill 24) (at_ .w64 0xF03CB50000000000 60 3 9)) =
    some (some ⟨.ok, 0⟩, ⟨0x01A70FF03CB50000, 36, 6, 6⟩) := by decide

/-- R131. -/
theorem test_fill_w32 : after (exec (.fill 24) (at_ .w32 0xF03CB500 28 3 9)) =
    some (some ⟨.ok, 0⟩, ⟨0x01A70FF0, 4, 6, 6⟩) := by decide

/-- R132. -/
theorem test_getu : after (exec (.getu) (at_ .w64 0x01A70FF03CB50000 36 6 6)) =
    some (some ⟨.ok, 0x1A70FF⟩, ⟨0x01A70FF03CB50000, 36, 6, 6⟩) := by decide

/-- R11, R132: a shift by the full width. -/
theorem test_getu_empty : after (exec (.getu) (at_ .w64 0x01A70FF03CB50000 64 6 6)) =
    some (some ⟨.ok, 0⟩, ⟨0x01A70FF03CB50000, 64, 6, 6⟩) := by decide

/-- R133. -/
theorem test_get : after (exec (.get 3) (at_ .w64 0xB500000000000000 56 1 11)) =
    some (some ⟨.ok, 5⟩, ⟨0xB500000000000000, 56, 1, 11⟩) := by decide

/-- R133, R241. -/
theorem test_get_underrun : after (exec (.get 24) (at_ .w64 0x78563412FF8001A7 44 12 0)) =
    some (some ⟨.fault, 3⟩, ⟨0x78563412FF8001A7, 44, 12, 0⟩) := by decide

/-- R134. -/
theorem test_take : after (exec (.take 5) (at_ .w64 0xB500000000000000 59 1 11)) =
    some (some ⟨.ok, 0x16⟩, ⟨0x3CB5000000000000, 56, 2, 10⟩) := by decide

/-- R134, by hand: all of the stream, with `n + 1` bits not to be had. -/
theorem test_take_empties_window : after (exec (.take 7) (at_ .w64 0xFF8001A70FF03CB5 57 12 0)) =
    some (some ⟨.ok, 0x7F⟩, ⟨0xFF8001A70FF03CB5, 64, 12, 0⟩) := by decide

/-- R135. -/
theorem test_read_w64 : after (exec (.read 32) (at_ .w64 0x01A70FF03CB50000 40 6 6)) =
    some (some ⟨.ok, 0x8001A70F⟩, ⟨0xFF8001A70FF03CB5, 56, 8, 4⟩) := by decide

/-- R135. -/
theorem test_read_w32_splits : after (exec (.read 32) (at_ .w32 0x01A70FF0 8 6 6)) =
    some (some ⟨.ok, 0x8001A70F⟩, ⟨0xFF8001A7, 24, 8, 4⟩) := by decide

/-- R150. -/
theorem test_sread : after (exec (.sread 20) (v1s19)) =
    some (some ⟨.ok, 0x412FF⟩, ⟨0x3412FF8001A70FF0, 60, 10, 2⟩) := by decide

/-- R150. -/
theorem test_sread_no_data : after (exec (.sread 24) (at_ .w64 0x3412FF8001A70FF0 60 10 2)) =
    some (some ⟨.noData, 0⟩, ⟨0x78563412FF8001A7, 44, 12, 0⟩) := by decide

/-- R151. -/
theorem test_sget : after (exec (.sget 8) (at_ .w64 0xB500000000000000 56 1 11)) =
    some (some ⟨.ok, 0xB5⟩, ⟨0xB500000000000000, 56, 1, 11⟩) := by decide

/-- R151. -/
theorem test_sget_no_data : after (exec (.sget 24) (at_ .w64 0x3412FF8001A70FF0 60 10 2)) =
    some (some ⟨.noData, 0⟩, ⟨0x78563412FF8001A7, 44, 12, 0⟩) := by decide

/-- R152. -/
theorem test_pull : after (exec (.pull) (fresh)) =
    some (some ⟨.ok, 0⟩, ⟨0xB500000000000000, 56, 1, 11⟩) := by decide

/-- R152. -/
theorem test_pull_no_room : after (exec (.pull) (at_ .w32 0x01A70FF0 4 6 6)) =
    some (some ⟨.fault, 4⟩, ⟨0x01A70FF0, 4, 6, 6⟩) := by decide

/-- R153. -/
theorem test_drop : after (exec (.drop 4) (at_ .w64 0x01A70FF03CB50000 36 6 6)) =
    some (some ⟨.ok, 0⟩, ⟨0x01A70FF03CB50000, 40, 6, 6⟩) := by decide

/-- R153: the window, not the stream, bounds it. -/
theorem test_drop_underrun : after (exec (.drop 1) (fresh)) =
    some (some ⟨.fault, 3⟩, ⟨0, 64, 0, 12⟩) := by decide

/-- R170. -/
theorem test_align_bad_padding : after (exec (.align) (at_ .w64 0xB500000000000000 59 1 11)) =
    some (some ⟨.badPad, 0⟩, ⟨0xB500000000000000, 64, 1, 11⟩) := by decide

/-- R170. -/
theorem test_align : after (exec (.align) (at_ .w64 0x0500000000000000 59 1 11)) =
    some (some ⟨.ok, 0⟩, ⟨0x0500000000000000, 64, 1, 11⟩) := by decide

/-- R171; the byte after the copy is untouched. -/
theorem test_copy : after (exec (.copy 0x40 3) v1s19) = some (some ⟨.ok, 0⟩, ⟨0xFF8001A70FF03CB5, 64, 10, 2⟩) ∧
    written 0x40 4 (exec (.copy 0x40 3) v1s19) = some (some ⟨.ok, 0⟩, [0xFF, 0x12, 0x34, 0]) := by decide

/-- R171: 5 bytes remain. -/
theorem test_copy_range : after (exec (.copy 0x40 6) (v1s19)) =
    some (some ⟨.fault, 5⟩, ⟨0xFF8001A70FF03CB5, 56, 8, 4⟩) := by decide

/-- R172. -/
theorem test_save : flags (exec .save v1s19) = some (true, false, 0) := by decide

/-- R173. -/
theorem test_restore : after (exec .restore { fresh with ck := v1s19.strm, ckValid := true }) =
    some (some ⟨.ok, 0⟩, ⟨0xFF8001A70FF03CB5, 56, 8, 4⟩) := by decide

/-- R173. -/
theorem test_restore_no_checkpoint : after (exec (.restore) (fresh)) =
    some (some ⟨.fault, 6⟩, ⟨0, 64, 0, 12⟩) := by decide

/-- R115. -/
theorem test_rdreg_bitpos : after (exec (.rdreg 1) (v1s19)) =
    some (some ⟨.ok, 56⟩, ⟨0xFF8001A70FF03CB5, 56, 8, 4⟩) := by decide

/-- R33, R243, by hand: cause 3, `ckValid`, `fault`. -/
theorem test_rdreg_status_while_latched : after (exec (.rdreg 4) (latched { v1s19 with ckValid := true })) =
    some (some ⟨.ok, 0x33⟩, ⟨0xFF8001A70FF03CB5, 56, 8, 4⟩) := by decide

/-- R190. -/
theorem test_ctx_lsb6 : after (exec (.ctx 0 0xE5 0x00) (fresh)) =
    some (some ⟨.ok, 0x25⟩, ⟨0, 64, 0, 12⟩) := by decide

/-- R194, by hand with buckets of 32 values: `{7, 2}`. -/
theorem test_ctx_signed : after (exec (.ctx 3 0xE5 0x41) (fresh)) =
    some (some ⟨.ok, 0x3A⟩, ⟨0, 64, 0, 12⟩) := by decide

/-- R200: `" the "`. -/
theorem test_xform : written 0x80 6 (exec (.xform 1 3 0x10 0x80) fresh) =
    some (some ⟨.ok, 5⟩, [0x20, 0x74, 0x68, 0x65, 0x20, 0]) := by decide

/-- R200: `tid >= NT`. -/
theorem test_xform_range : after (exec (.xform 5 3 0x10 0x80) fresh) = some (some ⟨.fault, 7⟩, ⟨0, 64, 0, 12⟩) := by decide

/-! ### One step of each table entry (the examples of R204 to R224 and of 95_test_vectors.md S6, V9) -/

/-- R200, R204: prefix `" "`, suffix `", "`. -/
theorem test_entry_identity : written 0x80 7 (exec (.identity 1 3) (withWord fresh 0x10 3 0x80)) =
    some (some ⟨.ok, 6⟩, [0x20, 0x74, 0x68, 0x65, 0x2C, 0x20, 0]) := by decide

/-- R205. -/
theorem test_entry_omitLast1 : written 0x80 3 (exec (.omitLast1 0 0) (withWord fresh 0x10 3 0x80)) =
    some (some ⟨.ok, 2⟩, [0x74, 0x68, 0]) := by decide

/-- R206. -/
theorem test_entry_omitLast2 : written 0x80 2 (exec (.omitLast2 0 0) (withWord fresh 0x10 3 0x80)) =
    some (some ⟨.ok, 1⟩, [0x74, 0]) := by decide

/-- R207. -/
theorem test_entry_omitLast3 : written 0x80 1 (exec (.omitLast3 0 0) (withWord fresh 0x10 3 0x80)) =
    some (some ⟨.ok, 0⟩, [0]) := by decide

/-- R208: saturated. -/
theorem test_entry_omitLast4 : written 0x80 2 (exec (.omitLast4 1 0) (withWord fresh 0x10 3 0x80)) =
    some (some ⟨.ok, 1⟩, [0x20, 0]) := by decide

/-- R209. -/
theorem test_entry_omitLast5 : written 0x80 3 (exec (.omitLast5 0 0) (withWord fresh 0x20 7 0x80)) =
    some (some ⟨.ok, 2⟩, [0x61, 0xC3, 0]) := by decide

/-- R210. -/
theorem test_entry_omitLast6 : written 0x80 2 (exec (.omitLast6 0 0) (withWord fresh 0x20 7 0x80)) =
    some (some ⟨.ok, 1⟩, [0x61, 0]) := by decide

/-- R211. -/
theorem test_entry_omitLast7 : written 0x80 1 (exec (.omitLast7 0 0) (withWord fresh 0x20 7 0x80)) =
    some (some ⟨.ok, 0⟩, [0]) := by decide

/-- R212: 2 of 10 bytes. -/
theorem test_entry_omitLast8 : written 0x80 3 (exec (.omitLast8 0 0) (withWord fresh 0x1D 10 0x80)) =
    some (some ⟨.ok, 2⟩, [0, 0, 0]) := by decide

/-- R213: 1 of 10 bytes. -/
theorem test_entry_omitLast9 : written 0x80 2 (exec (.omitLast9 0 0) (withWord fresh 0x20 10 0x80)) =
    some (some ⟨.ok, 1⟩, [0x61, 0]) := by decide

/-- R214. -/
theorem test_entry_uppercaseFirst : written 0x80 4 (exec (.uppercaseFirst 0 0) (withWord fresh 0x10 3 0x80)) =
    some (some ⟨.ok, 3⟩, [0x54, 0x68, 0x65, 0]) := by decide

/-- R214, R225. -/
theorem test_entry_uppercaseFirst_two_byte_character : written 0x80 3 (exec (.uppercaseFirst 0 0) (withWord fresh 0x21 2 0x80)) =
    some (some ⟨.ok, 2⟩, [0xC3, 0x89, 0]) := by decide

/-- R215. -/
theorem test_entry_uppercaseAll : written 0x80 8 (exec (.uppercaseAll 0 0) (withWord fresh 0x20 7 0x80)) =
    some (some ⟨.ok, 7⟩, [0x41, 0xC3, 0x89, 0xE2, 0x82, 0xA9, 0x5A, 0]) := by decide

/-- R225, by hand: the third byte of the last character is outside the body. -/
theorem test_entry_uppercaseAll_cut_short : written 0x80 7 (exec (.uppercaseAll 0 1) (withWord fresh 0x20 5 0x80)) =
    some (some ⟨.ok, 6⟩, [0x41, 0xC3, 0x89, 0xE2, 0x82, 0x20, 0]) := by decide

/-- R216. -/
theorem test_entry_omitFirst1 : written 0x80 3 (exec (.omitFirst1 0 0) (withWord fresh 0x10 3 0x80)) =
    some (some ⟨.ok, 2⟩, [0x68, 0x65, 0]) := by decide

/-- R217. -/
theorem test_entry_omitFirst2 : written 0x80 2 (exec (.omitFirst2 0 0) (withWord fresh 0x10 3 0x80)) =
    some (some ⟨.ok, 1⟩, [0x65, 0]) := by decide

/-- R218. -/
theorem test_entry_omitFirst3 : written 0x80 1 (exec (.omitFirst3 0 0) (withWord fresh 0x10 3 0x80)) =
    some (some ⟨.ok, 0⟩, [0]) := by decide

/-- R219. -/
theorem test_entry_omitFirst4 : written 0x80 4 (exec (.omitFirst4 0 0) (withWord fresh 0x20 7 0x80)) =
    some (some ⟨.ok, 3⟩, [0x82, 0xAC, 0x7A, 0]) := by decide

/-- R220. -/
theorem test_entry_omitFirst5 : written 0x80 3 (exec (.omitFirst5 0 0) (withWord fresh 0x20 7 0x80)) =
    some (some ⟨.ok, 2⟩, [0xAC, 0x7A, 0]) := by decide

/-- R221. -/
theorem test_entry_omitFirst6 : written 0x80 2 (exec (.omitFirst6 0 0) (withWord fresh 0x20 7 0x80)) =
    some (some ⟨.ok, 1⟩, [0x7A, 0]) := by decide

/-- R222. -/
theorem test_entry_omitFirst7 : written 0x80 1 (exec (.omitFirst7 0 0) (withWord fresh 0x20 7 0x80)) =
    some (some ⟨.ok, 0⟩, [0]) := by decide

/-- R223: 2 of 10 bytes. -/
theorem test_entry_omitFirst8 : written 0x80 3 (exec (.omitFirst8 0 0) (withWord fresh 0x1D 10 0x80)) =
    some (some ⟨.ok, 2⟩, [0xAC, 0x7A, 0]) := by decide

/-- R224: 1 of 10 bytes. -/
theorem test_entry_omitFirst9 : written 0x80 2 (exec (.omitFirst9 0 0) (withWord fresh 0x1D 10 0x80)) =
    some (some ⟨.ok, 1⟩, [0x7A, 0]) := by decide

/-! ### Steps from reset -/

/-- `AVAIL` on the empty window (R37, R113). -/
theorem test_step_first_command_after_reset : after (step (State.reset.withFetchWord 32 0x18000000)) = some (some ⟨.ok, 0⟩, ⟨0, 64, 0, 0⟩) := rfl

/-- A table entry on the empty word (log 10). -/
theorem test_step_first_entry_after_reset : after (step (State.reset.withFetchWord 24 0x010B02)) = some (some ⟨.ok, 0⟩, ⟨0, 64, 0, 0⟩) := rfl

/-- R86. -/
theorem test_step_reserved_opcode : after (step (fresh.withFetchWord 32 0xA8000000)) = some (some ⟨.fault, 1⟩, ⟨0, 64, 0, 12⟩) := by decide

/-- R243: refused without being decoded. -/
theorem test_step_refused_while_latched : after (step ((latched fresh).withFetchWord 32 0xA8000000)) = some (some ⟨.fault, 3⟩, ⟨0, 64, 0, 12⟩) := by decide

/-- R94. -/
theorem test_text_form : commandText (.xform 1 3 16 128) = some "XFORM 1, 16, 3, 128" ∧ responseText ⟨.ok, 22⟩ = "-> OK 22" := by decide

/-- R95, R111: the length grows by `k`; log 18: no command where the sum does not fit the operand. -/
theorem test_append : appendCommand 0x20C 3 5 = some (.reseat 0x20C 8) ∧ appendCommand 0 0xFFFFFFFE 1 = some (.reseat 0 0xFFFFFFFF) ∧
    appendCommand 0 0xFFFFFFFF 1 = none ∧ appendCommand 0x100000000 0 0 = none := by decide

/-- R94. -/
theorem test_reads_text : commandOfText "INIT 0x100, 12 ; a session" = some (.init 0x100 12) ∧ commandOfText "RDREG STATUS" = some (.rdreg 4) ∧
    commandOfText "CTX LSB6, 0xE5, 0x00" = some (.ctx 0 0xE5 0) ∧ commandOfText "XFORM 1, 0x10, 3, 0x80" = some (.xform 1 3 0x10 0x80) ∧
    commandOfText "GETU" = some .getu ∧ commandOfText "TAKE 64" = none ∧ commandOfText "TAKE" = none := by decide

/-- R94: a name stands only for the first operand of `RDREG` and `CTX`; log 17: other lines read as nothing. -/
theorem test_reads_names_in_place : commandOfText "CTX SIGNED, 1, 2" = some (.ctx 3 1 2) ∧ commandOfText "CTX 0, MSB6, 0" = none ∧
    commandOfText "CTX 0, 0, UTF8" = none ∧ commandOfText "GET ACC" = none ∧ commandOfText "RDREG 9" = some (.rdreg 9) ∧
    commandOfText "FILL 1 2" = none ∧ commandOfText "  COPY  1 ,2 " = some (.copy 1 2) := by decide

/-! ### Witnesses: for each statement with hypotheses, and for each of its clauses, a state and operands that meet them -/

/-- A state whose host presents one packet. -/
def presents (s : State) (p : Packet) : State := { s with host := [.command p] }

/-- A state whose host raises one event. -/
def raises (s : State) (e : HostEvent) : State := { s with host := [e] }

theorem test_witness_DecodeOfEncode :
    Instr.unitPresent ⟨true, false⟩ (.ctx 63 255 254) = true ∧ Instr.unitPresent ⟨false, true⟩ (.omitFirst9 255 1) = true := by decide

theorem test_witness_WordOfDecode :
    decode ⟨false, true⟩ ⟨0xA0FFFE00, 0xFFFFFFFF, 1⟩ = .ok (.xform 0xFE 0xFF 0xFFFFFFFF 1) ∧
    decode ⟨false, false⟩ ⟨0x5000003F, 7, 9⟩ = .ok (.sread 63) := by decide

theorem test_witness_MustBeZeroFaults_well_formed :
    (presents fresh ⟨0x3800003F, 0, 0⟩).fault = false ∧ commandOf (units fresh.cfg) ⟨0x3800003F, 0, 0⟩ = some (.N, .get 63) ∧
    (0x3800003F#32 &&& Format.mask .N) = (opField 0x3800003F).setWidth 32 <<< 27 := by decide

theorem test_witness_MustBeZeroFaults_bit_set :
    (presents fresh ⟨0x38000043, 0, 0⟩).fault = false ∧ commandOf (units fresh.cfg) ⟨0x38000043, 0, 0⟩ = some (.N, .get 3) ∧
    (0x38000043#32 &&& Format.mask .N) ≠ (opField 0x38000043).setWidth 32 <<< 27 := by decide

theorem test_witness_ReservedOpcodeFaults :
    fresh.fault = false ∧ 0x15 ≤ (opField 0xA8000000).toNat ∧ 0x15 ≤ (opField 0xFFFFFFFF).toNat ∧
    (opField 0x98000000 = 0x13 ∧ (config .w64 false true).hasCtx = false) ∧
    (opField 0xA0000000 = 0x14 ∧ (config .w64 true false).hasXform = false) := by decide

theorem test_witness_StepRunsDecodedCommand :
    (presents fresh ⟨0x48000020, 1, 2⟩).host = [.command ⟨0x48000020, 1, 2⟩] ∧
    decode (units (presents fresh ⟨0x48000020, 1, 2⟩).cfg) ⟨0x48000020, 1, 2⟩ = .ok (.read 32) := by decide

theorem test_witness_XformStepRunsEntry :
    (presents fresh ⟨0xA0030100, 0x10, 0x80⟩).host = [.command ⟨0xA0030100, 0x10, 0x80⟩] ∧
    decode (units fresh.cfg) ⟨0xA0030100, 0x10, 0x80⟩ = .ok (.xform 1 3 0x10 0x80) ∧
    (presents fresh ⟨0xA0030100, 0x10, 0x80⟩).entryAt 1 = some ⟨1, .identity, 1⟩ := by decide

theorem test_witness_IdleAndResetSteps : fresh.host = [] ∧ (raises fresh .reset).host = [.reset] := by decide

theorem test_witness_AbortedCommand :
    (raises v1s19 (.abort ⟨0x78000000, 0x40, 3⟩ 2)).host = [.abort ⟨0x78000000, 0x40, 3⟩ 2] ∧
    ∃ t, runPacket ⟨0x78000000, 0x40, 3⟩ { raises v1s19 (.abort ⟨0x78000000, 0x40, 3⟩ 2) with host := [] } = .next t :=
  ⟨rfl, _, rfl⟩

theorem test_witness_HostWriteLands :
    (raises fresh (.put .input 0xFFFF 7)).host = [.put .input 0xFFFF 7] ∧ (0xFFFF < 2 ^ fresh.cfg.aw) ∧
    (raises fresh (.put .output 0x10000 7)).host = [.put .output 0x10000 7] ∧ ¬(0x10000 < 2 ^ fresh.cfg.aw) ∧
    (raises fresh (.put .dict 0 7)).host = [.put .dict 0 7] := by decide

theorem test_witness_LatchRefusesPackets :
    (latched fresh).fault = true ∧ (opField 0xA8000000 ≠ 0x00 ∧ opField 0xA8000000 ≠ 0x12) ∧
    (0x90000008 = 0x90000000#32 ||| (8 : BitVec 6).setWidth 32) ∧ (0x90000009 = 0x90000000#32 ||| (9 : BitVec 6).setWidth 32) ∧
    (opField 0x90000040 = 0x12 ∧ ∀ sel : BitVec 6, 0x90000040 ≠ 0x90000000#32 ||| sel.setWidth 32) ∧
    (opField 0x00000001 = 0x00 ∧ opField 0x00000000 = 0x00) := by decide

theorem test_witness_FaultsArePrecise :
    (∃ t, exec (.drop 1) fresh = .next t ∧ t.answeredFault = true ∧ fresh.fault = false) ∧
    (∃ t, exec (.rdreg 9) (latched fresh) = .next t ∧ t.answeredFault = true ∧ (latched fresh).fault = true) :=
  ⟨⟨_, rfl, rfl, rfl⟩, ⟨_, rfl, rfl, rfl⟩⟩

theorem test_witness_OnlyInitLeavesFaultState :
    ∃ t, step (presents (latched fresh) ⟨0, 0xFFFE, 1⟩) = .next t ∧ (latched fresh).fault = true ∧ t.fault = false :=
  ⟨_, rfl, rfl, rfl⟩

/-- For every statement about ready states: both widths, with every register at a boundary, the window full and empty, the chunk ending at the last address that R89 allows. -/
theorem test_witness_Ready :
    (at_ .w64 0xFFFFFFFFFFFFFFFF 0 0xFFFF 0).Ready ∧ (at_ .w64 0 64 0 0xFFFF).Ready ∧
    (at_ .w32 0xFFFFFFFF 0 0 0xFFFF).Ready ∧ (at_ .w32 0 32 0xFFFE 1).Ready ∧ v1s19.Ready :=
  ⟨by decide, by decide, by decide, by decide, by decide⟩

theorem test_witness_FaultOnlyOnBrokenContract :
    v1s19.Ready ∧ Instr.wellFormed v1s19.cfg (.copy 0xFFFA 5) = true ∧ callerContract (.copy 0xFFFA 5) v1s19 = true ∧
    callerContract (.copy 0xFFF9 6) v1s19 = false := by decide

theorem test_witness_StreamCommandsFault :
    (at_ .w32 0 8 12 0).fault = false ∧ ndir (at_ .w32 0 8 12 0).cfg < (25 : BitVec 6).toNat ∧
    ((24 : BitVec 6).toNat ≤ ndir (at_ .w32 0 9 12 0).cfg ∧ (at_ .w32 0 9 12 0).total < (24 : BitVec 6).toNat) ∧
    32 < (33 : BitVec 6).toNat ∧ ((32 : BitVec 6).toNat ≤ 32 ∧ (at_ .w32 0 1 12 0).total < (32 : BitVec 6).toNat) ∧
    (at_ .w32 0 1 0 12).avail < (32 : BitVec 6).toNat ∧
    2 ^ fresh.cfg.aw ≤ (0xFFFF : Operand).toNat + (1 : Operand).toNat ∧
    ((0xFFF2 : Operand).toNat + (13 : Operand).toNat < 2 ^ fresh.cfg.aw ∧ fresh.rembytes < (13 : Operand).toNat) := by decide

/-- Answers of every status: for ResponsesAreLegal, and for the other statements about whatever `exec` answers. -/
theorem test_witness_exec_answers :
    after (exec .warmup fresh) = some (some ⟨.ok, 0⟩, ⟨0xB500000000000000, 56, 1, 11⟩) ∧
    after (exec .pull (at_ .w64 0 64 5 0)) = some (some ⟨.noData, 0⟩, ⟨0, 64, 5, 0⟩) ∧
    after (exec .align (at_ .w64 0x8000000000000000 63 5 0)) = some (some ⟨.badPad, 0⟩, ⟨0x8000000000000000, 64, 5, 0⟩) ∧
    after (exec (.rdreg 63) fresh) = some (some ⟨.fault, 2⟩, ⟨0, 64, 0, 12⟩) := by decide

theorem test_witness_FrameOfEveryInstruction :
    completes (exec (.fill 32) fresh) = true ∧ writesOut (.fill 32) = false ∧
    completes (step (presents fresh ⟨0x28000020, 0, 0⟩)) = true := by decide

theorem test_witness_FlagWriters :
    (fresh.ckValid = false ∧ flags (exec .save fresh) = some (true, false, 0)) ∧
    flags (exec (.reseat 0 0) { fresh with ckValid := true }) = some (false, false, 0) ∧
    (fresh.fault = false ∧ flags (exec (.drop 1) fresh) = some (false, true, 3)) ∧
    ((latched fresh).fault = true ∧ flags (exec (.init 0 0) (latched fresh)) = some (false, false, 0)) := by decide

theorem test_witness_OptionalUnitsApart :
    ofOptionalUnit (.ctx 4 0 0) = true ∧ ofOptionalUnit (.xform 0 0 0 0) = true ∧ ofOptionalUnit (.identity 0 0) = true := by decide

theorem test_witness_ChunkEndConstant :
    completes (exec (.copy 0 5) v1s19) = true ∧ (.copy 0 5 : Instr) ≠ .restore ∧
    (∀ base len, (.copy 0 5 : Instr) ≠ .init base len ∧ (.copy 0 5 : Instr) ≠ .reseat base len) :=
  ⟨by decide, nofun, fun _ _ => ⟨nofun, nofun⟩⟩

/-- `IN` with other bytes right before and right after the unread part, and the same bytes in it. -/
theorem test_witness_NoOverRead :
    ∀ a, v1s19.strm.cursor ≤ a → a < v1s19.strm.cursor + v1s19.strm.remaining →
      Memory.read [(7, 1), (8, 0x12), (9, 0x34), (10, 0x56), (11, 0x78), (12, 1)] a = v1s19.inMem.read a := by
  intro a h1 h2
  have hc : v1s19.strm.cursor = 8 := rfl
  have hr : v1s19.strm.remaining = 4 := rfl
  rw [hc] at h1 h2
  rw [hr] at h2
  interval_cases a <;> decide

/-- `DICT` with other bytes right before and right after the word, and the same bytes in it. -/
theorem test_witness_DictReadOnlyInsideWord :
    let x := transformOperands (.xform 1 3 0x10 0x80) fresh
    ∀ a, x.word.toNat ≤ a → a < x.word.toNat + x.len.toNat →
      Memory.read [(0xF, 1), (0x10, 0x74), (0x11, 0x68), (0x12, 0x65), (0x13, 1)] a = fresh.dictMem.read a := by
  intro x a h1 h2
  have hw : x.word.toNat = 0x10 := rfl
  have hl : x.len.toNat = 3 := rfl
  rw [hw] at h1 h2
  rw [hl] at h2
  interval_cases a <;> decide

theorem test_witness_StepKeepsInvariant :
    (presents v1s19 ⟨0x78000000, 0xFFFA, 5⟩).Inv ∧ completes (step (presents v1s19 ⟨0x78000000, 0xFFFA, 5⟩)) = true ∧
    (raises v1s19 (.put .input 0xFFFF 0)).Inv ∧ completes (step (raises v1s19 (.put .input 0xFFFF 0))) = true := by decide

theorem test_witness_EveryCommandResponds :
    (presents v1s19 ⟨0xFFFFFFFF, 0, 0⟩).Inv ∧ (presents v1s19 ⟨0xFFFFFFFF, 0, 0⟩).host = [.command ⟨0xFFFFFFFF, 0, 0⟩] := by decide

/-- For ReseatKeepsWindow, QueriesAnswer, AlignSkipsPadding, SaveAndRestore. -/
theorem test_witness_no_latched_fault : fresh.fault = false ∧ v1s19.fault = false := by decide

/-- For FillStagesLeast, GetAndTakeField, TakeIsGetThenDrop, SafeReadsReturnField (the first, second and last) and ReadReadsField (all): the
widest field of each width from a stream that holds exactly that many bits, and the empty field. -/
theorem test_witness_reads_with_enough_input :
    ((at_ .w64 0 64 0 4).Ready ∧ (32 : BitVec 6).toNat ≤ ndir (at_ .w64 0 64 0 4).cfg ∧ (32 : BitVec 6).toNat ≤ (at_ .w64 0 64 0 4).total) ∧
    ((at_ .w32 0 8 12 0).Ready ∧ (24 : BitVec 6).toNat ≤ ndir (at_ .w32 0 8 12 0).cfg ∧ (24 : BitVec 6).toNat ≤ (at_ .w32 0 8 12 0).total) ∧
    ((at_ .w32 0 0 12 0).Ready ∧ (32 : BitVec 6).toNat ≤ 32 ∧ (32 : BitVec 6).toNat ≤ (at_ .w32 0 0 12 0).total) ∧
    (fresh.Ready ∧ (0 : BitVec 6).toNat ≤ ndir fresh.cfg ∧ (0 : BitVec 6).toNat ≤ fresh.total) :=
  ⟨by decide, by decide, by decide, by decide⟩

theorem test_witness_PeekIsIdempotent :
    fresh.Inv ∧ completes (exec (.get 32) fresh) = true ∧ completes (exec (.fill 0) fresh) = true ∧ completes (exec (.sget 32) fresh) = true ∧
    ((.get 32 : Instr) = .get 32 ∨ (.get 32 : Instr) = .fill 32 ∨ (.get 32 : Instr) = .sget 32) := by decide

theorem test_witness_TakeSplits :
    fresh.Ready ∧ (32 : BitVec 6).toNat = (31 : BitVec 6).toNat + (1 : BitVec 6).toNat ∧ (32 : BitVec 6).toNat ≤ ndir fresh.cfg ∧
    (32 : BitVec 6).toNat ≤ fresh.total := by decide

/-- The fields of 95_test_vectors.md V1 steps 10, 11 and 13, of 3, 5 and 12 bits, and one of 24 bits. -/
theorem test_witness_ReadRoundTrip :
    fresh.Ready ∧ (∀ f ∈ [(3, 5), (5, 0x16), (12, 0x3C), (24, 0x1A70FF)], 1 ≤ f.1 ∧ f.1 ≤ 24 ∧ f.2 < 2 ^ f.1) ∧
    ([(3, 5), (5, 0x16), (12, 0x3C), (24, 0x1A70FF)].map Prod.fst).sum ≤ fresh.total ∧
    (∀ k, k < ([(3, 5), (5, 0x16), (12, 0x3C), (24, 0x1A70FF)].map Prod.fst).sum →
      fresh.streamBit k = packedBit [(3, 5), (5, 0x16), (12, 0x3C), (24, 0x1A70FF)] k) := by decide

theorem test_witness_StreamAdvances :
    v1s19.Ready ∧ completes (exec (.sread 32) v1s19) = true ∧ (.sread 32 : Instr) ≠ .restore ∧
    (∀ a b, (.sread 32 : Instr) ≠ .copy a b ∧ (.sread 32 : Instr) ≠ .init a b ∧ (.sread 32 : Instr) ≠ .reseat a b) :=
  ⟨by decide, by decide, nofun, fun _ _ => ⟨nofun, nofun, nofun⟩⟩

/-- The same stream with one byte staged and with three. -/
theorem test_witness_RefillPolicyInvisible :
    policyFree (.take 24) = true ∧ fresh.Ready ∧ (at_ .w64 0xF03CB50000000000 40 3 9).Ready ∧
    SameStream fresh (at_ .w64 0xF03CB50000000000 40 3 9) ∧ completes (exec (.take 24) fresh) = true ∧
    completes (exec (.take 24) (at_ .w64 0xF03CB50000000000 40 3 9)) = true := by
  refine ⟨by decide, by decide, by decide, ⟨rfl, by decide, ?_⟩, by decide, by decide⟩
  have h : fresh.total = 96 := rfl
  rw [h]
  decide

theorem test_witness_SafeReadsAnswerNoData :
    (at_ .w32 0 32 10 2).Ready ∧ (24 : BitVec 6).toNat ≤ ndir (at_ .w32 0 32 10 2).cfg ∧
    (at_ .w32 0 32 10 2).total < (24 : BitVec 6).toNat ∧
    ((at_ .w64 0 64 12 0).Ready ∧ (at_ .w64 0 64 12 0).total < (1 : BitVec 6).toNat) := by decide

/-- Each branch of `WARMUP` and of `PULL`: a window with bits, an empty one without input, an empty one with input, 7 and 8 free bits. -/
theorem test_witness_SingleByteLoads :
    v1s19.Ready ∧ (at_ .w64 0 64 5 0).Ready ∧ fresh.Ready ∧ (at_ .w64 0 7 5 1).Ready ∧ (at_ .w64 0 8 5 1).Ready :=
  ⟨by decide, by decide, by decide, by decide, by decide⟩

theorem test_witness_DropConsumesStagedBits :
    (at_ .w64 0 32 0 0).fault = false ∧ (32 : BitVec 6).toNat ≤ 32 ∧ (32 : BitVec 6).toNat ≤ (at_ .w64 0 32 0 0).avail := by decide

theorem test_witness_RetryAfterReseat :
    (at_ .w64 0 60 10 2).Ready ∧ (32 : BitVec 6).toNat ≤ ndir (at_ .w64 0 60 10 2).cfg ∧ (at_ .w64 0 60 10 2).total < (32 : BitVec 6).toNat ∧
    (0xFFFD : Operand).toNat + (2 : Operand).toNat < 2 ^ (at_ .w64 0 60 10 2).cfg.aw ∧
    (32 : BitVec 6).toNat ≤ (at_ .w64 0 60 10 2).total + 8 * (2 : Operand).toNat := by decide

/-- For CopyWritesBytes and AlignedCopyIsStream: all that is left is copied to the last addresses that R89 allows, on a byte boundary. -/
theorem test_witness_CopyWritesBytes :
    v1s19.Ready ∧ (0xFFFA : Operand).toNat + (5 : Operand).toNat < 2 ^ v1s19.cfg.aw ∧ (5 : Operand).toNat ≤ v1s19.rembytes ∧
    v1s19.avail % 8 = 0 := by decide

theorem test_witness_CheckpointLaw :
    ∃ t u rs, exec .save v1s19 = .next t ∧ v1s19.fault = false ∧
      runInstrs [.take 7, .take 9, .copy 0x40 1] t = some (u, rs) ∧ u.fault = false :=
  ⟨_, _, _, rfl, rfl, rfl, rfl⟩

/-- For ContextOfLastByte; the first two for ContextOfTables too. -/
theorem test_witness_Context :
    fresh.fault = false ∧ fresh.cfg.hasCtx = true ∧ 4 ≤ (4 : BitVec 6).toNat ∧ 4 ≤ (63 : BitVec 6).toNat := by decide

theorem test_witness_ContextOfTables :
    (∃ e1 e2, fresh.cfg.ctxLut[(255 : Byte).toNat]? = some e1 ∧ fresh.cfg.ctxLut[256 + (255 : Byte).toNat]? = some e2) ∧
    (∃ b1 b2, fresh.cfg.sgnLut[(255 : Byte).toNat]? = some b1 ∧ fresh.cfg.sgnLut[(0 : Byte).toNat]? = some b2) :=
  ⟨⟨_, _, rfl, rfl⟩, ⟨_, _, rfl, rfl⟩⟩

theorem test_witness_XformExpandsWord :
    fresh.cfg.hasXform = true ∧ (0x10 : Operand).toNat + (3 : Byte).toNat < 2 ^ fresh.cfg.aw ∧ fresh.entryAt 1 = some ⟨1, .identity, 1⟩ ∧
    fresh.expansion ⟨1, .identity, 1⟩ ⟨3, 0x10, 0xFFFA⟩ = some [0x20, 0x74, 0x68, 0x65, 0x20] ∧
    (0xFFFA : Operand).toNat + 5 < 2 ^ fresh.cfg.aw := by decide

/-- Each fault: the word's range, `tid = NT`, an ill-formed operation, a suffix past the pool, the end of the output. -/
theorem test_witness_XformFaults :
    2 ^ fresh.cfg.aw ≤ (0xFFFD : Operand).toNat + (3 : Byte).toNat ∧ fresh.entryAt 5 = none ∧ fresh.entryAt 3 = none ∧
    (fresh.entryAt 4 = some ⟨0, .identity, 6⟩ ∧ fresh.expands ⟨0, .identity, 6⟩ ⟨3, 0x10, 0x80⟩ = false) ∧
    (fresh.entryAt 1 = some ⟨1, .identity, 1⟩ ∧ fresh.expands ⟨1, .identity, 1⟩ ⟨3, 0x10, 0xFFFB⟩ = false) := by decide

/-- For WholeWordEntries, OmitLastEntries and OmitFirstEntries, with the hypotheses of `EntryExpands`: a word that ends at the last address that R200 allows, an
expansion that does. -/
theorem test_witness_entries :
    let s := withWord fresh 0xFFFC 3 0xFFF6
    s.fault = false ∧ s.cfg.hasXform = true ∧ (xOperandsOf s.port).word.toNat + (xOperandsOf s.port).len.toNat < 2 ^ s.cfg.aw ∧
    fragment s.cfg 1 = some [0x20] ∧ fragment s.cfg 3 = some [0x2C, 0x20] ∧ fragment s.cfg 5 = some [] ∧
    (s.port.a1.toNat + ([0x20] ++ s.wordAt (xOperandsOf s.port) ++ [0x2C, 0x20]).length < spaceSize s.cfg) := by decide

theorem test_witness_ExpansionSize :
    fragment fresh.cfg 1 = some [0x20] ∧ fragment fresh.cfg 5 = some [] ∧
    fresh.expansion ⟨1, .omitLast1, 5⟩ ⟨3, 0x10, 0x80⟩ = some [0x20, 0x74, 0x68] ∧
    fresh.expansion ⟨1, .uppercaseAll, 5⟩ ⟨3, 0x10, 0x80⟩ = some [0x20, 0x54, 0x48, 0x45] := by decide


end Sys2Proof.Tests
end

/-!
What an instruction does, said once. `Reads` is how the stream registers move (bytes staged, bits consumed), `Effect` is every way in which
an instruction can end, and `exec_effect` says that there is no other. The statements about all instructions are read off `Effect`.
-/

namespace Sys2Proof.Machine.Effects

open Sys2Proof Sys2Proof.Machine Sys2Proof.Machine.Laws

/-! ### How the stream registers move -/

section Reading

variable {g : Prop} {c : Config} {w : AccWidth} {m : Memory} {x y z : Stream} {s : State} {a b n : Nat}

/-- `y` is reached from `x` by staging bytes of the chunk into free bits and by consuming `n` bits in all. The consumed bits are staged ones
where `g` holds: outside the invariant (`bitPos` above `W`) `total()` counts bits that staging cannot reach. -/
inductive Reads (g : Prop) (w : AccWidth) (m : Memory) : Stream → Stream → Nat → Prop
  | refl (x : Stream) : Reads g w m x x 0
  | load {x y : Stream} {n : Nat} (hr : 0 < x.remaining) (hb : 8 ≤ x.bitPos) (h : Reads g w m (x.load1 w m) y n) :
      Reads g w m x y n
  | consume {x y : Stream} {k n : Nat} (hk : g → k ≤ x.avail w) (h : Reads g w m (x.consume k) y n) : Reads g w m x y (k + n)

theorem Reads.trans (h : Reads g w m x y a) (h' : Reads g w m y z b) : Reads g w m x z (a + b) := by
  induction h with
  | refl x => simpa using h'
  | load hr hb _ ih => exact .load hr hb (ih h')
  | consume hk _ ih => rw [Nat.add_assoc]; exact .consume hk (ih h')

theorem Reads.of_load1 (hr : 0 < x.remaining) (hb : 8 ≤ x.bitPos) : Reads g w m x (x.load1 w m) 0 := .load hr hb (.refl _)

theorem Reads.of_consume (hk : g → n ≤ x.avail w) : Reads g w m x (x.consume n) n := .consume hk (.refl _)

/-- Staging loads only into free bits, as long as a byte fits above the target; whatever `bitPos` is. -/
theorem Reads.of_stage {target : Nat} (ht : target + 7 ≤ w.bits) : Reads g w m x (x.stage w m target) 0 := by
  unfold Stream.stage
  generalize x.remaining = fuel
  induction fuel generalizing x with
  | zero => exact .refl x
  | succ fuel ih =>
    rw [Stream.stageLoop]
    split
    next hc =>
      have hav : w.bits - x.bitPos < target := hc.1
      exact .load hc.2 (by omega) ih
    next => exact .refl x

/-- Staging, then consuming `n` of the staged bits. -/
theorem Reads.of_stage_consume {target : Nat} (ht : target + 7 ≤ w.bits) (hg : g → n ≤ (x.stage w m target).avail w) :
    Reads g w m x ((x.stage w m target).consume n) n := by
  simpa using (Reads.of_stage (g := g) ht).trans (.of_consume hg)

/-- The end of the chunk stays (R23). -/
theorem Reads.chunkEnd (h : Reads g w m x y n) : y.cursor + y.remaining = x.cursor + x.remaining := by
  induction h with
  | refl x => rfl
  | load hr hb _ ih => rw [ih, load1_cursor, load1_remaining]; omega
  | consume hk _ ih => rw [ih, consume_cursor, consume_remaining]

/-- Registers that fit their widths stay so (R20 to R23). -/
theorem Reads.ok (h : Reads g c.w m x y n) (hg : g) (hx : x.Ok c) : y.Ok c := by
  induction h with
  | refl x => exact hx
  | load hr hb _ ih => exact ih (load1_ok hx hr hb)
  | consume hk _ ih => exact ih (consume_ok hx (hk hg))

/-- What is consumed is what `total()` loses (R24). -/
theorem Reads.total (h : Reads g w m x y n) (hg : g) (hx : x.bitPos ≤ w.bits) :
    y.bitPos ≤ w.bits ∧ y.total w + n = x.total w := by
  induction h with
  | refl x => exact ⟨hx, rfl⟩
  | @load x y n hr hb _ ih =>
    obtain ⟨hy, ht⟩ := ih (by rw [load1_bitPos]; omega)
    exact ⟨hy, ht.trans (loadMany_total (k := 1) hb hx hr)⟩
  | @consume x y k n hk _ ih =>
    have hav : x.avail w = w.bits - x.bitPos := rfl
    have hk := hk hg
    obtain ⟨hy, ht⟩ := ih (by rw [consume_bitPos]; omega)
    have hc : (x.consume k).total w = 8 * x.remaining + (w.bits - (x.bitPos + k)) := rfl
    have hx : x.total w = 8 * x.remaining + x.avail w := rfl
    exact ⟨hy, by omega⟩

/-- The bits that are left are the ones that stood there (R24, R26). -/
theorem Reads.streamBit (h : Reads g s.cfg.w s.inMem x y n) (hg : g) (hx : x.Ok s.cfg) (k : Nat) :
    (s.withStream y).streamBit k = (s.withStream x).streamBit (n + k) := by
  induction h generalizing k with
  | refl x => rw [Nat.zero_add]
  | @load x y n hr hb _ ih =>
    rw [ih (load1_ok hx hr hb)]
    exact streamBit_load1 (s := s.withStream x) hx hb _
  | @consume x y a n hk _ ih =>
    rw [ih (consume_ok hx (hk hg)), Nat.add_assoc]
    exact streamBit_consume (s := s.withStream x) (hk hg) _

theorem Reads.streamAdvanced (h : Reads g s.cfg.w s.inMem s.strm y n) (hg : g) (hs : s.strm.Ok s.cfg) :
    StreamAdvanced s (s.withStream y) n :=
  ⟨(h.total hg hs.2.1).2, fun k _ => h.streamBit hg hs k⟩

/-- A `fill` for `n` bits of the stream stages them all (R131). -/
theorem le_fill_avail (hx : x.bitPos ≤ w.bits) (hw : n + 8 ≤ w.bits) (hn : n ≤ x.total w) : n ≤ (x.fill w m n).avail w := by
  have hf := bytesToStage_fits (target := n + 1) hx (by omega)
  have hr := bytesToStage_reaches (w := w) (target := n + 1) (x := x)
  rw [Stream.fill, stage_eq_loadMany hx (by omega), loadMany_avail hf.2 hx]
  omega

/-- One field of `n` bits, the body of `TAKE` (R134). -/
theorem Reads.of_fill_consume (hw : n + 8 ≤ w.bits) (hg : g → x.bitPos ≤ w.bits ∧ n ≤ x.total w) :
    Reads g w m x ((x.fill w m n).consume n) n :=
  .of_stage_consume (by omega) fun h => le_fill_avail (hg h).1 hw (hg h).2

/-- A field of `READ`, in one piece or in two (R135). -/
theorem Reads.of_readField (hn : n ≤ 32) (hg : g → s.strm.bitPos ≤ s.cfg.w.bits ∧ n ≤ s.total) :
    Reads g s.cfg.w s.inMem s.strm (readField n s).2.strm n := by
  unfold readField
  split
  next hw =>
    refine .of_fill_consume ?_ hg
    rcases hw with hw | hw
    · rw [hw]; show n + 8 ≤ 64; omega
    · have := bits_cases s.cfg.w; omega
  next hw =>
    have hb := bits_cases s.cfg.w
    have lo : Reads g s.cfg.w s.inMem s.strm ((s.strm.fill s.cfg.w s.inMem 16).consume 16) 16 :=
      .of_fill_consume (by omega) fun h => ⟨(hg h).1, by have : n ≤ s.strm.total s.cfg.w := (hg h).2; omega⟩
    have hi := Reads.of_fill_consume (g := g) (m := s.inMem) (n := n - 16) (w := s.cfg.w)
      (x := (s.strm.fill s.cfg.w s.inMem 16).consume 16) (by omega) fun h => by
        obtain ⟨hp, ht⟩ := lo.total h (hg h).1
        have : n ≤ s.strm.total s.cfg.w := (hg h).2
        exact ⟨hp, by omega⟩
    have := lo.trans hi
    rwa [Nat.add_sub_cancel' (by omega)] at this

end Reading

/-! ### The body operations in one form -/

section Transform

variable {i : Instr} {e : Entry}

/-- The part of the word that an operation keeps, as `(skip, blen)` (R204 to R224). -/
def extentOf : BodyOp → Nat → Nat × Nat
  | .identity | .uppercaseFirst | .uppercaseAll => extentWhole
  | .omitLast1 => extentOmitLast 1
  | .omitLast2 => extentOmitLast 2
  | .omitLast3 => extentOmitLast 3
  | .omitLast4 => extentOmitLast 4
  | .omitLast5 => extentOmitLast 5
  | .omitLast6 => extentOmitLast 6
  | .omitLast7 => extentOmitLast 7
  | .omitLast8 => extentOmitLast 8
  | .omitLast9 => extentOmitLast 9
  | .omitFirst1 => extentOmitFirst 1
  | .omitFirst2 => extentOmitFirst 2
  | .omitFirst3 => extentOmitFirst 3
  | .omitFirst4 => extentOmitFirst 4
  | .omitFirst5 => extentOmitFirst 5
  | .omitFirst6 => extentOmitFirst 6
  | .omitFirst7 => extentOmitFirst 7
  | .omitFirst8 => extentOmitFirst 8
  | .omitFirst9 => extentOmitFirst 9

/-- The case step of an operation (R214, R215). -/
def caseStepOf : BodyOp → Config → List Byte → List Byte
  | .uppercaseFirst => upperFirst
  | .uppercaseAll => upperAll
  | _ => keepBody

/-- Every entry is one expansion, with the extent and the case step of its operation (R200). -/
theorem runBody_eq_expand (e : Entry) (x : XOperands) (s : State) :
    runBody e x s = expand (extentOf e.op) (caseStepOf e.op) e.prefixId e.suffixId x s := by
  obtain ⟨p, op, q⟩ := e
  cases op <;> rfl

/-- An entry as an instruction is run on the operands of the command port (log 10). -/
theorem exec_entry (h : entryOf i = some e) (s : State) : exec i s = runEntry (runBody e) s := by
  cases i <;> cases h <;> rfl

theorem ucstep_length (c : Config) (b : List Byte) (i : Nat) : (ucstep c b i).1.length = b.length := by
  unfold ucstep
  split
  next => rfl
  next => split_ifs <;> simp

theorem upperLoop_length (c : Config) (fuel i : Nat) (b : List Byte) : (upperLoop c fuel i b).length = b.length := by
  induction fuel generalizing i b with
  | zero => rfl
  | succ fuel ih =>
    rw [upperLoop]
    split
    next => exact (ih _ _).trans (ucstep_length c b i)
    next => rfl

/-- No case step changes the length of a body (R225). -/
theorem caseStepOf_length (op : BodyOp) (c : Config) (b : List Byte) : (caseStepOf op c b).length = b.length := by
  cases op
  case uppercaseFirst =>
    show (if 0 < b.length then (ucstep c b 0).1 else b).length = b.length
    split
    next => exact ucstep_length c b 0
    next => rfl
  case uppercaseAll => exact upperLoop_length c _ _ b
  all_goals rfl

end Transform

/-! ### What `COPY` does to the stream registers -/

/-- The stream registers after `COPY` (R171): `k` bytes drained, the others skipped in `IN`. -/
theorem copyBody_strm (cnt : Nat) (s : State) :
    (copyBody cnt s).2 =
      ⟨s.strm.acc, s.strm.bitPos + 8 * min cnt (s.avail / 8), s.strm.cursor + (cnt - min cnt (s.avail / 8)),
        s.strm.remaining - (cnt - min cnt (s.avail / 8))⟩ := by
  obtain ⟨hl, hx⟩ := drain_eq (w := s.cfg.w) (x := s.strm) cnt
  simp only [copyBody, hl, hx]
  rfl

/-- `COPY` writes `cnt` bytes (R171). -/
theorem copyBody_length (cnt : Nat) (s : State) : (copyBody cnt s).1.length = cnt := by
  have hl := (drain_eq (w := s.cfg.w) (x := s.strm) cnt).1
  simp only [copyBody, List.length_append, length_readBytes, hl]
  omega

/-- A copy of bytes that exist keeps the end of the chunk (R23). -/
theorem copyBody_chunkEnd {cnt : Nat} {s : State} (h : cnt ≤ s.rembytes) :
    (copyBody cnt s).2.cursor + (copyBody cnt s).2.remaining = s.strm.cursor + s.strm.remaining := by
  have hr : s.rembytes = s.strm.remaining + s.avail / 8 := rfl
  rw [copyBody_strm]
  dsimp only
  omega

/-- A copy of bytes that exist keeps registers that fit their widths. -/
theorem copyBody_ok {cnt : Nat} {s : State} (hs : s.strm.Ok s.cfg) (h : cnt ≤ s.rembytes) : (copyBody cnt s).2.Ok s.cfg := by
  have hc := copyBody_chunkEnd h
  obtain ⟨ha, hp, hend⟩ := hs
  have hav : s.avail = s.cfg.w.bits - s.strm.bitPos := rfl
  refine ⟨?_, ?_, hc ▸ hend⟩ <;> rw [copyBody_strm]
  · exact ha
  · dsimp only
    omega

/-! ### Everything an instruction can do -/

/-- The ways in which an instruction `i` can end from a state `s`. -/
inductive Effect (i : Instr) (s : State) : State → Prop
  /-- Refused, since a fault is latched (R243). -/
  | refused (hf : s.fault = true) : Effect i s (refuse s)
  /-- A fault taken (R242). -/
  | raised (c : Cause) : Effect i s (raise c s)
  /-- An answer, after bytes were staged and bits consumed. -/
  | streamed (x : Stream) (st : Status) (v : Value) (hst : st ≠ .fault)
      (hx : Reads (s.strm.bitPos ≤ s.cfg.w.bits) s.cfg.w s.inMem s.strm x (bitsConsumed i s st)) : Effect i s (s.answered x st v)
  /-- An expansion (R200). -/
  | expanded (dest : Nat) (bytes : List Byte) (v : Value) (hw : writesOut i = true) (hn : ∀ st, bitsConsumed i s st = 0)
      (hd : dest + bytes.length < spaceSize s.cfg) :
      Effect i s (respond .ok v { s with outMem := s.outMem.writeBytes dest bytes })
  /-- A copy (R171). -/
  | copied (dest cnt : Operand) (hi : i = .copy dest cnt) (hd : dest.toNat + cnt.toNat < spaceSize s.cfg)
      (hc : cnt.toNat ≤ s.rembytes) :
      Effect i s (respond .ok 0
        { s.withStream (copyBody cnt.toNat s).2 with outMem := s.outMem.writeBytes dest.toNat (copyBody cnt.toNat s).1 })
  /-- A session started (R110). -/
  | started (base len : Operand) (hi : i = .init base len) (hd : base.toNat + len.toNat < spaceSize s.cfg) :
      Effect i s (respond .ok 0 (leaveFault ((s.withStream (startStream s.cfg.w base len)).withCkValid false)))
  /-- The chunk replaced (R111). -/
  | reseated (base len : Operand) (hi : i = .reseat base len) (hd : base.toNat + len.toNat < spaceSize s.cfg) :
      Effect i s (respond .ok 0
        ((s.withStream { s.strm with cursor := base.toNat, remaining := len.toNat }).withCkValid false))
  /-- A checkpoint taken (R172). -/
  | saved (hi : i = .save) : Effect i s (respond .ok 0 (({ s with ck := s.strm }).withCkValid true))
  /-- A checkpoint restored (R173). -/
  | restored (hi : i = .restore) : Effect i s (respond .ok 0 (s.withStream s.ck))

section Inversion

variable {s t : State} {i : Instr} {e : Entry} {n : BitVec 6}

/-- An answer that leaves the stream registers. -/
theorem Effect.answer {st : Status} {v : Value} (hst : st ≠ .fault) (hn : bitsConsumed i s st = 0) : Effect i s (respond st v s) :=
  .streamed s.strm st v hst (hn ▸ .refl _)

/-- Bytes were staged and nothing consumed. -/
theorem Effect.stagedAnswer {st : Status} {v : Value} {x : Stream} (hst : st ≠ .fault) (hn : bitsConsumed i s st = 0)
    (hx : Reads (s.strm.bitPos ≤ s.cfg.w.bits) s.cfg.w s.inMem s.strm x 0) : Effect i s (respond st v (s.withStream x)) :=
  .streamed x st v hst (hn ▸ hx)

/-- A command that the latch does not refuse does what follows the check (R243). -/
theorem unlessLatched_effect {run : Result} (h : unlessLatched s run = .next t) (hr : run = .next t → Effect i s t) : Effect i s t := by
  rcases unlessLatched_next h with ⟨hf, rfl⟩ | ⟨-, h⟩
  · exact .refused hf
  · exact hr h

/-- An unchecked read that passes its checks and reads within the space (R88, R131). -/
theorem checkedRead_effect {limit n : Nat} {u : State} (h : checkedRead limit n s (endRead s u) = .next t)
    (hr : n ≤ limit → n ≤ s.total → Effect i s u) : Effect i s t := by
  rcases checkedRead_next h with ⟨hf, rfl⟩ | ⟨-, -, rfl⟩ | ⟨-, -, -, rfl⟩ | ⟨-, hl, ht, h⟩
  · exact .refused hf
  · exact .raised _
  · exact .raised _
  · rw [(endRead_next h).1]
    exact hr hl ht

/-- The safe loop (R150, R151): `NODATA` with what was staged, or what `done` makes of the staged field. -/
theorem safeField_effect {done : State → State} (h : safeField n s done = .next t) (hn : bitsConsumed i s .noData = 0)
    (hd : n.toNat ≤ ndir s.cfg → n.toNat ≤ (s.staged n.toNat).avail → Effect i s (done (s.staged n.toNat))) : Effect i s t := by
  rcases safeField_next h with ⟨hf, rfl⟩ | ⟨-, -, rfl⟩ | ⟨-, hl, -, rfl⟩ | ⟨-, hl, ha, rfl⟩
  · exact .refused hf
  · exact .raised _
  · have := ndir_le s.cfg
    exact .stagedAnswer nofun hn (.of_stage (by omega))
  · exact hd hl ha

/-! #### Session and query commands -/

theorem init_effect {base len : Operand} (h : execInit base len s = .next t) : Effect (.init base len) s t := by
  unfold execInit at h
  split at h <;> cases h
  next hs => exact .started base len rfl ((spanFits_iff ..).1 hs)
  next => exact .raised _

theorem reseat_effect {base len : Operand} (h : execReseat base len s = .next t) : Effect (.reseat base len) s t := by
  refine unlessLatched_effect h fun h => ?_
  split at h <;> cases h
  next hs => exact .reseated base len rfl ((spanFits_iff ..).1 hs)
  next => exact .raised _

theorem warmup_effect (h : execWarmup s = .next t) : Effect .warmup s t := by
  refine unlessLatched_effect h fun h => ?_
  have hb := bits_cases s.cfg.w
  split at h
  next ha =>
    have hp : s.cfg.w.bits - s.strm.bitPos = 0 := ha
    split at h
    next => cases h; exact .answer nofun rfl
    next hr =>
      rw [(endRead_next h).1]
      exact .stagedAnswer nofun rfl (.of_load1 (by omega) (by omega))
  next => cases h; exact .answer nofun rfl

theorem rdreg_effect (h : execRdreg n s = .next t) : Effect (.rdreg n) s t := by
  unfold execRdreg at h
  split at h <;> cases h
  · exact .answer nofun rfl
  · exact .raised _

theorem ctx_effect {p1 p2 : Byte} (h : execCtx n p1 p2 s = .next t) : Effect (.ctx n p1 p2) s t := by
  refine unlessLatched_effect h fun h => ?_
  split at h <;> cases h
  · exact .answer nofun rfl
  · exact .raised _

/-! #### Reading commands -/

theorem fill_effect (h : execFill n s = .next t) : Effect (.fill n) s t := by
  refine checkedRead_effect h fun hl _ => ?_
  have := ndir_le s.cfg
  exact .stagedAnswer nofun rfl (.of_stage (by omega))

theorem get_effect (h : execGet n s = .next t) : Effect (.get n) s t := by
  refine checkedRead_effect h fun hl _ => ?_
  have := ndir_le s.cfg
  exact .stagedAnswer nofun rfl (.of_stage (by omega))

theorem take_effect (h : execTake n s = .next t) : Effect (.take n) s t := by
  refine checkedRead_effect h fun hl ht => ?_
  have := ndir_le s.cfg
  exact .streamed _ .ok _ nofun (.of_fill_consume (by omega) fun hp => ⟨hp, ht⟩)

theorem readField_eq (n : Nat) (s : State) : (readField n s).2 = s.withStream (readField n s).2.strm := by
  unfold readField
  split <;> rfl

theorem read_effect (h : execRead n s = .next t) : Effect (.read n) s t := by
  refine checkedRead_effect h fun hl ht => ?_
  rw [readField_eq]
  exact .streamed _ .ok _ nofun (.of_readField hl fun hp => ⟨hp, ht⟩)

theorem sread_effect (h : execSread n s = .next t) : Effect (.sread n) s t := by
  refine safeField_effect h rfl fun hl ha => ?_
  have := ndir_le s.cfg
  exact .streamed _ .ok _ nofun (.of_stage_consume (by omega) fun _ => ha)

theorem sget_effect (h : execSget n s = .next t) : Effect (.sget n) s t := by
  refine safeField_effect h rfl fun hl _ => ?_
  have := ndir_le s.cfg
  exact .stagedAnswer nofun rfl (.of_stage (by omega))

theorem pull_effect (h : execPull s = .next t) : Effect .pull s t := by
  refine unlessLatched_effect h fun h => ?_
  split at h
  next => cases h; exact .answer nofun rfl
  next hr =>
    split at h
    next => cases h; exact .raised _
    next hb =>
      rw [(endRead_next h).1]
      exact .stagedAnswer nofun rfl (.of_load1 (by omega) (by omega))

theorem drop_effect (h : execDrop n s = .next t) : Effect (.drop n) s t := by
  refine unlessLatched_effect h fun h => ?_
  split at h
  next => cases h; exact .raised _
  next =>
    split at h <;> cases h
    next => exact .raised _
    next ha => exact .streamed _ .ok _ nofun (.of_consume fun _ => Nat.le_of_not_lt ha)

theorem align_effect (h : execAlign s = .next t) : Effect .align s t := by
  refine unlessLatched_effect h fun h => ?_
  cases h
  have hx : Reads (s.strm.bitPos ≤ s.cfg.w.bits) s.cfg.w s.inMem s.strm (s.strm.consume (s.avail % 8)) (s.avail % 8) :=
    .of_consume fun _ => Nat.mod_le ..
  split
  · exact .streamed _ .ok _ nofun hx
  · exact .streamed _ .badPad _ nofun hx

/-! #### Bulk copy and checkpoint -/

theorem copy_effect {dest cnt : Operand} (h : execCopy dest cnt s = .next t) : Effect (.copy dest cnt) s t := by
  refine unlessLatched_effect h fun h => ?_
  split at h
  next hs =>
    split at h
    next => cases h; exact .raised _
    next hc =>
      rw [(endRead_next h).1]
      exact .copied dest cnt rfl ((spanFits_iff ..).1 hs) (Nat.le_of_not_lt hc)
  next => cases h; exact .raised _

theorem save_effect (h : execSave s = .next t) : Effect .save s t := by
  refine unlessLatched_effect h fun h => ?_
  cases h
  exact .saved rfl

theorem restore_effect (h : execRestore s = .next t) : Effect .restore s t := by
  refine unlessLatched_effect h fun h => ?_
  split at h <;> cases h
  · exact .restored rfl
  · exact .raised _

/-! #### The transform unit -/

theorem runBody_effect (hw : writesOut i = true) (hn : ∀ st, bitsConsumed i s st = 0) (e : Entry) (x : XOperands) :
    Effect i s (runBody e x s) := by
  rw [runBody_eq_expand]
  rcases expand_cases (extentOf e.op) (caseStepOf e.op) e.prefixId e.suffixId x s with h | ⟨pre, suf, -, -, hd, h⟩ <;> rw [h]
  · exact .raised _
  · refine .expanded x.dest.toNat _ _ hw hn ?_
    simpa [caseStepOf_length, Nat.add_assoc] using hd

theorem transformGuard_effect {x : XOperands} {run : State} (h : transformGuard x s run = .next t) (hr : Effect i s run) :
    Effect i s t := by
  refine unlessLatched_effect h fun h => ?_
  split at h
  next =>
    split at h <;> cases h
    · exact hr
    · exact .raised _
  next => cases h; exact .raised _

theorem xform_effect {tid len : Byte} {word dest : Operand} (h : execXform tid len word dest s = .next t) :
    Effect (.xform tid len word dest) s t := by
  refine transformGuard_effect h ?_
  split
  · exact .raised _
  · split
    · exact .raised _
    · exact runBody_effect rfl (fun _ => rfl) ..

theorem writesOut_of_entryOf (h : entryOf i = some e) : writesOut i = true := by simp [writesOut, h]

theorem bitsConsumed_of_entryOf (h : entryOf i = some e) (st : Status) : bitsConsumed i s st = 0 := by simp [bitsConsumed, h]

theorem entry_effect (he : entryOf i = some e) (h : exec i s = .next t) : Effect i s t := by
  rw [exec_entry he] at h
  exact transformGuard_effect h (runBody_effect (writesOut_of_entryOf he) (bitsConsumed_of_entryOf he) ..)

/-- There is no other way for an instruction to end. -/
theorem exec_effect (h : exec i s = .next t) : Effect i s t := by
  cases i with
  | init => exact init_effect h
  | reseat => exact reseat_effect h
  | warmup => exact warmup_effect h
  | avail | rembytes | getu => exact unlessLatched_effect h fun h => by cases h; exact .answer nofun rfl
  | fill => exact fill_effect h
  | get => exact get_effect h
  | take => exact take_effect h
  | read => exact read_effect h
  | sread => exact sread_effect h
  | sget => exact sget_effect h
  | pull => exact pull_effect h
  | drop => exact drop_effect h
  | align => exact align_effect h
  | copy => exact copy_effect h
  | save => exact save_effect h
  | restore => exact restore_effect h
  | rdreg => exact rdreg_effect h
  | ctx => exact ctx_effect h
  | xform => exact xform_effect h
  | _ => exact entry_effect rfl h

end Inversion

/-! ### What every instruction keeps -/

section Kept

variable {s t : State} {i : Instr}

/-- A memory into which existing addresses were written is still one of the space. -/
theorem writeBytes_ok {c : Config} {m : Memory} {a : Nat} {bytes : List Byte} (h : m.Ok c) (ha : a + bytes.length < spaceSize c) :
    (m.writeBytes a bytes).Ok c :=
  ⟨wf_writeBytes h.1, below_writeBytes h.2 (Nat.le_of_lt ha)⟩

/-- Every instruction keeps the invariant (R21, R22, R33). -/
theorem Effect.inv (h : Effect i s t) (hs : s.Inv) : t.Inv := by
  obtain ⟨hx, hck, hl, hin, hout, hdict⟩ := hs
  cases h with
  | refused hf => exact ⟨hx, hck, hl, hin, hout, hdict⟩
  | raised c => exact raise_inv c ⟨hx, hck, hl, hin, hout, hdict⟩
  | streamed x st v hst hr => exact ⟨hr.ok hx.2.1 hx, hck, hl, hin, hout, hdict⟩
  | expanded dest bytes v hw hn hd => exact ⟨hx, hck, hl, hin, writeBytes_ok hout hd, hdict⟩
  | copied dest cnt hi hd hc =>
    rw [← copyBody_length cnt.toNat s] at hd
    exact ⟨copyBody_ok hx hc, hck, hl, hin, writeBytes_ok hout hd, hdict⟩
  | started base len hi hd => exact ⟨⟨Nat.two_pow_pos _, Nat.le_refl _, hd⟩, hck, ⟨fun _ => rfl, nofun⟩, hin, hout, hdict⟩
  | reseated base len hi hd => exact ⟨⟨hx.1, hx.2.1, hd⟩, hck, hl, hin, hout, hdict⟩
  | saved hi => exact ⟨hx, hx, hl, hin, hout, hdict⟩
  | restored hi => exact ⟨hck, hck, hl, hin, hout, hdict⟩

/-- What no instruction changes, and what only the writers of `OUT` change (R36, R50, R52). -/
theorem Effect.frame (h : Effect i s t) :
    t.cfg = s.cfg ∧ t.inMem = s.inMem ∧ t.dictMem = s.dictMem ∧ t.port = s.port ∧ t.host = s.host ∧
    (writesOut i = false → t.outMem = s.outMem) := by
  cases h with
  | expanded _ _ _ hw => exact ⟨rfl, rfl, rfl, rfl, rfl, fun hf => absurd (hf.symm.trans hw) nofun⟩
  | copied _ _ hi => exact ⟨rfl, rfl, rfl, rfl, rfl, fun hf => absurd (hi ▸ hf) nofun⟩
  | refused | raised | streamed | started | reseated | saved | restored => exact ⟨rfl, rfl, rfl, rfl, rfl, fun _ => rfl⟩

end Kept

/-! ### The steps of the host's events -/

section Events

variable {s t : State} {p : Packet} {e : HostEvent}

/-- Everything a packet can do: an instruction's effect, or the outcome of a packet that is none (R86, R87, R243). -/
theorem runPacket_next (h : runPacket p s = .next t) :
    (∃ i, Effect i (s.accept p) t) ∨ t = refuse (s.accept p) ∨ ∃ c, t = raise c (s.accept p) := by
  unfold runPacket at h
  split at h
  next i _ => exact .inl ⟨i, exec_effect h⟩
  next err _ =>
    cases h
    unfold rejectPacket
    split
    · exact .inr (.inl rfl)
    · exact .inr (.inr ⟨_, rfl⟩)

theorem runPacket_inv (h : runPacket p s = .next t) (hs : s.Inv) : t.Inv := by
  rcases runPacket_next h with ⟨i, h⟩ | rfl | ⟨c, rfl⟩
  · exact h.inv hs
  · exact hs
  · exact raise_inv c hs

theorem runPacket_cfg (h : runPacket p s = .next t) : t.cfg = s.cfg := by
  rcases runPacket_next h with ⟨i, h⟩ | rfl | ⟨c, rfl⟩
  · exact h.frame.1
  · rfl
  · rfl

/-- A block after reset meets the invariant over memories that do (R37). -/
theorem resetWith_inv {c : Config} {mi mo md : Memory} (hi : mi.Ok c) (ho : mo.Ok c) (hd : md.Ok c) (h : List HostEvent) :
    (State.resetWith c mi mo md h).Inv :=
  have hpos : 0 < spaceSize c := Nat.two_pow_pos _
  ⟨⟨Nat.two_pow_pos _, Nat.le_refl _, hpos⟩, ⟨Nat.two_pow_pos _, Nat.zero_le _, hpos⟩, ⟨fun _ => rfl, nofun⟩, hi, ho, hd⟩

theorem hostPut_inv {sp : Space} {a : Nat} {b : Byte} (h : hostPut sp a b s = .next t) (hs : s.Inv) : t.Inv := by
  obtain ⟨hx, hck, hl, hin, hout, hdict⟩ := hs
  unfold hostPut at h
  split at h
  next => cases h
  next ha =>
    have hw : ∀ m : Memory, m.Ok s.cfg → (m.write a b).Ok s.cfg := fun m hm =>
      ⟨wf_write hm.1, below_write hm.2 (.inl (by omega))⟩
    cases sp <;> cases h
    · exact ⟨hx, hck, hl, hw _ hin, hout, hdict⟩
    · exact ⟨hx, hck, hl, hin, hw _ hout, hdict⟩
    · exact ⟨hx, hck, hl, hin, hout, hw _ hdict⟩

theorem hostPut_cfg {sp : Space} {a : Nat} {b : Byte} (h : hostPut sp a b s = .next t) : t.cfg = s.cfg := by
  unfold hostPut at h
  split at h
  next => cases h
  next => cases sp <;> cases h <;> rfl

/-- An aborted command answers next only where the command would have (R270). -/
theorem runEvent_abort_next {k : Nat} (h : runEvent (.abort p k) s = .next t) :
    ∃ u, runPacket p s = .next u ∧ t = abandon p k s u := by
  unfold runEvent at h
  dsimp only at h
  split at h <;> cases h
  next u hu => exact ⟨u, hu, rfl⟩

theorem runEvent_inv (h : runEvent e s = .next t) (hs : s.Inv) : t.Inv := by
  cases e with
  | command p => exact runPacket_inv h hs
  | reset =>
    cases h
    obtain ⟨-, -, -, hin, hout, hdict⟩ := hs
    exact resetWith_inv hin hout hdict _
  | abort p k =>
    obtain ⟨u, hu, rfl⟩ := runEvent_abort_next h
    obtain ⟨-, -, -, -, huout, -⟩ := runPacket_inv hu hs
    obtain ⟨-, -, -, hin, hout, hdict⟩ := hs
    rw [runPacket_cfg hu] at huout
    exact resetWith_inv hin ⟨wf_overlay hout.1, below_overlay hout.2 huout.2⟩ hdict _
  | put sp a b => exact hostPut_inv h hs

theorem runEvent_cfg (h : runEvent e s = .next t) : t.cfg = s.cfg := by
  cases e with
  | command p => exact runPacket_cfg h
  | reset => cases h; rfl
  | abort p k =>
    obtain ⟨u, -, rfl⟩ := runEvent_abort_next h
    rfl
  | put sp a b => exact hostPut_cfg h

/-- A step is idle, or takes the host's next event (R81, R253). -/
theorem step_next (h : step s = .next t) :
    t = s ∨ ∃ e rest, s.host = e :: rest ∧ runEvent e { s with host := rest } = .next t := by
  unfold step at h
  split at h
  next => cases h; exact .inl rfl
  next e rest he => exact .inr ⟨e, rest, he, h⟩

end Events

/-- Settles O24: an instruction keeps the invariant by its effect, the other events by the laws of the memories. -/
theorem stepKeepsInvariant : Obligations.StepKeepsInvariant := by
  intro s t hs h
  rcases step_next h with rfl | ⟨e, rest, -, h⟩
  · exact hs
  · exact runEvent_inv h hs

/-- Settles O18. -/
theorem frameOfEveryInstruction : Obligations.FrameOfEveryInstruction := by
  refine ⟨fun i s t h => ?_, fun s t h => ?_⟩
  · obtain ⟨hcfg, hin, hdict, hport, hhost, hout⟩ := (exec_effect h).frame
    exact ⟨hcfg, hin, hdict, hport, hhost, fun hw a => by rw [hout hw]⟩
  · rcases step_next h with rfl | ⟨e, rest, -, h⟩
    · rfl
    · exact runEvent_cfg (s := { s with host := rest }) h

/-! ### How the stream moves -/

/-- A `FAULT` consumes nothing. -/
theorem bitsConsumed_fault (i : Instr) (s : State) : bitsConsumed i s .fault = 0 := by
  unfold bitsConsumed
  split <;> rfl

/-- Where the stream registers and `IN` stay, the stream stays. -/
theorem streamAdvanced_refl (s : State) : StreamAdvanced s s 0 := ⟨rfl, fun k _ => by rw [Nat.zero_add]⟩

/-- Settles O39: every effect but a copy, a new chunk and a restored checkpoint stages and consumes as `Reads` says, or leaves
the stream. -/
theorem streamAdvances : Obligations.StreamAdvances := by
  intro i s t ⟨hs, hclear⟩ h hrestore hother
  cases exec_effect h with
  | refused hf => exact ⟨_, rfl, bitsConsumed_fault i s ▸ streamAdvanced_refl s⟩
  | raised c => exact ⟨_, rfl, bitsConsumed_fault i s ▸ streamAdvanced_refl s⟩
  | streamed x st v hst hr => exact ⟨_, rfl, hr.streamAdvanced hs.1.2.1 hs.1⟩
  | expanded dest bytes v hw hn hd => exact ⟨_, rfl, hn .ok ▸ streamAdvanced_refl s⟩
  | copied dest cnt hi => exact absurd hi (hother dest cnt).1
  | started base len hi => exact absurd hi (hother base len).2.1
  | reseated base len hi => exact absurd hi (hother base len).2.2
  | saved hi => exact ⟨_, rfl, hi ▸ streamAdvanced_refl s⟩
  | restored hi => exact absurd hi hrestore

/-- Settles O21: staging moves bytes from `remaining` to behind `cursor`, and so does a copy of bytes that exist. -/
theorem chunkEndConstant : Obligations.ChunkEndConstant := by
  intro i s t h hrestore hother
  cases exec_effect h with
  | streamed x st v hst hr => exact hr.chunkEnd
  | copied dest cnt hi hd hc => exact copyBody_chunkEnd hc
  | started base len hi => exact absurd hi (hother base len).1
  | reseated base len hi => exact absurd hi (hother base len).2
  | restored hi => exact absurd hi hrestore
  | refused | raised | expanded | saved => rfl

/-! ### The writers of the flags -/

/-- Raising sets the latch, and the cause only with it (R242). -/
theorem raise_faultCause_changes {c : Cause} {s : State} (h : s.faultCause ≠ (raise c s).faultCause) : s.fault ≠ (raise c s).fault := by
  intro hf
  rw [raise_fault] at hf
  rw [raise_faultCause, if_pos hf] at h
  exact h rfl

/-- Who writes `ckValid` and the bank (R28). -/
theorem Effect.checkpoint {i : Instr} {s t : State} (h : Effect i s t) :
    (t.ckValid = s.ckValid ∨ (t.ckValid = true ∧ i = .save) ∨
      (t.ckValid = false ∧ ∃ base len, i = .init base len ∨ i = .reseat base len)) ∧
    (i ≠ .save → t.ck = s.ck) := by
  cases h with
  | started base len hi => exact ⟨.inr (.inr ⟨rfl, base, len, .inl hi⟩), fun _ => rfl⟩
  | reseated base len hi => exact ⟨.inr (.inr ⟨rfl, base, len, .inr hi⟩), fun _ => rfl⟩
  | saved hi => exact ⟨.inr (.inl ⟨rfl, hi⟩), fun hne => absurd hi hne⟩
  | refused | raised | streamed | expanded | copied | restored => exact ⟨.inl rfl, fun _ => rfl⟩

/-- Who writes the latch (R29, R242): nobody, a fault taken, a session started. -/
theorem Effect.latch {i : Instr} {s t : State} (h : Effect i s t) :
    (t.fault = s.fault ∧ t.faultCause = s.faultCause) ∨ (∃ c, t = raise c s) ∨
      (t.fault = false ∧ ∃ base len, i = .init base len) := by
  cases h with
  | raised c => exact .inr (.inl ⟨c, rfl⟩)
  | started base len hi => exact .inr (.inr ⟨rfl, base, len, hi⟩)
  | refused | streamed | expanded | copied | reseated | saved | restored => exact .inl ⟨rfl, rfl⟩

/-- Settles O19. -/
theorem flagWriters : Obligations.FlagWriters := by
  intro i s t h
  obtain ⟨hvalid, hbank⟩ := (exec_effect h).checkpoint
  refine ⟨fun h0 h1 => ?_, fun h1 h0 => ?_, hbank, fun h0 h1 => ?_, fun h1 h0 => ?_, fun hne => ?_⟩
  · rcases hvalid with hv | ⟨-, hi⟩ | ⟨hv, -⟩
    · simp [hv, h0] at h1
    · exact hi
    · simp [hv] at h1
  · rcases hvalid with hv | ⟨hv, -⟩ | ⟨-, hi⟩
    · simp [hv, h1] at h0
    · simp [hv] at h0
    · exact hi
  · rcases (exec_effect h).latch with ⟨hf, -⟩ | ⟨c, rfl⟩ | ⟨hf, -⟩
    · simp [hf, h0] at h1
    · exact raise_answeredFault c s
    · simp [hf] at h1
  · rcases (exec_effect h).latch with ⟨hf, -⟩ | ⟨c, rfl⟩ | ⟨-, hi⟩
    · simp [hf, h1] at h0
    · simp at h0
    · exact hi
  · rcases (exec_effect h).latch with ⟨-, hc⟩ | ⟨c, rfl⟩ | ⟨-, hi⟩
    · exact absurd hc.symm hne
    · exact .inl (raise_faultCause_changes hne)
    · exact .inr hi

/-! ### The optional units and the stream registers -/

/-- An expansion neither reads nor writes the stream registers. -/
theorem runBody_withStream (e : Entry) (ops : XOperands) (s : State) (x : Stream) :
    runBody e ops (s.withStream x) = (runBody e ops s).withStream x := by
  rw [runBody_eq_expand, runBody_eq_expand]
  unfold expand
  rw [withStream_cfg]
  split
  next => dsimp only; split <;> rfl
  next => rfl

/-- The latch is tested without reading the stream registers. -/
theorem unlessLatched_withStream {s : State} {x : Stream} {run run' : Result} (h : run' = Result.mapNext (State.withStream · x) run) :
    unlessLatched (s.withStream x) run' = Result.mapNext (State.withStream · x) (unlessLatched s run) := by
  cases hf : s.fault with
  | false => rw [unlessLatched_clear hf, unlessLatched_clear (s := s.withStream x) hf, h]
  | true => rw [unlessLatched_set hf, unlessLatched_set (s := s.withStream x) hf]; rfl

/-- The checks of a transform do not read the stream registers either. -/
theorem transformGuard_withStream (ops : XOperands) (s run : State) (x : Stream) :
    transformGuard ops (s.withStream x) (run.withStream x) = Result.mapNext (State.withStream · x) (transformGuard ops s run) := by
  refine unlessLatched_withStream ?_
  rw [withStream_cfg]
  split_ifs <;> rfl

theorem execXform_withStream (tid len : Byte) (word dest : Operand) (s : State) (x : Stream) :
    execXform tid len word dest (s.withStream x) = Result.mapNext (State.withStream · x) (execXform tid len word dest s) := by
  unfold execXform
  dsimp only
  rw [← transformGuard_withStream, withStream_cfg]
  congr 1
  split
  next => rfl
  next =>
    split
    next => rfl
    next => exact runBody_withStream ..

theorem execCtx_withStream (mode : BitVec 6) (p1 p2 : Byte) (s : State) (x : Stream) :
    execCtx mode p1 p2 (s.withStream x) = Result.mapNext (State.withStream · x) (execCtx mode p1 p2 s) := by
  refine unlessLatched_withStream ?_
  rw [withStream_cfg]
  split_ifs <;> rfl

theorem exec_entry_withStream {i : Instr} {e : Entry} (he : entryOf i = some e) (s : State) (x : Stream) :
    exec i (s.withStream x) = Result.mapNext (State.withStream · x) (exec i s) := by
  rw [exec_entry he, exec_entry he]
  unfold runEntry
  rw [← transformGuard_withStream, ← runBody_withStream, withStream_port]

/-- Settles O20. -/
theorem optionalUnitsApart : Obligations.OptionalUnitsApart := by
  intro i s x hi
  cases he : entryOf i with
  | some e => exact exec_entry_withStream he s x
  | none =>
    cases i with
    | ctx mode p1 p2 => exact execCtx_withStream mode p1 p2 s x
    | xform tid len word dest => exact execXform_withStream tid len word dest s x
    | _ => simp [ofOptionalUnit, entryOf] at hi he

/-! ### The register map -/

/-- `STATUS` as a number (R33). -/
theorem statusReg_eq (s : State) :
    s.statusReg.setWidth 64 = BitVec.ofNat 64 (16 * s.faultCause.toNat + 2 * s.ckValid.toNat + s.fault.toNat) := by
  unfold State.statusReg
  generalize s.faultCause = c, s.ckValid = v, s.fault = f
  revert c v f
  decide

/-- A register that `RDREG` knows is answered, in every state (R115). -/
theorem exec_rdreg_of_register {s : State} {sel : BitVec 6} {v : Value} (h : s.register sel.toNat = some v) :
    exec (.rdreg sel) s = .next (s.answered s.strm .ok v) := by
  show execRdreg sel s = _
  rw [execRdreg, h]
  rfl

/-- The numbers above 8 are reserved (R32). -/
theorem register_reserved {s : State} {n : Nat} (h : 8 < n) : s.register n = none := by
  obtain ⟨k, rfl⟩ : ∃ k, n = k + 9 := ⟨n - 9, by omega⟩
  rfl

/-- A fault taken, whether or not one is latched (R242). -/
theorem raise_illegalField_eq (s : State) :
    raise .illegalField s = if s.fault then s.answered s.strm .fault 2 else s.faulted .illegalField := by
  by_cases hf : s.fault = true
  · rw [if_pos hf]
    simp [raise, respond, State.latch, State.answered, hf, Cause.code]
  · rw [if_neg hf, raise_eq_faulted _ _ (by simpa using hf)]

/-- Settles O31. -/
theorem rdregReadsRegisters : Obligations.RdregReadsRegisters := by
  intro s
  refine ⟨rfl, rfl, rfl, rfl, ?_, rfl, rfl, rfl, rfl, fun sel hsel => ?_⟩
  · exact exec_rdreg_of_register (by rw [← statusReg_eq]; rfl)
  · show execRdreg sel s = _
    rw [execRdreg, register_reserved hsel, raise_illegalField_eq]

/-! ### Reset -/

theorem nil_ok (c : Config) : Memory.Ok c [] := ⟨⟨.nil, nofun⟩, nofun⟩

/-- Without a checkpoint the bank reads as 0 (R28, R32). -/
theorem register_bank_without_checkpoint {s : State} (h : s.ckValid = false) {sel : Nat} (h5 : 5 ≤ sel) (h8 : sel ≤ 8) :
    s.register sel = some 0 := by
  interval_cases sel <;> simp [State.register, State.bankRead, h]

/-- Settles O10. -/
theorem resetStateValues : Obligations.ResetStateValues :=
  ⟨fun c _ _ _ _ => ⟨rfl, rfl, Nat.sub_self c.w.bits, rfl, rfl, rfl, fun _ => register_bank_without_checkpoint rfl, rfl, rfl, rfl⟩,
    rfl⟩

/-- Settles O25. -/
theorem resetMeetsInvariant : Obligations.ResetMeetsInvariant :=
  ⟨resetWith_inv (nil_ok _) (nil_ok _) (nil_ok _) _, fun c h => resetWith_inv (nil_ok c) (nil_ok c) (nil_ok c) h⟩

/-! ### `COPY` on a byte boundary -/

section Copy

variable {s : State} {cnt j b : Nat}

/-- The drained part of a copy: eight staged bits to a byte (R171). -/
theorem copyBody_getLsbD_drained (hj : j < (copyBody cnt s).1.length) (hd : j < s.avail / 8) (hb : b < 8) :
    ((copyBody cnt s).1[j]).getLsbD b = s.strm.acc.getLsbD (s.strm.bitPos + (8 * j + b)) := by
  have hl := (drain_eq (w := s.cfg.w) (x := s.strm) cnt).1
  have hj' : j < (s.strm.drain s.cfg.w cnt).1.length := by
    rw [hl]
    exact lt_min (copyBody_length cnt s ▸ hj) hd
  rw [← drain_getLsbD hj' hb]
  simp only [copyBody, List.getElem_append_left hj']

/-- The direct part of a copy: bytes of `IN` from `cursor` upwards (R171). -/
theorem copyBody_getElem_direct (hj : j < (copyBody cnt s).1.length) (hd : s.avail / 8 ≤ j) :
    (copyBody cnt s).1[j] = s.inMem.read (s.strm.cursor + (j - s.avail / 8)) := by
  obtain ⟨hl, hx⟩ := drain_eq (w := s.cfg.w) (x := s.strm) cnt
  have hj' := copyBody_length cnt s ▸ hj
  have hmin : min cnt (s.strm.avail s.cfg.w / 8) = s.avail / 8 := min_eq_right (Nat.le_of_lt (Nat.lt_of_le_of_lt hd hj'))
  simp only [copyBody]
  rw [List.getElem_append_right (by rw [hl, hmin]; exact hd), getElem_readBytes, hx, consume_cursor, hl, hmin]

/-- On a byte boundary a copy writes the next bytes of the stream (R53, R171). -/
theorem copyBody_getLsbD_aligned (ha : s.avail % 8 = 0) (hj : j < (copyBody cnt s).1.length) (hb : b < 8) :
    ((copyBody cnt s).1[j]).getLsbD b = s.streamBit (8 * j + b) := by
  unfold State.streamBit
  by_cases hd : j < s.avail / 8
  · rw [copyBody_getLsbD_drained hj hd hb, if_pos (by omega)]
  · rw [copyBody_getElem_direct hj (by omega), if_neg (by omega)]
    have haddr : (8 * j + b - s.avail) / 8 = j - s.avail / 8 := by omega
    have hbit : (8 * j + b - s.avail) % 8 = b := by omega
    rw [haddr, hbit]

/-- On a byte boundary a copy consumes the bytes it writes and leaves the rest of the stream (R24, R171). -/
theorem copyBody_streamAdvanced (hs : s.strm.Ok s.cfg) (hc : cnt ≤ s.rembytes) (ha : s.avail % 8 = 0) :
    StreamAdvanced s (s.withStream (copyBody cnt s).2) (8 * cnt) := by
  have hp := hs.2.1
  have hav : s.avail = s.cfg.w.bits - s.strm.bitPos := rfl
  have hrem : s.rembytes = s.strm.remaining + s.avail / 8 := rfl
  have htot : s.total = 8 * s.strm.remaining + s.avail := rfl
  rw [copyBody_strm]
  generalize hk : min cnt (s.avail / 8) = k
  generalize hx : Stream.mk s.strm.acc (s.strm.bitPos + 8 * k) (s.strm.cursor + (cnt - k)) (s.strm.remaining - (cnt - k)) = x
  have hxav : x.avail s.cfg.w = s.avail - 8 * k := by
    subst hx
    show s.cfg.w.bits - (s.strm.bitPos + 8 * k) = _
    omega
  refine ⟨?_, fun i _ => ?_⟩
  · have hxtot : x.total s.cfg.w = 8 * (s.strm.remaining - (cnt - k)) + x.avail s.cfg.w := by subst hx; rfl
    rw [withStream_total]
    omega
  · unfold State.streamBit
    rw [withStream_avail, hxav, withStream_strm, withStream_inMem, ← hx]
    by_cases hi : i < s.avail - 8 * k
    · have hidx : s.strm.bitPos + 8 * k + i = s.strm.bitPos + (8 * cnt + i) := by omega
      rw [if_pos hi, if_pos (by omega), hidx]
    · have haddr : s.strm.cursor + (cnt - k) + (i - (s.avail - 8 * k)) / 8 = s.strm.cursor + (8 * cnt + i - s.avail) / 8 := by omega
      have hbit : (i - (s.avail - 8 * k)) % 8 = (8 * cnt + i - s.avail) % 8 := by omega
      rw [if_neg hi, if_neg (by omega), haddr, hbit]

/-- A copy within its bounds completes (R89, R171). -/
theorem exec_copy {dest cnt : Operand} (hs : s.Ready) (hd : dest.toNat + cnt.toNat < 2 ^ s.cfg.aw) (hc : cnt.toNat ≤ s.rembytes) :
    exec (.copy dest cnt) s = .next (respond .ok 0
      { s.withStream (copyBody cnt.toNat s).2 with outMem := s.outMem.writeBytes dest.toNat (copyBody cnt.toNat s).1 }) := by
  obtain ⟨⟨hx, -⟩, hf⟩ := hs
  have hend : (copyBody cnt.toNat s).2.cursor ≤ spaceSize s.cfg := by
    have := (copyBody_ok hx hc).2.2
    omega
  show execCopy dest cnt s = _
  rw [execCopy, unlessLatched_clear hf, if_pos ((spanFits_iff ..).2 hd), if_neg (Nat.not_lt.2 hc)]
  exact endRead_inside hend

/-- Settles O48. -/
theorem alignedCopyIsStream : Obligations.AlignedCopyIsStream := by
  intro dest cnt s hs hd hc ha
  refine ⟨_, exec_copy hs hd hc, copyBody_streamAdvanced hs.1.1 hc ha, fun j b hj hb => ?_⟩
  have hl := copyBody_length cnt.toNat s
  rw [respond_outMem, read_writeBytes, dif_pos (by omega)]
  simp only [Nat.add_sub_cancel_left]
  exact copyBody_getLsbD_aligned ha (by omega) hb

end Copy

end Sys2Proof.Machine.Effects

/-!
What the commands read of `IN` and what they write of `OUT` (20_memory.md): the fields of the stream that `GET`, `TAKE`, `READ`, `SREAD` and
`SGET` answer, the single bytes of `WARMUP` and `PULL`, the bytes of `COPY`, the host's writes, and that nothing of `IN` outside the unread
part of the chunk is read.
-/

namespace Sys2Proof.Machine.MemoryAccess

open Sys2Proof Sys2Proof.Machine Sys2Proof.Machine.Laws Sys2Proof.Machine.Effects

/-! ### Commands that read within the space -/

section Completing

variable {s : State} {x : Stream} {st : Status} {v : Value} {n limit : Nat}

/-- A command that leaves registers within their widths has read only addresses that exist (R22, R58). -/
theorem endRead_answered (hx : x.Ok s.cfg) : endRead s (s.answered x st v) = .next (s.answered x st v) := by
  obtain ⟨-, -, hend⟩ := hx
  exact endRead_inside (show x.cursor ≤ spaceSize s.cfg by omega)

/-- An unchecked read that passes its checks and leaves registers within their widths completes (R88, R131). -/
theorem checkedRead_answered (hf : s.fault = false) (hl : n ≤ limit) (ht : n ≤ s.total) (hx : x.Ok s.cfg) :
    checkedRead limit n s (endRead s (s.answered x st v)) = .next (s.answered x st v) := by
  rw [checkedRead_passes hf hl ht, endRead_answered hx]

end Completing

/-! ### Fields of the stream -/

section Field

variable {s t : State} {a b n target : Nat} {u v : Value}

/-- A field has no bits beyond its width. -/
theorem fieldAt_eq_ofNat {k : Nat} (h : s.FieldAt 0 n v) (hk : k < 2 ^ n) (hbits : ∀ i, i < n → s.streamBit i = k.testBit i) :
    v = BitVec.ofNat 64 k := by
  refine BitVec.eq_of_getLsbD_eq fun i hi => ?_
  rw [h i, Nat.zero_add, BitVec.getLsbD_ofNat, decide_eq_true hi, Bool.true_and]
  by_cases hin : i < n
  · rw [decide_eq_true hin, Bool.true_and, hbits i hin]
  · have hpow : k < 2 ^ i := Nat.lt_of_lt_of_le hk (Nat.pow_le_pow_right (by omega) (by omega))
    rw [decide_eq_false hin, Bool.false_and, Nat.testBit_eq_false_of_lt hpow]

/-- Two fields, one right after the other, make up one field (R53). -/
theorem fieldAt_append (hu : s.FieldAt 0 a u) (hv : s.FieldAt a b v) (hab : a + b ≤ 64) : s.FieldAt 0 (a + b) (u ||| (v <<< a)) := by
  intro i
  rw [BitVec.getLsbD_or, BitVec.getLsbD_shiftLeft, hu i, hv (i - a)]
  by_cases hi : i < a
  · have : i < a + b := by omega
    simp [hi, this]
  · have hidx : a + (i - a) = 0 + i := by omega
    have hlt : i - a < b ↔ i < a + b := by omega
    by_cases hin : i < a + b
    · have : i < 64 := by omega
      simp [hi, hidx, hlt, hin, this]
    · simp [hi, hlt, hin]

/-- Staging a target of bits of the stream puts them all into the window (R131, R150). -/
theorem le_staged_avail (hs : s.strm.Ok s.cfg) (hw : target + 7 ≤ s.cfg.w.bits) (hn : n ≤ target) (ht : n ≤ s.total) :
    n ≤ (s.staged target).avail := by
  obtain ⟨-, hb⟩ := bytesToStage_fits hs.2.1 hw
  have hr := bytesToStage_reaches (w := s.cfg.w) (target := target) (x := s.strm)
  have ht' : n ≤ s.strm.total s.cfg.w := ht
  show n ≤ (s.strm.stage s.cfg.w s.inMem target).avail s.cfg.w
  rw [stage_eq_loadMany hs.2.1 hw, loadMany_avail hb hs.2.1]
  omega

/-- What a peek after staging answers: the field at the read position (R53). -/
theorem staged_peek_fieldAt (hs : s.strm.Ok s.cfg) (hw : target + 7 ≤ s.cfg.w.bits) (hn : n ≤ target) (ht : n ≤ s.total) :
    s.FieldAt 0 n ((s.staged target).peek n) := by
  have h64 := bits_cases s.cfg.w
  intro i
  rw [peek_fieldAt (le_staged_avail hs hw hn ht) (by omega) i, streamBit_staged hs hw]

/-- The staged registers in the words of the statements. -/
theorem staged_eq (hs : s.strm.Ok s.cfg) (hw : target + 7 ≤ s.cfg.w.bits) :
    s.staged target = s.withStream (stagedStream s target s.strm) :=
  congrArg s.withStream (stage_eq_loadMany hs.2.1 hw)

theorem stagedStream_ok (hs : s.strm.Ok s.cfg) (hw : target + 7 ≤ s.cfg.w.bits) : (stagedStream s target s.strm).Ok s.cfg := by
  rw [stagedStream, ← stage_eq_loadMany hs.2.1 hw]
  exact stage_ok hs hw

/-- Staging, then consuming bits that are there, leaves registers within their widths. -/
theorem stagedStream_consume_ok (hs : s.strm.Ok s.cfg) (hw : target + 7 ≤ s.cfg.w.bits) (hn : n ≤ target) (ht : n ≤ s.total) :
    ((stagedStream s target s.strm).consume n).Ok s.cfg := by
  refine consume_ok (stagedStream_ok hs hw) ?_
  have := le_staged_avail hs hw hn ht
  rwa [staged_eq hs hw] at this

/-- Staging, then consuming bits that are there, advances the stream by them (R24, R26). -/
theorem stagedStream_consume_advanced (hs : s.strm.Ok s.cfg) (hw : target + 7 ≤ s.cfg.w.bits) (hn : n ≤ target) (ht : n ≤ s.total) :
    StreamAdvanced s (s.withStream ((stagedStream s target s.strm).consume n)) n := by
  rw [stagedStream, ← stage_eq_loadMany hs.2.1 hw]
  exact (Reads.of_stage_consume (g := True) hw fun _ => le_staged_avail hs hw hn ht).streamAdvanced trivial hs

/-- A field of the advanced stream is a field of the stream. -/
theorem fieldAt_of_advanced (h : StreamAdvanced s t a) (hb : b ≤ t.total) (hv : t.FieldAt 0 b v) : s.FieldAt a b v := by
  intro i
  rw [hv i, Nat.zero_add]
  by_cases hi : i < b
  · rw [h.2 i (by omega)]
  · simp [hi]

end Field

/-! ### `GET`, `TAKE`, `SREAD`, `SGET` -/

/-- Settles O33: `GET` and `TAKE` peek at the same staged bits. -/
theorem getAndTakeField : Obligations.GetAndTakeField := by
  rintro n s ⟨⟨hs, -⟩, hf⟩ hl ht
  have hw : n.toNat + 1 + 7 ≤ s.cfg.w.bits := by have := ndir_le s.cfg; omega
  have hfill : s.filled n.toNat = s.withStream (stagedStream s (n.toNat + 1) s.strm) := staged_eq hs hw
  refine ⟨(s.filled n.toNat).peek n.toNat, staged_peek_fieldAt hs hw (by omega) ht, ?_, ?_⟩
  · show execGet n s = _
    rw [execGet, hfill]
    exact checkedRead_answered hf hl ht (stagedStream_ok hs hw)
  · show execTake n s = _
    rw [execTake, takeField, hfill]
    exact checkedRead_answered hf hl ht (stagedStream_consume_ok hs hw (by omega) ht)

/-- A safe read of bits that the stream has completes (R150, R151). -/
theorem safeField_enough {s : State} {n : BitVec 6} {done : State → State} (hs : s.strm.Ok s.cfg) (hf : s.fault = false)
    (hl : n.toNat ≤ ndir s.cfg) (ht : n.toNat ≤ s.total) :
    safeField n s done = endRead s (done (s.withStream (stagedStream s n.toNat s.strm))) := by
  have hw : n.toNat + 7 ≤ s.cfg.w.bits := by have := ndir_le s.cfg; omega
  rw [safeField, unlessLatched_clear hf, if_neg (Nat.not_lt.2 hl), ← staged_eq hs hw]
  exact if_neg (Nat.not_lt.2 (le_staged_avail hs hw (Nat.le_refl _) ht))

/-- Settles O41: as for `GET` and `TAKE`, with the fewest bytes that reach `n` bits. -/
theorem safeReadsReturnField : Obligations.SafeReadsReturnField := by
  rintro n s ⟨⟨hs, -⟩, hf⟩ hl ht
  have hw : n.toNat + 7 ≤ s.cfg.w.bits := by have := ndir_le s.cfg; omega
  refine ⟨(s.staged n.toNat).peek n.toNat, staged_peek_fieldAt hs hw (Nat.le_refl _) ht, ?_, ?_⟩ <;> rw [staged_eq hs hw]
  · show execSread n s = _
    rw [execSread, safeField_enough hs hf hl ht]
    exact endRead_answered (stagedStream_consume_ok hs hw (Nat.le_refl _) ht)
  · show execSget n s = _
    rw [execSget, safeField_enough hs hf hl ht]
    exact endRead_answered (stagedStream_ok hs hw)

/-! ### `READ` -/

section Read

variable {s : State} {n : Nat}

/-- One piece of a `READ` (R134): the field, and the registers after it. -/
theorem takeField_spec (hs : s.strm.Ok s.cfg) (hw : n + 8 ≤ s.cfg.w.bits) (ht : n ≤ s.total) :
    s.FieldAt 0 n (takeField n s).1 ∧ (takeField n s).2 = s.withStream ((stagedStream s (n + 1) s.strm).consume n) :=
  ⟨staged_peek_fieldAt (target := n + 1) hs hw (by omega) ht, congrArg (State.consume · n) (staged_eq (target := n + 1) hs hw)⟩

/-- The registers after a `READ` of `n` bits, in one piece or in two (R135). -/
def readStream (s : State) (n : Nat) : Stream :=
  if s.cfg.w = .w64 ∨ n ≤ 16 then (stagedStream s (n + 1) s.strm).consume n
  else
    let lo := (stagedStream s 17 s.strm).consume 16
    (stagedStream s (n - 15) lo).consume (n - 16)

/-- A `READ` (R135): the field, the registers after it, and that they fit their widths. -/
theorem readField_spec (hs : s.strm.Ok s.cfg) (hn : n ≤ 32) (ht : n ≤ s.total) :
    s.FieldAt 0 n (readField n s).1 ∧ (readField n s).2 = s.withStream (readStream s n) ∧ (readStream s n).Ok s.cfg := by
  have hb := bits_cases s.cfg.w
  unfold readField readStream
  split
  next hone =>
    have hw : n + 8 ≤ s.cfg.w.bits := by
      rcases hone with h | h
      · rw [h]; show n + 8 ≤ 64; omega
      · omega
    obtain ⟨hv, ht'⟩ := takeField_spec hs hw ht
    exact ⟨hv, ht', stagedStream_consume_ok (target := n + 1) hs hw (by omega) ht⟩
  next htwo =>
    have hlo := stagedStream_consume_advanced (n := 16) (target := 17) hs (by omega) (by omega) (by omega)
    have hlok := stagedStream_consume_ok (n := 16) (target := 17) hs (by omega) (by omega) (by omega)
    obtain ⟨hvlo, htlo⟩ := takeField_spec (n := 16) hs (by omega) (by omega)
    dsimp only
    rw [htlo]
    generalize (stagedStream s 17 s.strm).consume 16 = lo at hlo hlok
    have htot : n - 16 ≤ (s.withStream lo).total := by have := hlo.1; omega
    obtain ⟨hvhi, hthi⟩ := takeField_spec (s := s.withStream lo) (n := n - 16) hlok (by rw [withStream_cfg]; omega) htot
    have hsplit : 16 + (n - 16) = n := by omega
    have hpred : n - 15 = n - 16 + 1 := by omega
    refine ⟨?_, ?_, ?_⟩
    · have := fieldAt_append hvlo (fieldAt_of_advanced hlo htot hvhi) (by omega)
      rwa [hsplit] at this
    · rw [hthi, hpred]; rfl
    · rw [hpred]
      exact stagedStream_consume_ok (s := s.withStream lo) (target := n - 16 + 1) hlok (by rw [withStream_cfg]; omega) (by omega) htot

/-- A `READ` of bits that the stream has completes (R88, R135). -/
theorem exec_read {n : BitVec 6} (hs : s.Ready) (hn : n.toNat ≤ 32) (ht : n.toNat ≤ s.total) :
    exec (.read n) s = .next (s.answered (readStream s n.toNat) .ok (readField n.toNat s).1) := by
  obtain ⟨⟨hx, -⟩, hf⟩ := hs
  obtain ⟨-, hstrm, hok⟩ := readField_spec hx hn ht
  show execRead n s = _
  rw [execRead, hstrm]
  exact checkedRead_answered hf hn ht hok

/-- After a `READ` the block is ready again, with the stream advanced by the field (R24, R135). -/
theorem exec_read_ready {n : BitVec 6} (hs : s.Ready) (hn : n.toNat ≤ 32) (ht : n.toNat ≤ s.total) :
    ∃ t v, exec (.read n) s = .next t ∧ t.resp = some ⟨.ok, v⟩ ∧ s.FieldAt 0 n.toNat v ∧ t.Ready ∧ StreamAdvanced s t n.toNat := by
  have ⟨hinv, hf⟩ := hs
  have he := exec_read hs hn ht
  obtain ⟨r, hr, hadv⟩ := streamAdvances (.read n) s _ hs he nofun fun _ _ => ⟨nofun, nofun, nofun⟩
  cases hr
  exact ⟨_, _, he, rfl, (readField_spec hinv.1 hn ht).1, ⟨(exec_effect he).inv hinv, hf⟩, hadv⟩

end Read

/-- Settles O34. -/
theorem readReadsField : Obligations.ReadReadsField := by
  intro n s hs hn ht
  have ⟨⟨hx, _⟩, _⟩ := hs
  exact ⟨_, (readField_spec hx hn ht).1, exec_read hs hn ht⟩

/-- Settles O38, by induction on the fields: a `READ` answers the first one and advances the stream to the others. -/
theorem readRoundTrip : Obligations.ReadRoundTrip := by
  intro fields
  induction fields with
  | nil => exact fun s _ _ _ _ => ⟨s, rfl⟩
  | cons f rest ih =>
    obtain ⟨w, k⟩ := f
    intro s hs hfields hsum hbits
    obtain ⟨-, hw, hk⟩ := hfields (w, k) List.mem_cons_self
    dsimp only at hw hk
    simp only [List.map_cons, List.sum_cons] at hsum hbits ⊢
    have hn : (BitVec.ofNat 6 w).toNat = w := Nat.mod_eq_of_lt (by omega)
    obtain ⟨t, v, he, hresp, hv, ht, htot, hadv⟩ := exec_read_ready (n := BitVec.ofNat 6 w) hs (by omega) (by omega)
    rw [hn] at hv htot hadv
    have hval : v = BitVec.ofNat 64 k :=
      fieldAt_eq_ofNat hv hk fun i hi => by rw [hbits i (by omega), packedBit, if_pos hi]
    obtain ⟨u, hu⟩ := ih t ht (fun f hf => hfields f (List.mem_cons_of_mem _ hf)) (by omega) fun i hi => by
      rw [hadv i (by omega), hbits (w + i) (by omega), packedBit, if_neg (by omega), Nat.add_sub_cancel_left]
    exact ⟨u, by rw [runInstrs, he]; simp only [hu, hresp, hval]⟩

/-! ### Single bytes -/

/-- `WARMUP` as a case split on the window (R112). -/
theorem execWarmup_eq {s : State} (hs : s.Ready) :
    execWarmup s = .next (
      if s.strm.bitPos < s.cfg.w.bits then s.answered s.strm .ok 0
      else if s.strm.remaining = 0 then s.answered s.strm .noData 0
      else s.answered (s.strm.load1 s.cfg.w s.inMem) .ok 0) := by
  obtain ⟨⟨hx, -⟩, hf⟩ := hs
  have hw := bits_cases s.cfg.w
  have hav : s.avail = s.cfg.w.bits - s.strm.bitPos := rfl
  rw [execWarmup, unlessLatched_clear hf]
  by_cases hb : s.strm.bitPos < s.cfg.w.bits
  · rw [if_pos hb, if_neg (by omega)]
    rfl
  · rw [if_neg hb, if_pos (by omega)]
    by_cases hr : s.strm.remaining = 0
    · rw [if_pos hr, if_pos hr]
      rfl
    · rw [if_neg hr, if_neg hr]
      exact endRead_answered (load1_ok hx (by omega) (by omega))

/-- `PULL` as a case split on the input and the room (R152). -/
theorem execPull_eq {s : State} (hs : s.Ready) :
    execPull s = .next (
      if s.strm.remaining = 0 then s.answered s.strm .noData 0
      else if s.strm.bitPos < 8 then s.faulted .noRoom
      else s.answered (s.strm.load1 s.cfg.w s.inMem) .ok 0) := by
  obtain ⟨⟨hx, -⟩, hf⟩ := hs
  rw [execPull, unlessLatched_clear hf]
  by_cases hr : s.strm.remaining = 0
  · rw [if_pos hr, if_pos hr]
    rfl
  · rw [if_neg hr, if_neg hr]
    by_cases hb : s.strm.bitPos < 8
    · rw [if_pos hb, if_pos hb, raise_eq_faulted _ _ hf]
    · rw [if_neg hb, if_neg hb]
      exact endRead_answered (load1_ok hx (by omega) (by omega))

/-- Settles O43: the byte that enters is that of `load1` (R54); an empty window has `bitPos` at `W`. -/
theorem singleByteLoads : Obligations.SingleByteLoads := by
  intro s hs
  refine ⟨(execWarmup_eq hs).trans ?_, execPull_eq hs⟩
  have ⟨⟨⟨_, hp, _⟩, _⟩, _⟩ := hs
  by_cases hb : s.strm.bitPos < s.cfg.w.bits
  · rw [if_pos hb, if_pos hb]
  · have hempty : s.strm.bitPos = s.cfg.w.bits := by omega
    rw [if_neg hb, if_neg hb, Stream.load1, hempty]

/-! ### `COPY` -/

/-- Settles O47. -/
theorem copyWritesBytes : Obligations.CopyWritesBytes := by
  intro dest cnt s hs hd hc k
  have hl := copyBody_length cnt.toNat s
  refine ⟨s.outMem.writeBytes dest.toNat (copyBody cnt.toNat s).1, ?_, fun j b hj hb => ?_, fun j hk hj => ?_, fun a ha => ?_⟩
  · rw [exec_copy hs hd hc, copyBody_strm]
    rfl
  · rw [read_writeBytes, dif_pos (by omega)]
    simp only [Nat.add_sub_cancel_left]
    rw [copyBody_getLsbD_drained (by omega) (by omega) hb, Nat.add_assoc]
  · have hdrained : k = s.avail / 8 := by omega
    rw [read_writeBytes, dif_pos (by omega)]
    simp only [Nat.add_sub_cancel_left]
    rw [copyBody_getElem_direct (by omega) (by omega), hdrained]
  · rw [read_writeBytes, dif_neg (by omega)]

/-! ### Host writes -/

/-- A read after a host write (R63). -/
theorem read_write (m : Memory) (a x : Nat) (b : Byte) : (m.write a b).read x = if x = a then b else m.read x := by
  split
  next h => rw [h, read_write_same]
  next h => exact read_write_other h

/-- The host's write is what the step is (R63). -/
theorem step_put {s : State} {sp : Space} {a : Nat} {b : Byte} {rest : List HostEvent} (h : s.host = .put sp a b :: rest) :
    step s = hostPut sp a b { s with host := rest } := by
  rw [step, h]
  rfl

/-- An address that does not exist stops the model (R50, log 13). -/
theorem hostPut_outside {s : State} {sp : Space} {a : Nat} {b : Byte} (h : ¬ a < 2 ^ s.cfg.aw) :
    hostPut sp a b s = .fault (.noSuchAddress sp) :=
  if_pos (Nat.le_of_not_lt h)

/-- An address that exists is written, in the space that the event names (R63). -/
theorem hostPut_inside {s : State} {a : Nat} (sp : Space) (b : Byte) (h : a < 2 ^ s.cfg.aw) :
    hostPut sp a b s = .next (match sp with
      | .input => { s with inMem := s.inMem.write a b }
      | .output => { s with outMem := s.outMem.write a b }
      | .dict => { s with dictMem := s.dictMem.write a b }) := by
  refine (if_neg (Nat.not_le.2 h)).trans ?_
  cases sp <;> rfl

/-- Settles O12. -/
theorem hostWriteLands : Obligations.HostWriteLands := by
  intro s a b rest
  refine ⟨fun h => ?_, fun h => ?_, fun h => ?_⟩
  · rw [step_put h]
    split
    next ha => exact ⟨_, hostPut_inside .input b ha, fun x => read_write ..⟩
    next ha => exact hostPut_outside ha
  · rw [step_put h]
    split
    next ha => exact ⟨_, hostPut_inside .output b ha, fun x => read_write ..⟩
    next ha => exact hostPut_outside ha
  · rw [step_put h]
    split
    next ha => exact ⟨_, hostPut_inside .dict b ha, fun x => read_write ..⟩
    next ha => exact hostPut_outside ha

/-! ### No over-read -/

/-- The state with another content of `IN`. -/
def withIn (m : Memory) (s : State) : State := { s with inMem := m }

section OverRead

variable {m m' : Memory} {w : AccWidth} {s : State} {x : Stream} {i : Instr} {e : Entry}

@[simp] theorem withIn_cfg (m : Memory) (s : State) : (withIn m s).cfg = s.cfg := rfl
@[simp] theorem withIn_strm (m : Memory) (s : State) : (withIn m s).strm = s.strm := rfl
@[simp] theorem withIn_inMem (m : Memory) (s : State) : (withIn m s).inMem = m := rfl
@[simp] theorem withIn_port (m : Memory) (s : State) : (withIn m s).port = s.port := rfl
@[simp] theorem withIn_peek (m : Memory) (s : State) (n : Nat) : (withIn m s).peek n = s.peek n := rfl
@[simp] theorem withIn_register (m : Memory) (s : State) (sel : Nat) : (withIn m s).register sel = s.register sel := rfl

theorem respond_withIn (st : Status) (v : Value) (m : Memory) (s : State) : respond st v (withIn m s) = withIn m (respond st v s) := rfl

/-- Two contents of `IN` agree on the unread part of the chunk of `x` (R58). -/
def SameUnread (m m' : Memory) (x : Stream) : Prop :=
  ∀ a, x.cursor ≤ a → a < x.cursor + x.remaining → m.read a = m'.read a

/-! #### The stream operations -/

/-- `load1` reads the first unread byte. -/
theorem SameUnread.load1_eq (h : SameUnread m m' x) (hr : 0 < x.remaining) : x.load1 w m = x.load1 w m' := by
  rw [Stream.load1, Stream.load1, h x.cursor (Nat.le_refl _) (by omega)]

theorem SameUnread.load1 (h : SameUnread m m' x) (hr : 0 < x.remaining) : SameUnread m m' (x.load1 w m') := by
  intro a hlo hhi
  rw [load1_cursor] at hlo hhi
  rw [load1_remaining] at hhi
  exact h a (by omega) (by omega)

/-- The staging loop reads only unread bytes, and what it leaves unread was unread before. -/
theorem SameUnread.stageLoop (h : SameUnread m m' x) (target fuel : Nat) :
    x.stageLoop w m target fuel = x.stageLoop w m' target fuel ∧ SameUnread m m' (x.stageLoop w m' target fuel) := by
  induction fuel generalizing x with
  | zero => exact ⟨rfl, h⟩
  | succ fuel ih =>
    rw [Stream.stageLoop, Stream.stageLoop]
    split
    next hc =>
      rw [h.load1_eq hc.2]
      exact ih (h.load1 hc.2)
    next => exact ⟨rfl, h⟩

theorem SameUnread.stage_eq (h : SameUnread m m' x) (target : Nat) : x.stage w m target = x.stage w m' target :=
  (h.stageLoop target x.remaining).1

theorem SameUnread.stage (h : SameUnread m m' x) (target : Nat) : SameUnread m m' (x.stage w m' target) :=
  (h.stageLoop target x.remaining).2

/-- Bytes read inside the unread part are the same. -/
theorem readBytes_congr {a k : Nat} (h : ∀ j, j < k → m.read (a + j) = m'.read (a + j)) : m.readBytes a k = m'.readBytes a k :=
  List.ext_getElem (by simp) fun j hj _ => by
    rw [length_readBytes] at hj
    rw [getElem_readBytes, getElem_readBytes, h j hj]

/-! #### The operations on states -/

theorem staged_withIn (h : SameUnread m s.inMem s.strm) (target : Nat) : (withIn m s).staged target = withIn m (s.staged target) :=
  congrArg (fun x => withIn m (s.withStream x)) (h.stage_eq target)

theorem filled_withIn (h : SameUnread m s.inMem s.strm) (n : Nat) : (withIn m s).filled n = withIn m (s.filled n) :=
  staged_withIn h (n + 1)

theorem load1_withIn (h : SameUnread m s.inMem s.strm) (hr : 0 < s.strm.remaining) :
    (withIn m s).withStream ((withIn m s).strm.load1 (withIn m s).cfg.w (withIn m s).inMem) =
      withIn m (s.withStream (s.strm.load1 s.cfg.w s.inMem)) :=
  congrArg (fun x => withIn m (s.withStream x)) (h.load1_eq hr)

theorem takeField_withIn (h : SameUnread m s.inMem s.strm) (n : Nat) :
    takeField n (withIn m s) = ((takeField n s).1, withIn m (takeField n s).2) := by
  rw [takeField, filled_withIn h]
  rfl

theorem readField_withIn (h : SameUnread m s.inMem s.strm) (n : Nat) :
    readField n (withIn m s) = ((readField n s).1, withIn m (readField n s).2) := by
  have hlo : SameUnread m (takeField 16 s).2.inMem (takeField 16 s).2.strm := h.stage (w := s.cfg.w) 17
  unfold readField
  rw [withIn_cfg]
  split
  next => exact takeField_withIn h n
  next =>
    dsimp only
    rw [takeField_withIn h]
    dsimp only
    rw [takeField_withIn hlo]

/-- A copy reads `IN` only inside the unread part, as many bytes of it as `rembytes()` allows. -/
theorem copyBody_withIn (h : SameUnread m s.inMem s.strm) {cnt : Nat} (hc : cnt ≤ s.rembytes) :
    copyBody cnt (withIn m s) = copyBody cnt s := by
  obtain ⟨hl, hx⟩ := drain_eq (w := s.cfg.w) (x := s.strm) cnt
  have hrem : s.rembytes = s.strm.remaining + s.strm.avail s.cfg.w / 8 := rfl
  have hbytes := readBytes_congr (m := m) (m' := s.inMem) (a := (s.strm.drain s.cfg.w cnt).2.cursor)
    (k := cnt - (s.strm.drain s.cfg.w cnt).1.length) fun j hj => by
      rw [hx, consume_cursor]
      rw [hl] at hj
      exact h _ (by omega) (by omega)
  simp only [copyBody, withIn_strm, withIn_cfg, withIn_inMem, hbytes]

/-! #### The checks -/

/-- A test that does not read `IN` chooses the same branch. -/
theorem ite_withIn {p : Prop} [Decidable p] {a b a' b' : Result} (ha : p → a' = Result.mapNext (withIn m) a)
    (hb : ¬p → b' = Result.mapNext (withIn m) b) : (if p then a' else b') = Result.mapNext (withIn m) (if p then a else b) := by
  split
  next h => exact ha h
  next h => exact hb h

/-- The latch is tested without reading `IN`. -/
theorem unlessLatched_withIn {run run' : Result} (h : run' = Result.mapNext (withIn m) run) :
    unlessLatched (withIn m s) run' = Result.mapNext (withIn m) (unlessLatched s run) :=
  ite_withIn (fun _ => rfl) fun _ => h

theorem endRead_withIn (s t : State) : endRead (withIn m s) (withIn m t) = Result.mapNext (withIn m) (endRead s t) := by
  unfold endRead
  rw [withIn_cfg, withIn_strm, withIn_strm]
  split <;> rfl

theorem checkedRead_withIn {limit n : Nat} {run run' : Result} (h : run' = Result.mapNext (withIn m) run) :
    checkedRead limit n (withIn m s) run' = Result.mapNext (withIn m) (checkedRead limit n s run) :=
  unlessLatched_withIn <| ite_withIn (fun _ => rfl) fun _ => ite_withIn (fun _ => rfl) fun _ => h

theorem safeField_withIn {n : BitVec 6} {done : State → State} (h : SameUnread m s.inMem s.strm)
    (hd : ∀ t, done (withIn m t) = withIn m (done t)) :
    safeField n (withIn m s) done = Result.mapNext (withIn m) (safeField n s done) := by
  refine unlessLatched_withIn <| ite_withIn (fun _ => rfl) fun _ => ?_
  rw [staged_withIn h]
  refine ite_withIn (fun _ => ?_) fun _ => ?_
  · rw [respond_withIn, endRead_withIn]
  · rw [hd, endRead_withIn]

/-! #### The transform unit -/

/-- An expansion does not read `IN`. -/
theorem runBody_withIn (e : Entry) (ops : XOperands) (s : State) : runBody e ops (withIn m s) = withIn m (runBody e ops s) := by
  rw [runBody_eq_expand, runBody_eq_expand]
  unfold expand
  rw [withIn_cfg]
  split
  next => dsimp only; split <;> rfl
  next => rfl

theorem transformGuard_withIn (ops : XOperands) (s run : State) :
    transformGuard ops (withIn m s) (withIn m run) = Result.mapNext (withIn m) (transformGuard ops s run) :=
  unlessLatched_withIn <| ite_withIn (fun _ => ite_withIn (fun _ => rfl) fun _ => rfl) fun _ => rfl

theorem execXform_withIn (tid len : Byte) (word dest : Operand) (s : State) :
    execXform tid len word dest (withIn m s) = Result.mapNext (withIn m) (execXform tid len word dest s) := by
  unfold execXform
  dsimp only
  rw [← transformGuard_withIn, withIn_cfg]
  congr 1
  split
  next => rfl
  next =>
    split
    next => rfl
    next => exact runBody_withIn ..

theorem exec_entry_withIn (he : entryOf i = some e) (s : State) :
    exec i (withIn m s) = Result.mapNext (withIn m) (exec i s) := by
  rw [exec_entry he, exec_entry he]
  unfold runEntry
  rw [← transformGuard_withIn, ← runBody_withIn, withIn_port]

/-! #### The commands that read `IN` -/

theorem execWarmup_withIn (h : SameUnread m s.inMem s.strm) :
    execWarmup (withIn m s) = Result.mapNext (withIn m) (execWarmup s) := by
  refine unlessLatched_withIn <| ite_withIn (fun _ => ite_withIn (fun _ => rfl) fun hr => ?_) fun _ => rfl
  rw [load1_withIn h (Nat.pos_of_ne_zero hr), respond_withIn, endRead_withIn]

theorem execPull_withIn (h : SameUnread m s.inMem s.strm) : execPull (withIn m s) = Result.mapNext (withIn m) (execPull s) := by
  refine unlessLatched_withIn <| ite_withIn (fun _ => rfl) fun hr => ite_withIn (fun _ => rfl) fun _ => ?_
  rw [load1_withIn h (Nat.pos_of_ne_zero hr), respond_withIn, endRead_withIn]

theorem execFill_withIn (h : SameUnread m s.inMem s.strm) (n : BitVec 6) :
    execFill n (withIn m s) = Result.mapNext (withIn m) (execFill n s) := by
  refine checkedRead_withIn ?_
  rw [filled_withIn h, respond_withIn, endRead_withIn]

theorem execGet_withIn (h : SameUnread m s.inMem s.strm) (n : BitVec 6) :
    execGet n (withIn m s) = Result.mapNext (withIn m) (execGet n s) := by
  refine checkedRead_withIn ?_
  rw [filled_withIn h, withIn_peek, respond_withIn, endRead_withIn]

theorem execTake_withIn (h : SameUnread m s.inMem s.strm) (n : BitVec 6) :
    execTake n (withIn m s) = Result.mapNext (withIn m) (execTake n s) := by
  refine checkedRead_withIn ?_
  rw [takeField_withIn h, respond_withIn, endRead_withIn]

theorem execRead_withIn (h : SameUnread m s.inMem s.strm) (n : BitVec 6) :
    execRead n (withIn m s) = Result.mapNext (withIn m) (execRead n s) := by
  refine checkedRead_withIn ?_
  rw [readField_withIn h, respond_withIn, endRead_withIn]

theorem execSread_withIn (h : SameUnread m s.inMem s.strm) (n : BitVec 6) :
    execSread n (withIn m s) = Result.mapNext (withIn m) (execSread n s) :=
  safeField_withIn (done := fun t => respond .ok (t.peek n.toNat) (t.consume n.toNat)) h fun _ => rfl

theorem execSget_withIn (h : SameUnread m s.inMem s.strm) (n : BitVec 6) :
    execSget n (withIn m s) = Result.mapNext (withIn m) (execSget n s) :=
  safeField_withIn (done := fun t => respond .ok (t.peek n.toNat) t) h fun _ => rfl

theorem execCopy_withIn (h : SameUnread m s.inMem s.strm) (dest cnt : Operand) :
    execCopy dest cnt (withIn m s) = Result.mapNext (withIn m) (execCopy dest cnt s) := by
  refine unlessLatched_withIn <| ite_withIn (fun _ => ite_withIn (fun _ => rfl) fun hc => ?_) fun _ => rfl
  dsimp only
  rw [copyBody_withIn h (Nat.not_lt.1 hc)]
  exact endRead_withIn s (respond .ok 0
    { s.withStream (copyBody cnt.toNat s).2 with outMem := s.outMem.writeBytes dest.toNat (copyBody cnt.toNat s).1 })

theorem execRdreg_withIn (sel : BitVec 6) (s : State) :
    execRdreg sel (withIn m s) = Result.mapNext (withIn m) (execRdreg sel s) := by
  unfold execRdreg
  rw [withIn_register]
  split <;> rfl

end OverRead

/-- Settles O22: every read of `IN` is a `load1` or a direct byte of a copy, and stays in the unread part; the rest of each command moves
along with the content of `IN`. -/
theorem noOverRead : Obligations.NoOverRead := by
  intro i s m (h : SameUnread m s.inMem s.strm)
  show exec i (withIn m s) = Result.mapNext (withIn m) (exec i s)
  cases i with
  | init => exact ite_withIn (fun _ => rfl) fun _ => rfl
  | reseat | restore | ctx => exact unlessLatched_withIn <| ite_withIn (fun _ => rfl) fun _ => rfl
  | drop => exact unlessLatched_withIn <| ite_withIn (fun _ => rfl) fun _ => ite_withIn (fun _ => rfl) fun _ => rfl
  | warmup => exact execWarmup_withIn h
  | avail | rembytes | getu | align | save => exact unlessLatched_withIn rfl
  | fill n => exact execFill_withIn h n
  | get n => exact execGet_withIn h n
  | take n => exact execTake_withIn h n
  | read n => exact execRead_withIn h n
  | sread n => exact execSread_withIn h n
  | sget n => exact execSget_withIn h n
  | pull => exact execPull_withIn h
  | copy dest cnt => exact execCopy_withIn h dest cnt
  | rdreg sel => exact execRdreg_withIn sel s
  | xform tid len word dest => exact execXform_withIn tid len word dest s
  | _ => exact exec_entry_withIn rfl s

end Sys2Proof.Machine.MemoryAccess

/-!
The command port (30_encoding.md): the words of an instruction and back, the packets that are none, and the checks of the operands.
A command word is its six fields (`packWord`), a format is a mask on them (`unusedClear_iff_mask`), and the opcode map has one row for each
command (`commandOf_encode`, `encode_of_commandOf`).
-/

namespace Sys2Proof.Machine.CommandPort

open Sys2Proof Sys2Proof.Machine Sys2Proof.Machine.Laws Sys2Proof.Machine.Effects Sys2Proof.Machine.MemoryAccess

/-! ### The fields of a command word -/

section Fields

variable (op op' : BitVec 5) (z1 z1' : BitVec 3) (f2 f2' f1 f1' : Byte) (z0 z0' : BitVec 2) (n n' : BitVec 6) (cw : CmdWord)

/-- A command word from all of its fields, those that no format uses included (R82). -/
def packWord : CmdWord := op ++ z1 ++ f2 ++ f1 ++ z0 ++ n

@[simp] theorem commandWord_eq_packWord : commandWord op f2 f1 n = packWord op 0 f2 f1 0 n := rfl

/-- A field above the low part of a word. -/
theorem extractLsb'_append_above {k m : Nat} (a : BitVec m) (b : BitVec k) (start len : Nat) :
    (a ++ b).extractLsb' (k + start) len = a.extractLsb' start len := by
  rw [BitVec.extractLsb'_append_eq_of_le (Nat.le_add_right ..), Nat.add_sub_cancel_left]

@[simp] theorem opField_packWord : opField (packWord op z1 f2 f1 z0 n) = op := by
  show (op ++ z1 ++ f2 ++ f1 ++ z0 ++ n).extractLsb' (6 + (2 + (8 + (8 + (3 + 0))))) 5 = op
  simp only [extractLsb'_append_above, BitVec.extractLsb'_eq_self]

@[simp] theorem z1Field_packWord : z1Field (packWord op z1 f2 f1 z0 n) = z1 := by
  show (op ++ z1 ++ f2 ++ f1 ++ z0 ++ n).extractLsb' (6 + (2 + (8 + (8 + 0)))) 3 = z1
  simp only [extractLsb'_append_above, BitVec.extractLsb'_append_eq_right]

@[simp] theorem f2Field_packWord : f2Field (packWord op z1 f2 f1 z0 n) = f2 := by
  show (op ++ z1 ++ f2 ++ f1 ++ z0 ++ n).extractLsb' (6 + (2 + (8 + 0))) 8 = f2
  simp only [extractLsb'_append_above, BitVec.extractLsb'_append_eq_right]

@[simp] theorem f1Field_packWord : f1Field (packWord op z1 f2 f1 z0 n) = f1 := by
  show (op ++ z1 ++ f2 ++ f1 ++ z0 ++ n).extractLsb' (6 + (2 + 0)) 8 = f1
  simp only [extractLsb'_append_above, BitVec.extractLsb'_append_eq_right]

@[simp] theorem z0Field_packWord : z0Field (packWord op z1 f2 f1 z0 n) = z0 := by
  show (op ++ z1 ++ f2 ++ f1 ++ z0 ++ n).extractLsb' (6 + 0) 2 = z0
  simp only [extractLsb'_append_above, BitVec.extractLsb'_append_eq_right]

@[simp] theorem nField_packWord : nField (packWord op z1 f2 f1 z0 n) = n := BitVec.extractLsb'_append_eq_right

/-- A command word is its fields (R82). -/
theorem packWord_fields : packWord (opField cw) (z1Field cw) (f2Field cw) (f1Field cw) (z0Field cw) (nField cw) = cw := by
  unfold packWord opField z1Field f2Field f1Field z0Field nField
  simp only [BitVec.extractLsb'_append_extractLsb'_eq_extractLsb', BitVec.extractLsb'_eq_self]

theorem packWord_inj :
    packWord op z1 f2 f1 z0 n = packWord op' z1' f2' f1' z0' n' ↔
      op = op' ∧ z1 = z1' ∧ f2 = f2' ∧ f1 = f1' ∧ z0 = z0' ∧ n = n' := by
  constructor
  · intro h
    exact ⟨by simpa using congrArg opField h, by simpa using congrArg z1Field h, by simpa using congrArg f2Field h,
      by simpa using congrArg f1Field h, by simpa using congrArg z0Field h, by simpa using congrArg nField h⟩
  · rintro ⟨rfl, rfl, rfl, rfl, rfl, rfl⟩
    rfl

theorem packWord_and :
    packWord op z1 f2 f1 z0 n &&& packWord op' z1' f2' f1' z0' n' =
      packWord (op &&& op') (z1 &&& z1') (f2 &&& f2') (f1 &&& f1') (z0 &&& z0') (n &&& n') := by
  unfold packWord
  iterate 5 refine BitVec.and_append.trans (congrArg (· ++ _) ?_)
  rfl

theorem setWidth_shiftLeft_eq_packWord : op.setWidth 32 <<< 27 = packWord op 0 0 0 0 0 := by
  revert op
  decide

/-- The mask of a format has a 1 in the opcode and wherever the format uses no field (R83). -/
theorem mask_eq_packWord (f : Format) :
    f.mask = match f with
      | .Z | .M => packWord (.allOnes 5) (.allOnes 3) (.allOnes 8) (.allOnes 8) (.allOnes 2) (.allOnes 6)
      | .N => packWord (.allOnes 5) (.allOnes 3) (.allOnes 8) (.allOnes 8) (.allOnes 2) 0
      | .C => packWord (.allOnes 5) (.allOnes 3) 0 0 (.allOnes 2) 0
      | .X => packWord (.allOnes 5) (.allOnes 3) 0 0 (.allOnes 2) (.allOnes 6) := by
  cases f <;> decide

/-- The must-be-zero test of a format on a word given by its fields (R83, R87). -/
@[simp] theorem unusedClear_packWord (f : Format) :
    f.unusedClear (packWord op z1 f2 f1 z0 n) = true ↔
      z1 = 0 ∧ z0 = 0 ∧ match f with
        | .Z | .M => f2 = 0 ∧ f1 = 0 ∧ n = 0
        | .N => f2 = 0 ∧ f1 = 0
        | .C => True
        | .X => n = 0 := by
  cases f <;> simp [Format.unusedClear, and_assoc]

/-- A word is well formed by the mask of its format exactly when its unused fields are zero (R87). -/
theorem unusedClear_iff_mask (f : Format) : f.unusedClear cw = true ↔ cw &&& f.mask = (opField cw).setWidth 32 <<< 27 := by
  rw [setWidth_shiftLeft_eq_packWord, mask_eq_packWord]
  conv_lhs => rw [← packWord_fields cw]
  conv_rhs => lhs; rw [← packWord_fields cw]
  rw [unusedClear_packWord]
  cases f <;> simp only [packWord_and, packWord_inj, BitVec.and_allOnes, BitVec.and_zero, BitVec.ofNat_eq_ofNat] <;> tauto

/-- The word with the fields that a format uses, and zeros elsewhere (R83). -/
def keptWord (f : Format) (cw : CmdWord) : CmdWord :=
  match f with
  | .Z | .M => commandWord (opField cw) 0 0 0
  | .N => commandWord (opField cw) 0 0 (nField cw)
  | .C => commandWord (opField cw) (f2Field cw) (f1Field cw) (nField cw)
  | .X => commandWord (opField cw) (f2Field cw) (f1Field cw) 0

/-- A word whose unused fields are zero is the word of its used ones. -/
theorem keptWord_of_unusedClear {f : Format} (h : f.unusedClear cw = true) : keptWord f cw = cw := by
  rw [← packWord_fields cw, unusedClear_packWord] at h
  obtain ⟨h1, h0, hf⟩ := h
  refine Eq.trans ?_ (packWord_fields cw)
  cases f <;> simp [keptWord, h1, h0, hf]

end Fields

/-! ### The opcode map -/

section OpcodeMap

variable {u : Units} {p : Packet} {f : Format} {i : Instr} {e : Entry}

/-- What decodes: a row of the opcode map whose unused fields are zero (R86, R87). -/
theorem decode_ok_iff : decode u p = .ok i ↔ ∃ f, commandOf u p = some (f, i) ∧ f.unusedClear p.cw = true := by
  unfold decode
  split
  next h => simp [h]
  next f' i' h => cases hc : f'.unusedClear p.cw <;> simp [h, hc]

theorem decode_of_commandOf_none (h : commandOf u p = none) : decode u p = .error .reservedOpcode := by rw [decode, h]

theorem decode_of_unused_set (h : commandOf u p = some (f, i)) (hf : ¬ f.unusedClear p.cw = true) :
    decode u p = .error .mustBeZero := by
  simp only [decode, h, if_neg hf]

/-- The formats whose commands have address operands (R83, R84). -/
def usesAddresses : Format → Bool
  | .M | .X => true
  | .Z | .N | .C => false

/-- The packet that a row of the opcode map stands for: the fields of its format, the addresses where the format uses them (R94). -/
def keptPacket (f : Format) (p : Packet) : Packet :=
  if usesAddresses f then ⟨keptWord f p.cw, p.a0, p.a1⟩ else ⟨keptWord f p.cw, 0, 0⟩

/-- Row by row: the encoder writes back what the opcode map read. -/
theorem encode_of_commandOf (h : commandOf u p = some (f, i)) : encode i = .packet (keptPacket f p) := by
  have hop : opField p.cw = BitVec.ofNat 5 (opField p.cw).toNat := by simp
  unfold commandOf at h
  split at h
  all_goals simp only [Option.ite_none_right_eq_some, Option.some.injEq, Prod.mk.injEq, reduceCtorEq] at h
  all_goals
    rename_i hk
    rw [hk] at hop
  case h_20 | h_21 =>
    obtain ⟨-, rfl, rfl⟩ := h
    simp [encode, keptPacket, usesAddresses, keptWord, hop]
  all_goals
    obtain ⟨rfl, rfl⟩ := h
    simp [encode, plainPacket, keptPacket, usesAddresses, keptWord, hop]

/-- Row by row: the commands that take no addresses do not look at them. -/
theorem commandOf_of_addresses_unused (h : commandOf u p = some (f, i)) (hf : usesAddresses f = false) (a0 a1 : Operand) :
    commandOf u ⟨p.cw, a0, a1⟩ = some (f, i) := by
  unfold commandOf at h ⊢
  split at h <;> grind [usesAddresses]

/-- Row by row: the word of a command has its opcode and its operands, and zeros in the unused fields. -/
theorem commandOf_encode (hi : entryOf i = none) (hu : i.unitPresent u = true) :
    ∃ p f, encode i = .packet p ∧ commandOf u p = some (f, i) ∧ f.unusedClear p.cw = true := by
  cases i with
  | init | reseat | copy => exact ⟨_, .M, rfl, by simp [commandOf], by simp⟩
  | warmup | avail | rembytes | getu | pull | align | save | restore => exact ⟨_, .Z, rfl, by simp [commandOf], by simp⟩
  | fill | get | take | read | sread | sget | drop | rdreg => exact ⟨_, .N, rfl, by simp [commandOf], by simp⟩
  | ctx => exact ⟨_, .C, rfl, by simpa [commandOf, Instr.unitPresent] using hu, by simp⟩
  | xform => exact ⟨_, .X, rfl, by simpa [commandOf, Instr.unitPresent] using hu, by simp⟩
  | _ => cases hi

/-- An instruction that is an entry is encoded as its entry word, and read back from the entry (R201). -/
theorem encode_of_entryOf (h : entryOf i = some e) : encode i = .entry (entryWord e) ∧ e.toInstr = i := by
  cases i <;> cases h <;> exact ⟨rfl, rfl⟩

theorem bodyOpOf_code (op : BodyOp) : bodyOpOf op.code.toNat = some op := by cases op <;> rfl

/-- An entry is read back from its word (R201). -/
theorem decodeEntry_entryWord (e : Entry) : decodeEntry (entryWord e) = .ok e := by
  obtain ⟨p, op, q⟩ := e
  have hop : (entryWord ⟨p, op, q⟩).extractLsb' 8 5 = op.code := by
    show (p ++ (0 : BitVec 3) ++ op.code ++ q).extractLsb' (8 + 0) 5 = op.code
    simp only [extractLsb'_append_above, BitVec.extractLsb'_append_eq_right]
  have hzero : (entryWord ⟨p, op, q⟩).extractLsb' 13 3 = 0 := by
    show (p ++ (0 : BitVec 3) ++ op.code ++ q).extractLsb' (8 + (5 + 0)) 3 = 0
    simp only [extractLsb'_append_above, BitVec.extractLsb'_append_eq_right]
  have hp : (entryWord ⟨p, op, q⟩).extractLsb' 16 8 = p := by
    show (p ++ (0 : BitVec 3) ++ op.code ++ q).extractLsb' (8 + (5 + (3 + 0))) 8 = p
    simp only [extractLsb'_append_above, BitVec.extractLsb'_eq_self]
  have hq : (entryWord ⟨p, op, q⟩).extractLsb' 0 8 = q := BitVec.extractLsb'_append_eq_right
  simp [decodeEntry, hop, hzero, hp, hq, bodyOpOf_code]

end OpcodeMap

/-- Settles O1: a command is a row of the opcode map with its unused fields clear, every other instruction is an entry. -/
theorem decodeOfEncode : Obligations.DecodeOfEncode := by
  intro u i hu
  cases hi : entryOf i with
  | none =>
    obtain ⟨p, f, hp, hrow, hclear⟩ := commandOf_encode hi hu
    rw [hp]
    exact decode_ok_iff.2 ⟨f, hrow, hclear⟩
  | some e =>
    obtain ⟨hw, he⟩ := encode_of_entryOf hi
    rw [hw, decodeAny, decodeEntry_entryWord, ← he]
    rfl

/-- Settles O2: the word is kept by the must-be-zero test, the addresses are the packet's or not looked at. -/
theorem wordOfDecode : Obligations.WordOfDecode := by
  intro u p i h
  obtain ⟨f, hrow, hclear⟩ := decode_ok_iff.1 h
  have henc := encode_of_commandOf hrow
  rw [keptPacket, keptWord_of_unusedClear _ hclear] at henc
  cases hf : usesAddresses f with
  | true => exact .inl (by rw [henc, if_pos hf])
  | false =>
    refine .inr ⟨by rw [henc, if_neg (by simp [hf])], fun a0 a1 => ?_⟩
    exact decode_ok_iff.2 ⟨f, commandOf_of_addresses_unused hrow hf a0 a1, hclear⟩

/-- Settles O4, by evaluation. -/
theorem writtenWordsDecode : Obligations.WrittenWordsDecode := ⟨rfl, rfl, rfl, rfl, rfl, rfl⟩

/-! ### Packets on the command port -/

section Packets

variable {s : State} {p : Packet} {rest : List HostEvent} {i : Instr} {err : DecodeError}

/-- The step of a state whose host presents a packet (R81). -/
theorem step_command (h : s.host = .command p :: rest) : step s = runPacket p { s with host := rest } := by
  rw [step, h]
  rfl

/-- The step on a packet that is an instruction (R81, R92). -/
theorem step_of_decode_ok (h : s.host = .command p :: rest) (hd : decode (units s.cfg) p = .ok i) :
    step s = exec i { s with host := rest, port := p } := by
  rw [step_command h, runPacket]
  simp only [hd]
  rfl

/-- The step on a packet that is none (R86, R87, R243). -/
theorem step_of_decode_error (h : s.host = .command p :: rest) (hd : decode (units s.cfg) p = .error err) :
    step s = .next (rejectPacket p err { s with host := rest, port := p }) := by
  rw [step_command h, runPacket]
  simp only [hd]
  rfl

/-- With the latch clear a packet that is no instruction raises its cause (R86, R87). -/
theorem rejectPacket_clear (hf : s.fault = false) : rejectPacket p err s = s.faulted (rejectCause err) := by
  rw [rejectPacket, hf]
  exact raise_eq_faulted _ _ hf

/-- With the latch clear, the step on a packet that is none latches the cause and does nothing else (R86, R87, R242). -/
theorem step_rejects (h : s.host = .command p :: rest) (hf : s.fault = false) (hd : decode (units s.cfg) p = .error err) :
    step s = .next (({ s with host := rest, port := p } : State).faulted (rejectCause err)) :=
  (step_of_decode_error h hd).trans (congrArg _ (rejectPacket_clear hf))

/-- The reserved opcodes (R86). -/
theorem commandOf_reserved {u : Units} (h : 0x15 ≤ (opField p.cw).toNat ∨ (opField p.cw = 0x13 ∧ u.ctx = false) ∨
    (opField p.cw = 0x14 ∧ u.xform = false)) : commandOf u p = none := by
  rcases h with h | ⟨h, hu⟩ | ⟨h, hu⟩
  · unfold commandOf
    split
    case h_22 => rfl
    all_goals omega
  · simp [commandOf, h, hu]
  · simp [commandOf, h, hu]

end Packets

/-- Settles O7. -/
theorem stepRunsDecodedCommand : Obligations.StepRunsDecodedCommand := fun _ _ _ _ => step_of_decode_ok

/-- Settles O5: the mask test is the must-be-zero test of the decoder. -/
theorem mustBeZeroFaults : Obligations.MustBeZeroFaults := by
  intro s p rest f i hhost hf hrow
  rw [← unusedClear_iff_mask]
  refine ⟨fun hclear => decode_ok_iff.2 ⟨f, hrow, hclear⟩, fun hmask => ?_⟩
  rw [Ne, ← unusedClear_iff_mask] at hmask
  exact step_rejects hhost hf (decode_of_unused_set hrow hmask)

/-- Settles O6. -/
theorem reservedOpcodeFaults : Obligations.ReservedOpcodeFaults := fun _ _ _ hhost hf hop =>
  step_rejects hhost hf (decode_of_commandOf_none (commandOf_reserved hop))

/-! ### `INIT` and `RESEAT` -/

/-- Settles O28. -/
theorem initStartsSession : Obligations.InitStartsSession := by
  intro base len s
  show execInit base len s = _
  rw [execInit, raise_illegalField_eq]
  by_cases hd : base.toNat + len.toNat < 2 ^ s.cfg.aw
  · rw [if_pos ((spanFits_iff ..).2 hd), if_pos hd]
    rfl
  · rw [if_neg (mt (spanFits_iff ..).1 hd), if_neg hd]

/-- Settles O29. -/
theorem reseatKeepsWindow : Obligations.ReseatKeepsWindow := by
  intro base len s hf
  show execReseat base len s = _
  rw [execReseat, unlessLatched_clear hf, raise_eq_faulted _ _ hf]
  by_cases hd : base.toNat + len.toNat < 2 ^ s.cfg.aw
  · rw [if_pos ((spanFits_iff ..).2 hd), if_pos hd]
    rfl
  · rw [if_neg (mt (spanFits_iff ..).1 hd), if_neg hd]

/-! ### The faults of the stream commands -/

section StreamFaults

variable {s : State} {run : Result} {done : State → State} {limit n : Nat} {k : BitVec 6} {dest cnt : Operand}

/-- `n` out of range, with the latch clear (R88). -/
theorem checkedRead_illegalField (hf : s.fault = false) (hl : limit < n) :
    checkedRead limit n s run = .next (s.faulted .illegalField) := by
  rw [checkedRead, unlessLatched_clear hf, if_pos hl, raise_eq_faulted _ _ hf]

/-- Too few bits in the stream, with the latch clear (R131, R133 to R135). -/
theorem checkedRead_underrun (hf : s.fault = false) (hl : n ≤ limit) (ht : s.total < n) :
    checkedRead limit n s run = .next (s.faulted .underrun) := by
  rw [checkedRead, unlessLatched_clear hf, if_neg (Nat.not_lt.2 hl), if_pos ht, raise_eq_faulted _ _ hf]

/-- `n` out of range for a safe read, with the latch clear (R88). -/
theorem safeField_illegalField (hf : s.fault = false) (hl : ndir s.cfg < k.toNat) :
    safeField k s done = .next (s.faulted .illegalField) := by
  rw [safeField, unlessLatched_clear hf, if_pos hl, raise_eq_faulted _ _ hf]

/-- `DROP` with the latch clear, check by check (R88, R153). -/
theorem execDrop_clear (hf : s.fault = false) :
    execDrop k s = .next (
      if 32 < k.toNat then s.faulted .illegalField
      else if s.avail < k.toNat then s.faulted .underrun
      else respond .ok 0 (s.consume k.toNat)) := by
  rw [execDrop, unlessLatched_clear hf, raise_eq_faulted _ _ hf, raise_eq_faulted _ _ hf]
  simp only [apply_ite (Host.Outcome.next (φ := Fault) (ρ := Refusal))]
  rfl

/-- The address range of `COPY` fails, with the latch clear (R89). -/
theorem execCopy_illegalField (hf : s.fault = false) (hd : 2 ^ s.cfg.aw ≤ dest.toNat + cnt.toNat) :
    execCopy dest cnt s = .next (s.faulted .illegalField) := by
  have hspan := (spanFits_eq_false_iff ..).2 hd
  rw [execCopy, unlessLatched_clear hf, if_neg (by simp [hspan]), raise_eq_faulted _ _ hf]

/-- More bytes than there are, with the latch clear (R171). -/
theorem execCopy_copyRange (hf : s.fault = false) (hd : dest.toNat + cnt.toNat < 2 ^ s.cfg.aw) (hc : s.rembytes < cnt.toNat) :
    execCopy dest cnt s = .next (s.faulted .copyRange) := by
  rw [execCopy, unlessLatched_clear hf, if_pos ((spanFits_iff ..).2 hd), if_pos hc, raise_eq_faulted _ _ hf]

end StreamFaults

/-- Settles O17. -/
theorem streamCommandsFault : Obligations.StreamCommandsFault := by
  intro s hf
  refine ⟨fun n hl => ⟨?_, ?_, ?_, ?_, ?_⟩, fun n hl ht => ⟨?_, ?_, ?_⟩, fun n hl => ⟨?_, ?_⟩, fun n hl ht => ?_, fun n hl ha => ?_,
    fun _ _ hd => execCopy_illegalField hf hd, fun _ _ hd hc => execCopy_copyRange hf hd hc⟩
  · exact checkedRead_illegalField hf hl
  · exact checkedRead_illegalField hf hl
  · exact checkedRead_illegalField hf hl
  · exact safeField_illegalField (done := fun t => respond .ok (t.peek n.toNat) (t.consume n.toNat)) hf hl
  · exact safeField_illegalField hf hl
  · exact checkedRead_underrun hf hl ht
  · exact checkedRead_underrun hf hl ht
  · exact checkedRead_underrun hf hl ht
  · exact checkedRead_illegalField hf hl
  · exact (execDrop_clear hf).trans (by rw [if_pos hl])
  · exact checkedRead_underrun hf hl ht
  · exact (execDrop_clear hf).trans (by rw [if_neg (Nat.not_lt.2 hl), if_pos ha])

end Sys2Proof.Machine.CommandPort

/-!
What each instruction answers. `LegalAnswer` is the set of answers that R90 and R91 allow an instruction, `FaultsUnless` says that a command
completes and when its answer is no `FAULT`; both are shown along the checks that the commands share (the latch, `checkedRead`, `safeField`,
`transformGuard`, `endRead`), then once for each instruction.
-/

namespace Sys2Proof.Machine.Answers

open Sys2Proof Sys2Proof.Machine Sys2Proof.Machine.Laws Sys2Proof.Machine.Effects Sys2Proof.Machine.CommandPort

/-! ### The size of a value -/

section Values

variable {n : Nat}

/-- A field of `n` bits is below `2^n` (R12, R13). -/
theorem peek_toNat_lt (x : Stream) (n : Nat) : (x.peek n).toNat < 2 ^ n := by
  have hmask : (mask n).toNat < 2 ^ n := by
    have hle : (2 ^ n - 1) % 2 ^ 64 ≤ 2 ^ n - 1 := Nat.mod_le ..
    have hpos := Nat.two_pow_pos n
    rw [mask, BitVec.toNat_ofNat]
    omega
  rw [Stream.peek, BitVec.toNat_and]
  exact Nat.and_lt_two_pow _ hmask

theorem peek_toNat_lt_32 (x : Stream) (hn : n ≤ 32) : (x.peek n).toNat < 2 ^ 32 :=
  (peek_toNat_lt x n).trans_le (Nat.pow_le_pow_right (by omega) hn)

/-- Two fields of at most 16 bits, one after the other, make at most 32 bits (R135). -/
theorem or_shiftLeft_toNat_lt {lo hi : Value} (hlo : lo.toNat < 2 ^ 16) (hhi : hi.toNat < 2 ^ 16) :
    (lo ||| (hi <<< 16)).toNat < 2 ^ 32 := by
  rw [BitVec.toNat_or, BitVec.toNat_shiftLeft]
  refine Nat.or_lt_two_pow (by omega) ((Nat.mod_le ..).trans_lt ?_)
  rw [Nat.shiftLeft_eq]
  omega

theorem readField_toNat_lt (s : State) (hn : n ≤ 32) : (readField n s).1.toNat < 2 ^ 32 := by
  unfold readField
  split
  next => exact peek_toNat_lt_32 _ hn
  next =>
    refine or_shiftLeft_toNat_lt (peek_toNat_lt _ 16) ((peek_toNat_lt _ (n - 16)).trans_le ?_)
    exact Nat.pow_le_pow_right (by omega) (by omega)

theorem ofNat_toNat_lt_32 (h : n < 2 ^ 32) : (BitVec.ofNat 64 n).toNat < 2 ^ 32 :=
  (Nat.mod_le ..).trans_lt h

end Values

/-! ### The answers that exist -/

/-- The responses that an instruction may give (R90, R91). -/
def LegalResponse (i : Instr) (r : Response) : Prop :=
  (r.status = .noData → r.value = 0 ∧ (i = .warmup ∨ i = .pull ∨ ∃ n, i = .sread n ∨ i = .sget n)) ∧
  (r.status = .badPad → r.value = 0 ∧ i = .align) ∧
  (r.status = .fault → r.value.toNat < 16) ∧
  (i ≠ .getu → i ≠ .rembytes → (∀ sel, i ≠ .rdreg sel) → r.value.toNat < 2 ^ 32)

/-- The state after an instruction holds a response that the instruction may give. -/
def LegalAnswer (i : Instr) (t : State) : Prop := ∃ r, t.resp = some r ∧ LegalResponse i r

/-- Whatever next state a run gives, its response is one that the instruction may give. -/
def AnswersLegally (i : Instr) (run : Result) : Prop := ∀ t, run = .next t → LegalAnswer i t

section Legal

variable {i : Instr} {s t : State} {v : Value} {run run' : Result} {c : Prop} [Decidable c]

theorem LegalAnswer.ok (hv : i ≠ .getu → i ≠ .rembytes → (∀ sel, i ≠ .rdreg sel) → v.toNat < 2 ^ 32) :
    LegalAnswer i (respond .ok v s) :=
  ⟨_, rfl, nofun, nofun, nofun, hv⟩

theorem LegalAnswer.zero : LegalAnswer i (respond .ok 0 s) := .ok fun _ _ _ => by decide

/-- `FAULT` carries a cause of 4 bits (R91, R241). -/
theorem LegalAnswer.fault (cause : BitVec 4) : LegalAnswer i (respond .fault (cause.setWidth 64) s) := by
  have h : (cause.setWidth 64 : Value).toNat < 16 := by
    rw [BitVec.toNat_setWidth]
    exact (Nat.mod_le ..).trans_lt cause.isLt
  exact ⟨_, rfl, nofun, nofun, fun _ => h, fun _ _ _ => h.trans (by decide)⟩

theorem LegalAnswer.noData (hi : i = .warmup ∨ i = .pull ∨ ∃ n, i = .sread n ∨ i = .sget n) : LegalAnswer i (respond .noData 0 s) :=
  ⟨_, rfl, fun _ => ⟨rfl, hi⟩, nofun, nofun, fun _ _ _ => by decide⟩

theorem LegalAnswer.badPad (hi : i = .align) : LegalAnswer i (respond .badPad 0 s) :=
  ⟨_, rfl, nofun, fun _ => ⟨rfl, hi⟩, nofun, fun _ _ _ => by decide⟩

theorem LegalAnswer.of_raise (cause : Cause) : LegalAnswer i (raise cause s) := .fault cause.code

theorem AnswersLegally.next (h : LegalAnswer i t) : AnswersLegally i (.next t) := by
  rintro u ⟨⟩
  exact h

theorem AnswersLegally.done : AnswersLegally i (.next (respond .ok 0 s)) := .next .zero

theorem AnswersLegally.of_raise (cause : Cause) : AnswersLegally i (.next (raise cause s)) := .next (.of_raise cause)

theorem AnswersLegally.ite (ht : c → AnswersLegally i run) (hf : ¬c → AnswersLegally i run') :
    AnswersLegally i (if c then run else run') := by
  split
  next h => exact ht h
  next h => exact hf h

theorem AnswersLegally.of_endRead (h : LegalAnswer i t) : AnswersLegally i (endRead s t) := by
  intro u hu
  rw [(endRead_next hu).1]
  exact h

theorem AnswersLegally.of_unlessLatched (h : AnswersLegally i run) : AnswersLegally i (unlessLatched s run) :=
  .ite (fun _ => .next (.fault s.faultCause)) fun _ => h

theorem AnswersLegally.of_checkedRead {limit n : Nat} (h : n ≤ limit → LegalAnswer i t) :
    AnswersLegally i (checkedRead limit n s (endRead s t)) :=
  .of_unlessLatched <| .ite (fun _ => .of_raise _) fun hl => .ite (fun _ => .of_raise _) fun _ => .of_endRead (h (Nat.le_of_not_lt hl))

theorem AnswersLegally.of_safeField {n : BitVec 6} {done : State → State} (hi : i = .sread n ∨ i = .sget n)
    (h : n.toNat ≤ 32 → LegalAnswer i (done (s.staged n.toNat))) : AnswersLegally i (safeField n s done) :=
  .of_unlessLatched <| .ite (fun _ => .of_raise _) fun hl =>
    .ite (fun _ => .of_endRead (.noData (.inr (.inr ⟨n, hi⟩)))) fun _ => .of_endRead (h (by have := ndir_le s.cfg; omega))

theorem AnswersLegally.of_transformGuard {x : XOperands} (h : LegalAnswer i t) : AnswersLegally i (transformGuard x s t) :=
  .of_unlessLatched <| .ite (fun _ => .ite (fun _ => .next h) fun _ => .of_raise _) fun _ => .of_raise _

/-- An expansion answers its size, which is below that of the space (R200). -/
theorem LegalAnswer.of_runBody (e : Entry) (x : XOperands) (s : State) : LegalAnswer i (runBody e x s) := by
  rw [runBody_eq_expand]
  rcases expand_cases (extentOf e.op) (caseStepOf e.op) e.prefixId e.suffixId x s with h | ⟨pre, suf, -, -, hd, h⟩ <;> rw [h]
  · exact .of_raise _
  · have := spaceSize_le s.cfg
    exact .ok fun _ _ _ => ofNat_toNat_lt_32 (by omega)

theorem execXform_answersLegally (tid len : Byte) (word dest : Operand) : AnswersLegally i (execXform tid len word dest s) := by
  refine .of_transformGuard ?_
  split
  next => exact .of_raise _
  next =>
    split
    next => exact .of_raise _
    next => exact .of_runBody ..

theorem execAlign_answersLegally : AnswersLegally .align (execAlign s) := by
  refine .of_unlessLatched (.next ?_)
  split
  next => exact .zero
  next => exact .badPad rfl

theorem execRdreg_answersLegally (sel : BitVec 6) : AnswersLegally (.rdreg sel) (execRdreg sel s) := by
  unfold execRdreg
  split
  next => exact .next (.ok fun _ _ h => absurd rfl (h sel))
  next => exact .of_raise _

/-- A context id has 6 bits (R190). -/
theorem LegalAnswer.context (id : BitVec 6) : LegalAnswer i (respond .ok (id.setWidth 64) s) := by
  refine .ok fun _ _ _ => ?_
  rw [BitVec.toNat_setWidth]
  exact (Nat.mod_le ..).trans_lt (id.isLt.trans (by decide))

theorem avail_lt (s : State) : s.avail < 2 ^ 32 := by
  have hav : s.avail = s.cfg.w.bits - s.strm.bitPos := rfl
  have := bits_cases s.cfg.w
  omega

/-- The answers of every instruction. -/
theorem exec_answersLegally (i : Instr) (s : State) : AnswersLegally i (exec i s) := by
  have hn : ∀ n : BitVec 6, n.toNat ≤ ndir s.cfg → n.toNat ≤ 32 := fun n h => h.trans (ndir_le s.cfg).1
  cases i with
  | init => exact .ite (fun _ => .done) fun _ => .of_raise _
  | reseat | restore => exact .of_unlessLatched <| .ite (fun _ => .done) fun _ => .of_raise _
  | warmup =>
    exact .of_unlessLatched <| .ite (fun _ => .ite (fun _ => .next (.noData (.inl rfl))) fun _ => .of_endRead .zero)
      fun _ => .done
  | avail => exact .of_unlessLatched <| .next <| .ok fun _ _ _ => ofNat_toNat_lt_32 (avail_lt s)
  | rembytes => exact .of_unlessLatched <| .next <| .ok fun _ h _ => absurd rfl h
  | getu => exact .of_unlessLatched <| .next <| .ok fun h _ _ => absurd rfl h
  | fill => exact .of_checkedRead fun _ => .zero
  | get n => exact .of_checkedRead fun hl => .ok fun _ _ _ => peek_toNat_lt_32 _ (hn n hl)
  | take n => exact .of_checkedRead fun hl => .ok fun _ _ _ => peek_toNat_lt_32 _ (hn n hl)
  | read n => exact .of_checkedRead fun hl => .ok fun _ _ _ => readField_toNat_lt s hl
  | sread n =>
    exact .of_safeField (done := fun t => respond .ok (t.peek n.toNat) (t.consume n.toNat)) (.inl rfl) fun hl =>
      .ok fun _ _ _ => peek_toNat_lt_32 _ hl
  | sget n => exact .of_safeField (.inr rfl) fun hl => .ok fun _ _ _ => peek_toNat_lt_32 _ hl
  | pull =>
    exact .of_unlessLatched <| .ite (fun _ => .next (.noData (.inr (.inl rfl)))) fun _ =>
      .ite (fun _ => .of_raise _) fun _ => .of_endRead .zero
  | drop => exact .of_unlessLatched <| .ite (fun _ => .of_raise _) fun _ => .ite (fun _ => .of_raise _) fun _ => .done
  | align => exact execAlign_answersLegally
  | copy =>
    exact .of_unlessLatched <| .ite (fun _ => .ite (fun _ => .of_raise _) fun _ => .of_endRead .zero) fun _ => .of_raise _
  | save => exact .of_unlessLatched .done
  | rdreg sel => exact execRdreg_answersLegally sel
  | ctx => exact .of_unlessLatched <| .ite (fun _ => .next (.context _)) fun _ => .of_raise _
  | xform tid len word dest => exact execXform_answersLegally tid len word dest
  | _ =>
    rw [exec_entry rfl]
    exact .of_transformGuard (.of_runBody ..)

end Legal

/-- Settles O27. -/
theorem responsesAreLegal : Obligations.ResponsesAreLegal := exec_answersLegally

/-! ### When an instruction faults -/

/-- A run completes, and its answer is no `FAULT` exactly when `good` holds. -/
def FaultsUnless (good : Prop) (run : Result) : Prop := ∃ t, run = .next t ∧ (t.answeredFault = false ↔ good)

/-- An instruction in range for its configuration, in a state that meets its contract (R88, R89, R200, R272). -/
structure Accepted (i : Instr) (s : State) : Prop where
  unit : i.unitPresent (units s.cfg) = true
  range : i.inRange s.cfg = true
  contract : callerContract i s = true

theorem accepted_iff (i : Instr) (s : State) : Accepted i s ↔ i.wellFormed s.cfg = true ∧ callerContract i s = true := by
  rw [Instr.wellFormed, Bool.and_eq_true]
  exact ⟨fun ⟨hu, hr, hc⟩ => ⟨⟨hu, hr⟩, hc⟩, fun ⟨⟨hu, hr⟩, hc⟩ => ⟨hu, hr, hc⟩⟩

section Faults

variable {i : Instr} {s t : State} {v : Value} {run run' : Result} {good c : Prop} [Decidable c] {st : Status} {e : Entry} {x : XOperands}

theorem FaultsUnless.answer (hst : st ≠ .fault) (hg : good) : FaultsUnless good (.next (respond st v t)) :=
  ⟨_, rfl, iff_of_true (decide_eq_false hst) hg⟩

theorem FaultsUnless.of_raise {cause : Cause} (hg : ¬good) : FaultsUnless good (.next (raise cause s)) :=
  ⟨_, rfl, iff_of_false (by simp [raise_answeredFault]) hg⟩

theorem FaultsUnless.ite (ht : c → FaultsUnless good run) (hf : ¬c → FaultsUnless good run') :
    FaultsUnless good (if c then run else run') := by
  split
  next h => exact ht h
  next h => exact hf h

theorem FaultsUnless.of_unlessLatched (hf : s.fault = false) (h : FaultsUnless good run) : FaultsUnless good (unlessLatched s run) := by
  rwa [unlessLatched_clear hf]

/-- Registers within their widths have read only addresses that exist (R22, R58). -/
theorem FaultsUnless.of_endRead (hx : t.strm.Ok s.cfg) (h : FaultsUnless good (.next t)) : FaultsUnless good (endRead s t) := by
  obtain ⟨-, -, hend⟩ := hx
  rwa [endRead_inside (by omega)]

theorem FaultsUnless.of_checkedRead {limit n : Nat} (hf : s.fault = false) (hg : good ↔ n ≤ limit ∧ n ≤ s.total)
    (hx : n ≤ limit → n ≤ s.total → t.strm.Ok s.cfg) : FaultsUnless good (checkedRead limit n s (endRead s (respond .ok v t))) :=
  .of_unlessLatched hf <|
    .ite (fun hl => .of_raise fun h => Nat.not_le_of_lt hl (hg.1 h).1) fun hl =>
      .ite (fun ht => .of_raise fun h => Nat.not_le_of_lt ht (hg.1 h).2) fun ht =>
        have hle := And.intro (Nat.le_of_not_lt hl) (Nat.le_of_not_lt ht)
        .of_endRead (hx hle.1 hle.2) (.answer nofun (hg.2 hle))

theorem FaultsUnless.of_safeField {n : BitVec 6} {done : State → State} (hs : s.Ready) (hg : good ↔ n.toNat ≤ ndir s.cfg)
    (hd : ∀ u : State, u.strm.Ok s.cfg → n.toNat ≤ u.strm.avail s.cfg.w → (done u).strm.Ok s.cfg ∧ (done u).answeredFault = false) :
    FaultsUnless good (safeField n s done) := by
  have ⟨⟨hx, _⟩, hf⟩ := hs
  refine .of_unlessLatched hf <| .ite (fun hl => .of_raise fun h => Nat.not_le_of_lt hl (hg.1 h)) fun hl => ?_
  have hw := (ndir_le s.cfg).2
  have hgood := hg.2 (Nat.le_of_not_lt hl)
  have hstaged : (s.staged n.toNat).strm.Ok s.cfg := stage_ok hx (by omega)
  refine .ite (fun _ => .of_endRead hstaged (.answer nofun hgood)) fun ha => ?_
  obtain ⟨hok, hans⟩ := hd _ hstaged (Nat.le_of_not_lt ha)
  exact .of_endRead hok ⟨_, rfl, iff_of_true hans hgood⟩

/-! #### The transform unit -/

/-- How long the body of an operation is: what its extent says (R204 to R225). -/
theorem bodyText_length_eq (c : Config) (op : BodyOp) (word : List Byte) :
    (bodyText c op word).length = (extentOf op word.length).2 := by
  cases op <;> simp [bodyText, extentOf, extentWhole, extentOmitLast, extentOmitFirst, upperText_length, upperHead_length] <;> omega

/-- An expansion faults unless its bytes exist and end inside the space (R200). -/
theorem runBody_answeredFault (e : Entry) (x : XOperands) (s : State) :
    (runBody e x s).answeredFault = false ↔ s.expands e x = true := by
  rw [runBody_eq_expand, expand, State.expands, State.expansion]
  cases fragment s.cfg e.prefixId with
  | none => simp [raise_answeredFault]
  | some pre =>
    cases fragment s.cfg e.suffixId with
    | none => simp [raise_answeredFault]
    | some suf =>
      simp only [List.length_append, bodyText_length_eq, State.wordAt, length_readBytes, decide_eq_true_eq]
      split
      next hd => exact iff_of_true rfl hd
      next hd => exact iff_of_false (by simp [raise_answeredFault]) hd

/-- An expansion needs both of its fragments (R202). -/
theorem fragmentsOk_of_expands (h : s.expands e x = true) : fragmentsOk s.cfg e.prefixId e.suffixId = true := by
  unfold State.expands State.expansion at h
  unfold fragmentsOk
  cases hp : fragment s.cfg e.prefixId <;> cases hq : fragment s.cfg e.suffixId <;> simp [hp, hq] at h ⊢

theorem FaultsUnless.of_transformGuard (hf : s.fault = false)
    (hg : good ↔ s.cfg.hasXform = true ∧ spanFits s.cfg x.word.toNat x.len.toNat = true ∧ t.answeredFault = false) :
    FaultsUnless good (transformGuard x s t) :=
  .of_unlessLatched hf <|
    .ite (fun hu => .ite (fun hs => ⟨t, rfl, by rw [hg]; tauto⟩) fun hs => .of_raise (by tauto)) fun hu => .of_raise (by tauto)

/-- `XFORM` runs the entry that its transform id names, or faults (R200, R201). -/
theorem execXform_eq (tid len : Byte) (word dest : Operand) (s : State) :
    execXform tid len word dest s = transformGuard ⟨len, word, dest⟩ s (match s.entryAt tid with
      | some e => runBody e ⟨len, word, dest⟩ s
      | none => raise .xformRange s) := by
  unfold execXform State.entryAt
  cases s.cfg.xt[tid.toNat]? with
  | none => rfl
  | some w =>
    dsimp only
    cases decodeEntry w <;> rfl

theorem execXform_faultsUnless (hf : s.fault = false) (tid len : Byte) (word dest : Operand) :
    FaultsUnless (Accepted (.xform tid len word dest) s) (execXform tid len word dest s) := by
  rw [execXform_eq]
  refine .of_transformGuard hf ?_
  have hacc : Accepted (.xform tid len word dest) s ↔ s.cfg.hasXform = true ∧ spanFits s.cfg word.toNat len.toNat = true ∧
      callerContract (.xform tid len word dest) s = true :=
    ⟨fun ⟨hu, hr, hc⟩ => ⟨hu, hr, hc⟩, fun ⟨hu, hr, hc⟩ => ⟨hu, hr, hc⟩⟩
  rw [hacc, callerContract]
  cases s.entryAt tid with
  | none => simp [raise_answeredFault]
  | some e =>
    simp only [runBody_answeredFault, State.transformContract, Bool.and_eq_true]
    tauto

theorem accepted_entry (he : entryOf i = some e) :
    Accepted i s ↔ s.cfg.hasXform = true ∧ fragmentsOk s.cfg e.prefixId e.suffixId = true ∧
      s.transformContract e (xOperandsOf s.port) = true := by
  cases i <;> cases he <;> exact ⟨fun ⟨hu, hr, hc⟩ => ⟨hu, hr, hc⟩, fun ⟨hu, hr, hc⟩ => ⟨hu, hr, hc⟩⟩

theorem exec_entry_faultsUnless (hf : s.fault = false) (he : entryOf i = some e) : FaultsUnless (Accepted i s) (exec i s) := by
  rw [exec_entry he]
  refine .of_transformGuard hf ?_
  rw [accepted_entry he, State.transformContract, runBody_answeredFault, Bool.and_eq_true]
  have := fragmentsOk_of_expands (s := s) (e := e) (x := xOperandsOf s.port)
  tauto

/-! #### The commands -/

/-- The registers 0 to 8 exist (R32). -/
theorem register_of_le {n : Nat} (h : n ≤ 8) : ∃ v, s.register n = some v := by
  interval_cases n <;> exact ⟨_, rfl⟩

theorem execRdreg_faultsUnless (sel : BitVec 6) : FaultsUnless (Accepted (.rdreg sel) s) (execRdreg sel s) := by
  rw [execRdreg]
  by_cases h : sel.toNat ≤ 8
  · obtain ⟨v, hv⟩ := register_of_le (s := s) h
    rw [hv]
    exact .answer nofun ⟨rfl, decide_eq_true h, rfl⟩
  · rw [register_reserved (Nat.lt_of_not_le h)]
    exact .of_raise fun ⟨_, hr, _⟩ => h (of_decide_eq_true hr)

/-- An instruction whose range and contract are one test each is accepted when both hold (R88, R131). -/
theorem accepted_iff_of_decide {a b : Prop} [Decidable a] [Decidable b] (hu : i.unitPresent (units s.cfg) = true)
    (hr : i.inRange s.cfg = decide a) (hc : callerContract i s = decide b) : Accepted i s ↔ a ∧ b :=
  ⟨fun h => ⟨of_decide_eq_true (hr ▸ h.range), of_decide_eq_true (hc ▸ h.contract)⟩,
    fun ⟨ha, hb⟩ => ⟨hu, hr ▸ decide_eq_true ha, hc ▸ decide_eq_true hb⟩⟩

/-- Every instruction completes, and faults exactly when it is not accepted (R88, R89, R272). -/
theorem exec_faultsUnless (i : Instr) (hs : s.Ready) : FaultsUnless (Accepted i s) (exec i s) := by
  have ⟨⟨hx, _⟩, hf⟩ := hs
  have ⟨_, hw⟩ := ndir_le s.cfg
  have hb := bits_cases s.cfg.w
  have hav : s.avail = s.cfg.w.bits - s.strm.bitPos := rfl
  cases i with
  | init => exact .ite (fun h => .answer nofun ⟨rfl, h, rfl⟩) fun h => .of_raise fun a => h a.range
  | reseat => exact .of_unlessLatched hf <| .ite (fun h => .answer nofun ⟨rfl, h, rfl⟩) fun h => .of_raise fun a => h a.range
  | warmup =>
    refine .of_unlessLatched hf <| .ite (fun ha => .ite (fun _ => ?_) fun hr => .of_endRead ?_ ?_) fun _ => ?_
    · exact .answer nofun ⟨rfl, rfl, rfl⟩
    · exact load1_ok hx (Nat.pos_of_ne_zero hr) (by omega)
    · exact .answer nofun ⟨rfl, rfl, rfl⟩
    · exact .answer nofun ⟨rfl, rfl, rfl⟩
  | avail | rembytes | getu | save => exact .of_unlessLatched hf <| .answer nofun ⟨rfl, rfl, rfl⟩
  | fill n => exact .of_checkedRead hf (accepted_iff_of_decide rfl rfl rfl) fun hl _ => stage_ok hx (by omega)
  | get n => exact .of_checkedRead hf (accepted_iff_of_decide rfl rfl rfl) fun hl _ => stage_ok hx (by omega)
  | take n =>
    refine .of_checkedRead hf (accepted_iff_of_decide rfl rfl rfl) fun hl ht => ?_
    exact (Reads.of_fill_consume (g := True) (by omega) fun _ => ⟨hx.2.1, ht⟩).ok trivial hx
  | read n =>
    refine .of_checkedRead hf (accepted_iff_of_decide rfl rfl rfl) fun hl ht => ?_
    exact (Reads.of_readField (g := True) hl fun _ => ⟨hx.2.1, ht⟩).ok trivial hx
  | sread n =>
    refine .of_safeField (done := fun t => respond .ok (t.peek n.toNat) (t.consume n.toNat)) hs ?_ fun u hu ha =>
      ⟨consume_ok hu ha, rfl⟩
    simpa using accepted_iff_of_decide (i := .sread n) (b := True) rfl rfl rfl
  | sget n =>
    refine .of_safeField hs ?_ fun u hu _ => ⟨hu, rfl⟩
    simpa using accepted_iff_of_decide (i := .sget n) (b := True) rfl rfl rfl
  | pull =>
    refine .of_unlessLatched hf <| .ite (fun hr => ?_) fun hr => .ite (fun hp => ?_) fun hp => .of_endRead ?_ ?_
    · exact .answer nofun ⟨rfl, rfl, decide_eq_true (.inl hr)⟩
    · exact .of_raise fun a => by have := of_decide_eq_true a.contract; omega
    · exact load1_ok hx (Nat.pos_of_ne_zero hr) (Nat.le_of_not_lt hp)
    · exact .answer nofun ⟨rfl, rfl, decide_eq_true (.inr (Nat.le_of_not_lt hp))⟩
  | drop n =>
    have hacc : Accepted (.drop n) s ↔ n.toNat ≤ widestField ∧ n.toNat ≤ s.avail := accepted_iff_of_decide rfl rfl rfl
    refine .of_unlessLatched hf <| .ite (fun hl => .of_raise ?_) fun hl => .ite (fun ha => .of_raise ?_) fun ha => .answer nofun ?_
    all_goals rw [hacc]; omega
  | align => exact .of_unlessLatched hf <| .answer (by split <;> nofun) ⟨rfl, rfl, rfl⟩
  | copy dest cnt =>
    refine .of_unlessLatched hf <| .ite (fun hd => .ite (fun hc => ?_) fun hc => .of_endRead ?_ ?_) fun hd => ?_
    · exact .of_raise fun a => Nat.not_le_of_lt hc (of_decide_eq_true a.contract)
    · exact copyBody_ok hx (Nat.le_of_not_lt hc)
    · exact .answer nofun ⟨rfl, hd, decide_eq_true (Nat.le_of_not_lt hc)⟩
    · exact .of_raise fun a => hd a.range
  | restore => exact .of_unlessLatched hf <| .ite (fun h => .answer nofun ⟨rfl, rfl, h⟩) fun h => .of_raise fun a => h a.contract
  | rdreg sel => exact execRdreg_faultsUnless sel
  | ctx => exact .of_unlessLatched hf <| .ite (fun h => .answer nofun ⟨h, rfl, rfl⟩) fun h => .of_raise fun a => h a.unit
  | xform tid len word dest => exact execXform_faultsUnless hf tid len word dest
  | _ => exact exec_entry_faultsUnless hf rfl

end Faults

/-- Settles O16. -/
theorem faultOnlyOnBrokenContract : Obligations.FaultOnlyOnBrokenContract := by
  intro i s hs
  rw [← accepted_iff]
  exact exec_faultsUnless i hs

/-! ### Every command responds -/

section Responds

variable {s : State} {p : Packet} {rest : List HostEvent}

/-- With the latch set an instruction completes too: it is refused, or it is `INIT` or `RDREG` (R243). -/
theorem exec_completes_latched (i : Instr) (hf : s.fault = true) : ∃ t, exec i s = .next t := by
  cases i with
  | init base len => exact ⟨_, initStartsSession base len s⟩
  | rdreg sel =>
    obtain ⟨t, ht, -⟩ := execRdreg_faultsUnless (s := s) sel
    exact ⟨t, ht⟩
  | _ => exact ⟨_, unlessLatched_set hf⟩

theorem exec_completes (i : Instr) (hs : s.Inv) : ∃ t, exec i s = .next t := by
  cases hf : s.fault with
  | true => exact exec_completes_latched i hf
  | false =>
    obtain ⟨t, ht, -⟩ := exec_faultsUnless i ⟨hs, hf⟩
    exact ⟨t, ht⟩

/-- A rejected packet gets a response, and the host's events stay (R243). -/
theorem rejectPacket_responds (p : Packet) (err : DecodeError) (s : State) :
    ∃ r, (rejectPacket p err s).resp = some r ∧ (rejectPacket p err s).host = s.host := by
  rcases rejectPacket_cases p err s with ⟨-, -, h⟩ | ⟨-, h⟩ <;> rw [h] <;> exact ⟨_, rfl, rfl⟩

end Responds

/-- Settles O26: an instruction completes and answers, a packet that is none is refused or faults. -/
theorem everyCommandResponds : Obligations.EveryCommandResponds := by
  intro s p rest hs hhost
  cases hd : decode (units s.cfg) p with
  | ok i =>
    obtain ⟨t, ht⟩ := exec_completes (s := { s with host := rest, port := p }) i hs
    obtain ⟨r, hr, -⟩ := exec_answersLegally i _ t ht
    obtain ⟨-, -, -, -, hrest, -⟩ := (exec_effect ht).frame
    exact ⟨t, r, (step_of_decode_ok hhost hd).trans ht, hr, hrest⟩
  | error err =>
    obtain ⟨r, hr, hrest⟩ := rejectPacket_responds p err { s with host := rest, port := p }
    exact ⟨_, r, step_of_decode_error hhost hd, hr, hrest⟩

end Sys2Proof.Machine.Answers

/-!
The session and query commands (40_session_query.md): the queries answer without a change, and a safe read that ran out of input is taken up
again on the next chunk. `NODATA` leaves all that is left of the chunk in the window (`safeField_noData`, `exec_sread_noData`),
`RESEAT` puts the new bytes right behind it (`reseated_streamBit`).
-/

namespace Sys2Proof.Machine.Session

open Sys2Proof Sys2Proof.Machine Sys2Proof.Machine.Laws Sys2Proof.Machine.Effects Sys2Proof.Machine.MemoryAccess
open Sys2Proof.Machine.CommandPort

/-! ### The queries -/

/-- A command that only answers, with the latch clear (R245 item 1). -/
theorem unlessLatched_answer {s : State} {st : Status} {v : Value} (hf : s.fault = false) :
    unlessLatched s (.next (respond st v s)) = .next (s.answered s.strm st v) := by
  rw [unlessLatched_clear hf, respond_eq_answered]

/-- Settles O30: the formulas are those of `avail()`, `rembytes()` and the unmasked window. -/
theorem queriesAnswer : Obligations.QueriesAnswer := fun _ hf =>
  ⟨unlessLatched_answer hf, unlessLatched_answer hf, unlessLatched_answer hf⟩

/-! ### Runs of ready states -/

section Runs

variable {s t u : State} {i : Instr} {is : List Instr} {rs : List (Option Response)}

/-- An instruction that takes no fault keeps the block ready. -/
theorem ready_of_exec (hs : s.Ready) (h : exec i s = .next t) (hf : t.fault = false) : t.Ready :=
  ⟨(exec_effect h).inv hs.1, hf⟩

theorem runInstrs_cons (h : exec i s = .next t) (hr : runInstrs is t = some (u, rs)) :
    runInstrs (i :: is) s = some (u, t.resp :: rs) := by
  rw [runInstrs, h]
  simp only [hr]

end Runs

/-! ### A safe read without enough input -/

section NoData

variable {s : State} {n : BitVec 6} {target : Nat}

/-- Staging for more bits than there are loads the whole chunk (R150). -/
theorem bytesToStage_of_short (ht : s.total < target) : bytesToStage s.cfg.w target s.strm = s.strm.remaining := by
  have htot : s.total = 8 * s.strm.remaining + s.strm.avail s.cfg.w := rfl
  unfold bytesToStage
  omega

/-- Staging for more bits than there are puts all of them into the window (R150, R151). -/
theorem stagedStream_avail_of_short (hs : s.strm.Ok s.cfg) (hw : target + 7 ≤ s.cfg.w.bits) (ht : s.total < target) :
    (stagedStream s target s.strm).avail s.cfg.w = s.total := by
  obtain ⟨-, hb⟩ := bytesToStage_fits hs.2.1 hw
  rw [stagedStream, loadMany_avail hb hs.2.1, bytesToStage_of_short ht]
  exact Nat.add_comm ..

/-- A safe read of more bits than there are answers `NODATA` with them staged (R150, R151). -/
theorem safeField_noData {done : State → State} (hs : s.strm.Ok s.cfg) (hf : s.fault = false) (hl : n.toNat ≤ ndir s.cfg)
    (ht : s.total < n.toNat) :
    safeField n s done = .next (s.answered (stagedStream s n.toNat s.strm) .noData 0) := by
  have hw : n.toNat + 7 ≤ s.cfg.w.bits := by have := ndir_le s.cfg; omega
  have hshort : (s.withStream (stagedStream s n.toNat s.strm)).avail < n.toNat := by
    rw [withStream_avail, stagedStream_avail_of_short hs hw ht]
    exact ht
  rw [safeField, unlessLatched_clear hf, if_neg (Nat.not_lt.2 hl), staged_eq hs hw]
  exact (if_pos hshort).trans (endRead_answered (stagedStream_ok hs hw))

/-- `NODATA` (R150): all that is left is in the window, and the stream is the same bits. -/
theorem exec_sread_noData (hs : s.Ready) (hl : n.toNat ≤ ndir s.cfg) (ht : s.total < n.toNat) :
    ∃ t, exec (.sread n) s = .next t ∧ t.resp = some ⟨.noData, 0⟩ ∧ t.Ready ∧ t.cfg = s.cfg ∧ t.inMem = s.inMem ∧
      t.avail = s.total ∧ ∀ j, t.streamBit j = s.streamBit j := by
  have ⟨⟨hx, _⟩, hf⟩ := hs
  have hw : n.toNat + 7 ≤ s.cfg.w.bits := by have := ndir_le s.cfg; omega
  have he : exec (.sread n) s = .next (s.answered (stagedStream s n.toNat s.strm) .noData 0) :=
    safeField_noData (done := fun t => respond .ok (t.peek n.toNat) (t.consume n.toNat)) hx hf hl ht
  refine ⟨_, he, rfl, ready_of_exec hs he hf, rfl, rfl, stagedStream_avail_of_short hx hw ht, fun j => ?_⟩
  rw [← streamBit_staged hx hw j, staged_eq hx hw]
  rfl

end NoData

/-! ### `RESEAT` on the next chunk -/

section Reseat

variable {s : State} {base len : Operand}

/-- The state after a `RESEAT` that passes its check (R111). -/
def reseated (base len : Operand) (s : State) : State :=
  { s with
    strm := ⟨s.strm.acc, s.strm.bitPos, base.toNat, len.toNat⟩, ckValid := false, resp := some ⟨.ok, 0⟩ }

theorem exec_reseat (hf : s.fault = false) (hd : base.toNat + len.toNat < 2 ^ s.cfg.aw) :
    exec (.reseat base len) s = .next (reseated base len s) := by
  rw [reseatKeepsWindow base len s hf, if_pos hd]
  rfl

theorem reseated_total : (reseated base len s).total = 8 * len.toNat + s.avail := rfl

/-- The new chunk follows the bits of the window (R53, R111). -/
theorem reseated_streamBit (j : Nat) :
    (reseated base len s).streamBit j =
      if j < s.avail then s.streamBit j
      else (s.inMem.read (base.toNat + (j - s.avail) / 8)).getLsbD ((j - s.avail) % 8) := by
  by_cases hj : j < s.avail
  · rw [if_pos hj, State.streamBit, State.streamBit, if_pos hj]
    exact if_pos hj
  · rw [if_neg hj, State.streamBit]
    exact if_neg hj

end Reseat

/-! ### Retry -/

/-- An `SREAD` of bits that the stream has answers its field and consumes it (R24, R150). -/
theorem exec_sread_ok {s : State} {n : BitVec 6} (hs : s.Ready) (hl : n.toNat ≤ ndir s.cfg) (ht : n.toNat ≤ s.total) :
    ∃ t v, exec (.sread n) s = .next t ∧ t.resp = some ⟨.ok, v⟩ ∧ s.FieldAt 0 n.toNat v ∧ StreamAdvanced s t n.toNat := by
  obtain ⟨v, hv, he, -⟩ := safeReadsReturnField n s hs hl ht
  obtain ⟨r, hr, hadv⟩ := streamAdvances (.sread n) s _ hs he nofun fun _ _ => ⟨nofun, nofun, nofun⟩
  cases hr
  exact ⟨_, v, he, rfl, hv, hadv⟩

/-- Settles O45: `NODATA` leaves the old bits in the window, `RESEAT` puts the new bytes behind them, and the second `SREAD` has enough. -/
theorem retryAfterReseat : Obligations.RetryAfterReseat := by
  intro n base len s hs hl hshort hd henough
  obtain ⟨dry, hfirst, hresp, hready, hcfg, hmem, havail, hbits⟩ := exec_sread_noData hs hl hshort
  have hsecond := exec_reseat (base := base) (len := len) hready.2 (hcfg ▸ hd)
  have htotal : (reseated base len dry).total = s.total + 8 * len.toNat := by rw [reseated_total, havail, Nat.add_comm]
  obtain ⟨t, v, hthird, hv, hfield, hadv, -⟩ :=
    exec_sread_ok (n := n) (ready_of_exec hready hsecond hready.2) (hcfg.symm ▸ hl) (htotal ▸ henough)
  refine ⟨t, v, ?_, hadv.trans htotal, fun j => ?_⟩
  · rw [runInstrs_cons hfirst (runInstrs_cons hsecond (runInstrs_cons hthird rfl)), hresp, hv]
    rfl
  · rw [hfield j, Nat.zero_add, reseated_streamBit, havail, hbits, hmem]

end Sys2Proof.Machine.Session

/-!
The unchecked window commands and the refill policy (41_fill_peek.md). Staging a second time loads nothing (`stage_stage`), so `FILL`, `GET`
and `SGET` may be repeated. `FieldAnswer` says what a reading command answers in terms of the unread stream alone: how much of that stream
is staged cannot be seen in it.
-/

namespace Sys2Proof.Machine.Window

open Sys2Proof Sys2Proof.Machine Sys2Proof.Machine.Laws Sys2Proof.Machine.Effects Sys2Proof.Machine.MemoryAccess
open Sys2Proof.Machine.CommandPort Sys2Proof.Machine.Session

/-! ### Staging -/

section Staging

variable {w : AccWidth} {m m' : Memory} {x : Stream} {s : State} {target : Nat}

/-- Staging ends with the target in the window or the chunk used up (R131). -/
theorem stage_reaches (hb : x.bitPos ≤ w.bits) (ht : target + 7 ≤ w.bits) :
    ¬((x.stage w m target).avail w < target ∧ 0 < (x.stage w m target).remaining) := by
  obtain ⟨-, hfits⟩ := bytesToStage_fits hb ht
  rw [stage_eq_loadMany hb ht, loadMany_avail hfits hb, loadMany_remaining]
  unfold bytesToStage
  omega

/-- With the target in the window or the chunk used up nothing is loaded (R131). -/
theorem stage_idle (h : ¬(x.avail w < target ∧ 0 < x.remaining)) : x.stage w m target = x := by
  unfold Stream.stage
  cases x.remaining with
  | zero => rfl
  | succ fuel => exact if_neg h

/-- Staging again for the same target loads nothing, whatever `IN` holds by then (R136 item 2). -/
theorem stage_stage (hb : x.bitPos ≤ w.bits) (ht : target + 7 ≤ w.bits) :
    (x.stage w m target).stage w m' target = x.stage w m target :=
  stage_idle (stage_reaches hb ht)

/-- Staged bits are bits of the stream (R24). -/
theorem staged_avail_le (hs : s.strm.Ok s.cfg) (ht : target + 7 ≤ s.cfg.w.bits) : (s.staged target).avail ≤ s.total := by
  obtain ⟨-, htotal⟩ := (Reads.of_stage (g := True) (m := s.inMem) (x := s.strm) ht).total trivial hs.2.1
  have hdef : (s.staged target).strm.total s.cfg.w = 8 * (s.staged target).strm.remaining + (s.staged target).avail := rfl
  have hsame : (s.staged target).strm.total s.cfg.w = s.total := htotal
  omega

end Staging

/-! ### `FILL` -/

/-- No fewer bytes than staging loads are an admissible refill (R130, R131). -/
theorem bytesToStage_le_of_admissible {w : AccWidth} {n k : Nat} {x : Stream} (h : AdmissibleRefill w n k x) :
    bytesToStage w (n + 1) x ≤ k := by
  obtain ⟨-, -, hreach⟩ := h
  have htotal : x.total w = 8 * x.remaining + x.avail w := rfl
  unfold bytesToStage
  omega

/-- Settles O32: the number of bytes is `bytesToStage`, which fits, reaches the request, and is the least that does. -/
theorem fillStagesLeast : Obligations.FillStagesLeast := by
  rintro n s ⟨⟨hs, -⟩, hf⟩ hl ht
  have hw : n.toNat + 1 + 7 ≤ s.cfg.w.bits := by have := ndir_le s.cfg; omega
  obtain ⟨hrem, hroom⟩ := bytesToStage_fits hs.2.1 hw
  refine ⟨?_, ⟨hrem, hroom, bytesToStage_reaches⟩, fun j => bytesToStage_le_of_admissible⟩
  show execFill n s = .next (s.answered (stagedStream s (n.toNat + 1) s.strm) .ok 0)
  rw [execFill, show s.filled n.toNat = _ from staged_eq hs hw]
  exact checkedRead_answered hf hl ht (stagedStream_ok hs hw)

/-! ### Repeating `FILL`, `GET`, `SGET` -/

section Repeating

variable {s t : State} {m : Memory} {n target : Nat} {st : Status} {v : Value}

/-- A state that holds the answer of a refused command: the latched cause (R242, R243). -/
def Refused (t : State) : Prop := t.fault = true ∧ t.resp = some ⟨.fault, t.faultCause.setWidth 64⟩

theorem refused_refuse (hf : s.fault = true) : Refused (refuse s) := ⟨hf, rfl⟩

theorem refused_raise (c : Cause) (hf : s.fault = false) : Refused (raise c s) :=
  ⟨rfl, by rw [raise_resp, raise_faultCause, if_neg (by simp [hf])]⟩

/-- An answer that stands on the response port may be given again. -/
theorem respond_eq_self (h : s.resp = some ⟨st, v⟩) : respond st v s = s := by
  rw [respond, ← h]

/-- A refused command is refused again, with nothing changed (R243). -/
theorem Refused.again (h : Refused t) (run : Result) : unlessLatched t run = .next t := by
  rw [unlessLatched_set h.1]
  exact congrArg Host.Outcome.next (respond_eq_self h.2)

/-- What `IN` holds does not matter to a refusal. -/
theorem Refused.withIn (h : Refused t) (m : Memory) : Refused (withIn m t) := h

@[simp] theorem withIn_avail (m : Memory) (s : State) : (withIn m s).avail = s.avail := rfl

/-- A command that leaves `cursor` has read nothing (R58). -/
theorem endRead_respond (st : Status) (v : Value) (s : State) : endRead s (respond st v s) = .next (respond st v s) :=
  if_neg fun h => Nat.lt_irrefl _ h.1

/-- After staging and an answer nothing is staged the second time, whatever `IN` holds by then. -/
theorem staged_again (hs : s.strm.Ok s.cfg) (hw : target + 7 ≤ s.cfg.w.bits) :
    (withIn m (respond st v (s.staged target))).staged target = withIn m (respond st v (s.staged target)) :=
  congrArg (withIn m (respond st v (s.staged target))).withStream (stage_stage hs.2.1 hw)

/-- An unchecked read that only stages gives the same answer again (R136 items 1 and 2). -/
theorem checkedRead_again {value : Stream → Value} (hs : s.strm.Ok s.cfg)
    (h : checkedRead (ndir s.cfg) n s (endRead s (respond .ok (value (s.filled n).strm) (s.filled n))) = .next t) :
    checkedRead (ndir t.cfg) n (withIn m t)
      (endRead (withIn m t) (respond .ok (value ((withIn m t).filled n).strm) ((withIn m t).filled n))) = .next (withIn m t) := by
  rcases checkedRead_next h with ⟨hf, rfl⟩ | ⟨hf, -, rfl⟩ | ⟨hf, -, -, rfl⟩ | ⟨hf, hl, ht, h⟩
  · exact ((refused_refuse hf).withIn m).again _
  · exact ((refused_raise _ hf).withIn m).again _
  · exact ((refused_raise _ hf).withIn m).again _
  · obtain ⟨rfl, -⟩ := endRead_next h
    have hw : n + 1 + 7 ≤ s.cfg.w.bits := by have := ndir_le s.cfg; omega
    have hidle := staged_again (m := m) (st := .ok) (v := value (s.filled n).strm) hs hw
    have htotal : n ≤ (s.filled n).total :=
      ht.trans_eq ((Reads.of_stage (g := True) hw).streamAdvanced trivial hs).1.symm
    generalize hu : withIn m (respond .ok (value (s.filled n).strm) (s.filled n)) = u
    have hfu : u.fault = false := hu ▸ hf
    have hresp : u.resp = some ⟨.ok, value u.strm⟩ := hu ▸ rfl
    have hfilled : u.filled n = u := hu ▸ hidle
    rw [hfilled, endRead_respond, respond_eq_self hresp]
    exact checkedRead_passes hfu hl (hu ▸ htotal)

/-- `SGET` with nothing to stage answers from the window (R151). -/
theorem execSget_idle {n : BitVec 6} (hf : s.fault = false) (hl : n.toNat ≤ ndir s.cfg) (hidle : s.staged n.toNat = s) :
    execSget n s = .next (if s.avail < n.toNat then respond .noData 0 s else respond .ok (s.peek n.toNat) s) := by
  rw [execSget, safeField, unlessLatched_clear hf, if_neg (Nat.not_lt.2 hl), hidle]
  simp only [endRead_respond, apply_ite (Host.Outcome.next (φ := Fault) (ρ := Refusal))]

/-- `SGET` gives the same answer again, also `NODATA` (R151). -/
theorem execSget_again {n : BitVec 6} (hs : s.strm.Ok s.cfg) (h : execSget n s = .next t) :
    execSget n (withIn m t) = .next (withIn m t) := by
  have refusedAgain : ∀ u, Refused u → execSget n u = .next u := fun u hu => hu.again _
  have hw : n.toNat ≤ ndir s.cfg → n.toNat + 7 ≤ s.cfg.w.bits := by have := ndir_le s.cfg; omega
  rcases safeField_next h with ⟨hf, rfl⟩ | ⟨hf, -, rfl⟩ | ⟨hf, hl, ha, rfl⟩ | ⟨hf, hl, ha, rfl⟩
  · exact refusedAgain _ ((refused_refuse hf).withIn m)
  · exact refusedAgain _ ((refused_raise _ hf).withIn m)
  · refine (execSget_idle (s := withIn m (respond _ _ (s.staged n.toNat))) hf hl (staged_again hs (hw hl))).trans ?_
    rw [withIn_avail, respond_avail, if_pos ha, respond_eq_self rfl]
  · refine (execSget_idle (s := withIn m (respond _ _ (s.staged n.toNat))) hf hl (staged_again hs (hw hl))).trans ?_
    rw [withIn_avail, respond_avail, if_neg (Nat.not_lt.2 ha), respond_eq_self rfl]

end Repeating

/-- Settles O35: a fault is refused again with the same cause, and after an answer nothing is left to stage. -/
theorem peekIsIdempotent : Obligations.PeekIsIdempotent := by
  rintro n i s t m ⟨hs, -⟩ (rfl | rfl | rfl) h
  · exact checkedRead_again (value := (·.peek n.toNat)) hs h
  · exact checkedRead_again (value := fun _ => 0) hs h
  · exact execSget_again hs h

/-! ### `TAKE` -/

/-- Settles O36: `GET` stages the `n` bits that `DROP` needs. -/
theorem takeIsGetThenDrop : Obligations.TakeIsGetThenDrop := by
  intro n s hs hl ht
  obtain ⟨v, -, hget, htake⟩ := getAndTakeField n s hs hl ht
  have ⟨⟨hx, _⟩, hf⟩ := hs
  have ⟨hl32, hw⟩ := ndir_le s.cfg
  have hstaged : n.toNat ≤ (s.answered (stagedStream s (n.toNat + 1) s.strm) .ok v).avail := by
    have := le_staged_avail (target := n.toNat + 1) hx (by omega) (by omega) ht
    rwa [staged_eq hx (by omega)] at this
  have hdrop : exec (.drop n) (s.answered (stagedStream s (n.toNat + 1) s.strm) .ok v) =
      .next (s.answered ((stagedStream s (n.toNat + 1) s.strm).consume n.toNat) .ok 0) := by
    refine (execDrop_clear (s := s.answered _ _ _) hf).trans ?_
    rw [if_neg (by omega), if_neg (Nat.not_lt.2 hstaged)]
    rfl
  exact ⟨v, _, _, hget, rfl, hdrop, rfl, htake⟩

/-- A field is determined by its stream bits (R53). -/
theorem fieldAt_ext {s s' : State} {n : Nat} {v v' : Value} (hbits : ∀ k, k < n → s'.streamBit k = s.streamBit k) (h : s.FieldAt 0 n v)
    (h' : s'.FieldAt 0 n v') : v = v' := by
  refine BitVec.eq_of_getLsbD_eq fun i _ => ?_
  rw [h i, h' i, Nat.zero_add]
  by_cases hi : i < n
  · rw [hbits i hi]
  · rw [decide_eq_false hi, Bool.false_and, Bool.false_and]

/-- After a `TAKE` the block is ready again, with the stream advanced by the field (R24, R134). -/
theorem exec_take_ready {s : State} {n : BitVec 6} (hs : s.Ready) (hl : n.toNat ≤ ndir s.cfg) (ht : n.toNat ≤ s.total) :
    ∃ t v, exec (.take n) s = .next t ∧ t.resp = some ⟨.ok, v⟩ ∧ s.FieldAt 0 n.toNat v ∧ t.Ready ∧ t.cfg = s.cfg ∧
      StreamAdvanced s t n.toNat := by
  obtain ⟨v, hv, -, he⟩ := getAndTakeField n s hs hl ht
  obtain ⟨r, hr, hadv⟩ := streamAdvances (.take n) s _ hs he nofun fun _ _ => ⟨nofun, nofun, nofun⟩
  cases hr
  exact ⟨_, v, he, rfl, hv, ready_of_exec hs he hs.2, rfl, hadv⟩

/-- Settles O37: the field of `TAKE b` follows that of `TAKE a` in the stream, and together they are the field of `TAKE (a + b)`. -/
theorem takeSplits : Obligations.TakeSplits := by
  intro a b c s hs hc hl ht
  obtain ⟨t, va, hta, hra, hva, hready, hcfg, hadva⟩ := exec_take_ready (n := a) hs (by omega) (by omega)
  have htotal := hadva.1
  obtain ⟨u, vb, htb, hrb, hvb, -, -, hadvb⟩ := exec_take_ready (n := b) hready (by rw [hcfg]; omega) (by omega)
  obtain ⟨z, v, htc, hrc, hv, -, -, hadvc⟩ := exec_take_ready hs hl ht
  refine ⟨va, vb, t, u, v, z, hta, hra, htb, hrb, htc, hrc, ?_, ?_⟩
  · have h64 : a.toNat + b.toNat ≤ 64 := by have := ndir_le s.cfg; omega
    have hjoined := fieldAt_append hva (fieldAt_of_advanced hadva (by omega) hvb) h64
    exact fieldAt_ext (fun _ _ => rfl) (hc ▸ hv) hjoined
  · have := hadvb.1
    have := hadvc.1
    omega

/-! ### The refill policy -/

section Policy

variable {s s' t t' u : State} {limit limit' n : Nat} {short : Response} {r r' : Option Response} {v : Value}

/-- What a read of `n` bits answers, told from the unread stream alone (R133 to R135, R150, R151): `n` out of range, `short` with fewer than
`n` bits left, else the field. -/
inductive FieldAnswer (s : State) (limit n : Nat) (short : Response) : Option Response → Prop
  | outOfRange (hl : limit < n) : FieldAnswer s limit n short (some ⟨.fault, Cause.illegalField.code.setWidth 64⟩)
  | tooShort (hl : n ≤ limit) (ht : s.total < n) : FieldAnswer s limit n short (some short)
  | field (hl : n ≤ limit) (ht : n ≤ s.total) (v : Value) (hv : s.FieldAt 0 n v) : FieldAnswer s limit n short (some ⟨.ok, v⟩)

/-- The same unread stream gives the same answer (R137). -/
theorem FieldAnswer.eq_of_sameStream (h : SameStream s s') (hlimit : limit' = limit) (hr : FieldAnswer s limit n short r)
    (hr' : FieldAnswer s' limit' n short r') : r = r' := by
  obtain ⟨-, htotal, hbits⟩ := h
  cases hr with
  | outOfRange hl =>
    cases hr' with
    | outOfRange => rfl
    | tooShort | field => omega
  | tooShort hl ht =>
    cases hr' with
    | tooShort => rfl
    | outOfRange | field => omega
  | field hl ht v hv =>
    cases hr' with
    | field _ _ v' hv' => rw [fieldAt_ext (fun k hk => hbits k (by omega)) hv hv']
    | outOfRange | tooShort => omega

/-- An unchecked read answers from the unread stream (R131, R133 to R135). -/
theorem checkedRead_fieldAnswer (hf : s.fault = false) (hv : n ≤ limit → n ≤ s.total → s.FieldAt 0 n v)
    (h : checkedRead limit n s (endRead s (respond .ok v u)) = .next t) :
    FieldAnswer s limit n ⟨.fault, Cause.underrun.code.setWidth 64⟩ t.resp := by
  rcases checkedRead_next h with ⟨hset, -⟩ | ⟨-, hl, rfl⟩ | ⟨-, hl, ht, rfl⟩ | ⟨-, hl, ht, h⟩
  · rw [hf] at hset
    cases hset
  · exact .outOfRange hl
  · exact .tooShort hl ht
  · obtain ⟨rfl, -⟩ := endRead_next h
    exact .field hl ht v (hv hl ht)

/-- A safe read answers from the unread stream (R150, R151). -/
theorem safeField_fieldAnswer {n : BitVec 6} {done : State → State} (hs : s.Ready)
    (hdone : ∀ u, (done u).resp = some ⟨.ok, u.peek n.toNat⟩) (h : safeField n s done = .next t) :
    FieldAnswer s (ndir s.cfg) n.toNat ⟨.noData, 0⟩ t.resp := by
  obtain ⟨⟨hx, -⟩, hf⟩ := hs
  have hndir := ndir_le s.cfg
  rcases safeField_next h with ⟨hset, -⟩ | ⟨-, hl, rfl⟩ | ⟨-, hl, ha, rfl⟩ | ⟨-, hl, ha, rfl⟩
  · rw [hf] at hset
    cases hset
  · exact .outOfRange hl
  · refine .tooShort hl (Nat.lt_of_not_le fun ht => ?_)
    have := le_staged_avail (target := n.toNat) hx (by omega) (Nat.le_refl _) ht
    omega
  · have ht : n.toNat ≤ s.total := ha.trans (staged_avail_le hx (by omega))
    rw [hdone]
    exact .field hl ht _ (staged_peek_fieldAt hx (by omega) (Nat.le_refl _) ht)

/-- `GET` and `TAKE` answer the same field (R133, R134). -/
theorem exec_window_fieldAnswer {i : Instr} {n : BitVec 6} (hi : i = .get n ∨ i = .take n) (hs : s.Ready) (h : exec i s = .next t) :
    FieldAnswer s (ndir s.cfg) n.toNat ⟨.fault, Cause.underrun.code.setWidth 64⟩ t.resp := by
  have hv : n.toNat ≤ ndir s.cfg → n.toNat ≤ s.total → s.FieldAt 0 n.toNat ((s.filled n.toNat).peek n.toNat) := fun hl ht =>
    staged_peek_fieldAt (target := n.toNat + 1) hs.1.1 (by have := ndir_le s.cfg; omega) (by omega) ht
  rcases hi with rfl | rfl <;> exact checkedRead_fieldAnswer hs.2 hv h

/-- `READ` answers a field of up to 32 bits (R135). -/
theorem exec_read_fieldAnswer {n : BitVec 6} (hs : s.Ready) (h : exec (.read n) s = .next t) :
    FieldAnswer s widestField n.toNat ⟨.fault, Cause.underrun.code.setWidth 64⟩ t.resp :=
  checkedRead_fieldAnswer hs.2 (fun hl ht => (readField_spec hs.1.1 hl ht).1) h

/-- `SREAD` and `SGET` answer the same field, or `NODATA` (R150, R151). -/
theorem exec_safe_fieldAnswer {i : Instr} {n : BitVec 6} (hi : i = .sread n ∨ i = .sget n) (hs : s.Ready) (h : exec i s = .next t) :
    FieldAnswer s (ndir s.cfg) n.toNat ⟨.noData, 0⟩ t.resp := by
  rcases hi with rfl | rfl
  · have he : execSread n s = .next t := h
    exact safeField_fieldAnswer hs (fun _ => rfl) he
  · have he : execSget n s = .next t := h
    exact safeField_fieldAnswer hs (fun _ => rfl) he

/-- The stream and the window end on the same bit of a byte (R13). -/
theorem avail_mod_eight (s : State) : s.avail % 8 = s.total % 8 := by
  have : s.total = 8 * s.strm.remaining + s.avail := rfl
  omega

/-- The whole bytes of the unread stream, staged or not (R13). -/
theorem rembytes_eq_total_div (s : State) : s.rembytes = s.total / 8 := by
  have : s.total = 8 * s.strm.remaining + s.avail := rfl
  have : s.rembytes = s.strm.remaining + s.avail / 8 := rfl
  omega

/-- `ALIGN` answers from the bits of the stream up to its byte boundary (R170). -/
theorem align_resp (hs : s.Ready) (h : exec .align s = .next t) :
    ∃ v, s.FieldAt 0 (s.total % 8) v ∧ t.resp = some ⟨if v = 0 then .ok else .badPad, 0⟩ := by
  have hpad : s.FieldAt 0 (s.avail % 8) (s.peek (s.avail % 8)) := peek_fieldAt (Nat.mod_le ..) (by omega)
  have he : execAlign s = .next t := h
  rw [execAlign, unlessLatched_clear hs.2] at he
  cases he
  exact ⟨_, avail_mod_eight s ▸ hpad, rfl⟩

/-- `WARMUP` answers `NODATA` when no bit is left (R112). -/
theorem warmup_resp (hs : s.Ready) (h : exec .warmup s = .next t) :
    t.resp = some ⟨if s.total = 0 then .noData else .ok, 0⟩ := by
  have htotal : s.total = 8 * s.strm.remaining + (s.cfg.w.bits - s.strm.bitPos) := rfl
  cases (execWarmup_eq hs).symm.trans h
  by_cases hb : s.strm.bitPos < s.cfg.w.bits
  · rw [if_pos hb, if_neg (by omega)]
    rfl
  · by_cases hr : s.strm.remaining = 0
    · rw [if_neg hb, if_pos hr, if_pos (by omega)]
      rfl
    · rw [if_neg hb, if_neg hr, if_neg (by omega)]
      rfl

/-- `REMBYTES` answers the whole bytes of the unread stream (R114). -/
theorem rembytes_resp (hs : s.Ready) (h : exec .rembytes s = .next t) : t.resp = some ⟨.ok, BitVec.ofNat 64 (s.total / 8)⟩ := by
  rw [← rembytes_eq_total_div]
  cases (unlessLatched_answer hs.2).symm.trans h
  rfl

/-- The policy-free commands answer alike on the same unread stream (R137). -/
theorem resp_eq_of_sameStream {i : Instr} (hi : policyFree i = true) (hs : s.Ready) (hs' : s'.Ready) (hsame : SameStream s s')
    (h : exec i s = .next t) (h' : exec i s' = .next t') : t.resp = t'.resp := by
  have ⟨hcfg, htotal, hbits⟩ := hsame
  have hndir : ndir s'.cfg = ndir s.cfg := congrArg ndir hcfg
  cases i with
  | get n =>
    exact FieldAnswer.eq_of_sameStream hsame hndir (exec_window_fieldAnswer (.inl rfl) hs h)
      (exec_window_fieldAnswer (.inl rfl) hs' h')
  | take n =>
    exact FieldAnswer.eq_of_sameStream hsame hndir (exec_window_fieldAnswer (.inr rfl) hs h)
      (exec_window_fieldAnswer (.inr rfl) hs' h')
  | read n => exact FieldAnswer.eq_of_sameStream hsame rfl (exec_read_fieldAnswer hs h) (exec_read_fieldAnswer hs' h')
  | sread n =>
    exact FieldAnswer.eq_of_sameStream hsame hndir (exec_safe_fieldAnswer (.inl rfl) hs h)
      (exec_safe_fieldAnswer (.inl rfl) hs' h')
  | sget n =>
    exact FieldAnswer.eq_of_sameStream hsame hndir (exec_safe_fieldAnswer (.inr rfl) hs h)
      (exec_safe_fieldAnswer (.inr rfl) hs' h')
  | align =>
    obtain ⟨v, hv, hresp⟩ := align_resp hs h
    obtain ⟨v', hv', hresp'⟩ := align_resp hs' h'
    have hle := Nat.mod_le s.total 8
    rw [hresp, hresp', fieldAt_ext (fun k hk => hbits k (by omega)) hv (htotal ▸ hv')]
  | warmup => rw [warmup_resp hs h, warmup_resp hs' h', htotal]
  | rembytes => rw [rembytes_resp hs h, rembytes_resp hs' h', htotal]
  | _ => exact absurd hi Bool.false_ne_true

/-- What a policy-free command consumes depends on the unread stream alone (R24). -/
theorem bitsConsumed_eq_of_sameStream {i : Instr} (hi : policyFree i = true) (hsame : SameStream s s') (st : Status) :
    bitsConsumed i s' st = bitsConsumed i s st := by
  cases i with
  | align =>
    show (if st = .fault then 0 else s'.avail % 8) = if st = .fault then 0 else s.avail % 8
    rw [avail_mod_eight, avail_mod_eight, hsame.2.1]
  | get | take | read | sread | sget | warmup | rembytes => rfl
  | _ => exact absurd hi Bool.false_ne_true

/-- Advancing the same stream by the same bits leaves the same stream (R24, R26). -/
theorem sameStream_of_advanced (hsame : SameStream s s') (hcfg : t.cfg = s.cfg) (hcfg' : t'.cfg = s'.cfg)
    (h : StreamAdvanced s t n) (h' : StreamAdvanced s' t' n) : SameStream t t' := by
  obtain ⟨hsameCfg, hsameTotal, hsameBits⟩ := hsame
  obtain ⟨htotal, hbits⟩ := h
  obtain ⟨htotal', hbits'⟩ := h'
  refine ⟨by rw [hcfg', hsameCfg, hcfg], by omega, fun k hk => ?_⟩
  rw [hbits k hk, hbits' k (by omega), hsameBits (n + k) (by omega)]

end Policy

/-- No policy-free command sets the stream registers outright. -/
theorem policyFree_only_advances {i : Instr} (hi : policyFree i = true) :
    i ≠ .restore ∧ ∀ a b, i ≠ .copy a b ∧ i ≠ .init a b ∧ i ≠ .reseat a b := by
  refine ⟨?_, fun a b => ⟨?_, ?_, ?_⟩⟩ <;> rintro rfl <;> exact absurd hi Bool.false_ne_true

/-- Settles O40: the answers are told from the unread stream, and each side advances it by the same number of bits. -/
theorem refillPolicyInvisible : Obligations.RefillPolicyInvisible := by
  intro i s s' t t' hi hs hs' hsame h h'
  have hresp := resp_eq_of_sameStream hi hs hs' hsame h h'
  obtain ⟨hrestore, hother⟩ := policyFree_only_advances hi
  obtain ⟨r, hr, hadv⟩ := streamAdvances i s t hs h hrestore hother
  obtain ⟨r', hr', hadv'⟩ := streamAdvances i s' t' hs' h' hrestore hother
  have hrr : r' = r := Option.some.inj (hr'.symm.trans (hresp.symm.trans hr))
  rw [hrr, bitsConsumed_eq_of_sameStream hi hsame] at hadv'
  exact ⟨hresp, sameStream_of_advanced hsame (exec_effect h).frame.1 (exec_effect h').frame.1 hadv hadv'⟩

end Sys2Proof.Machine.Window

/-!
The safe reads without enough input, and `DROP` (42_safe_pull_drop.md). Both safe reads stop on the same staged registers: the whole chunk is
in the window (`stagedStream_of_short`), and staging alone leaves the unread stream as it was (`stagedStream_advanced`).
-/

namespace Sys2Proof.Machine.SafeReads

open Sys2Proof Sys2Proof.Machine Sys2Proof.Machine.Laws Sys2Proof.Machine.Effects Sys2Proof.Machine.MemoryAccess
open Sys2Proof.Machine.CommandPort Sys2Proof.Machine.Session

section Staging

variable {s : State} {target : Nat}

/-- Staging for more bits than there are loads the rest of the chunk (R150). -/
theorem stagedStream_of_short (ht : s.total < target) :
    stagedStream s target s.strm = s.strm.loadMany s.cfg.w s.inMem s.strm.remaining := by
  rw [stagedStream, bytesToStage_of_short ht]

/-- Staging consumes no bit of the stream and changes none (R24, R26). -/
theorem stagedStream_advanced (hs : s.strm.Ok s.cfg) (hw : target + 7 ≤ s.cfg.w.bits) :
    StreamAdvanced s (s.withStream (stagedStream s target s.strm)) 0 := by
  rw [← staged_eq hs hw]
  exact (Reads.of_stage (g := True) hw).streamAdvanced trivial hs

end Staging

/-- Settles O42: the registers after `NODATA` are those of staging for `n` bits, which loads all that is left. -/
theorem safeReadsAnswerNoData : Obligations.SafeReadsAnswerNoData := by
  rintro n s ⟨⟨hs, -⟩, hf⟩ hl ht
  have hw : n.toNat + 7 ≤ s.cfg.w.bits := by have := ndir_le s.cfg; omega
  have hall := stagedStream_of_short ht
  refine ⟨stagedStream s n.toNat s.strm, ?sread, ?sget, hall, ?remaining, ?cursor, stagedStream_avail_of_short hs hw ht,
    stagedStream_advanced hs hw⟩
  case sread => exact safeField_noData (done := fun t => respond .ok (t.peek n.toNat) (t.consume n.toNat)) hs hf hl ht
  case sget => exact safeField_noData (done := fun t => respond .ok (t.peek n.toNat) t) hs hf hl ht
  case remaining => rw [hall, loadMany_remaining, Nat.sub_self]
  case cursor => rw [hall, loadMany_cursor]

/-- Settles O44: both checks of R153 pass, and what is left of `DROP` is the move of `bitPos`. -/
theorem dropConsumesStagedBits : Obligations.DropConsumesStagedBits := by
  intro n s hf hl ha
  refine (execDrop_clear hf).trans ?_
  rw [if_neg (Nat.not_lt.2 hl), if_neg (Nat.not_lt.2 ha)]
  rfl

end Sys2Proof.Machine.SafeReads

/-!
The byte boundary and the checkpoint (43_align_copy_ckpt.md). The checkpoint law rests on two facts. An instruction that may stand between
`SAVE` and `RESTORE` and takes no fault changes nothing but the stream registers, `OUT` and the response (`exec_worked`), so `RESTORE` leads
back to the state right after `SAVE`, up to `OUT`. And no instruction reads `OUT` (`exec_withOut`), so the replay answers as the run did.
-/

namespace Sys2Proof.Machine.Bulk

open Sys2Proof Sys2Proof.Machine Sys2Proof.Machine.Laws Sys2Proof.Machine.Effects Sys2Proof.Machine.Answers
open Sys2Proof.Machine.Session

/-! ### `ALIGN` -/

/-- A field is zero exactly when all its stream bits are (R53). -/
theorem fieldAt_eq_zero_iff {s : State} {n : Nat} {v : Value} (h : s.FieldAt 0 n v) :
    v = 0 ↔ ∀ k, k < n → s.streamBit k = false := by
  constructor
  · rintro rfl k hk
    simpa [hk] using (h k).symm
  · intro hbits
    refine BitVec.eq_of_getLsbD_eq fun k _ => ?_
    by_cases hk : k < n
    · simp [h k, hbits k hk]
    · simp [h k, hk]

/-- `ALIGN` with the latch clear (R170, R245 item 1). -/
theorem execAlign_clear {s : State} (hf : s.fault = false) :
    exec .align s =
      .next (respond (if s.peek (s.avail % 8) = 0 then .ok else .badPad) 0 (s.consume (s.avail % 8))) :=
  unlessLatched_clear hf

/-- Settles O46: the padding is staged, so the `peek` that `ALIGN` tests is the field of the padding bits. -/
theorem alignSkipsPadding : Obligations.AlignSkipsPadding := by
  intro s hf
  have hpad : s.FieldAt 0 (s.avail % 8) (s.peek (s.avail % 8)) := peek_fieldAt (Nat.mod_le ..) (by omega)
  rw [execAlign_clear hf, if_congr (fieldAt_eq_zero_iff hpad) rfl rfl]
  rfl

/-! ### `SAVE` and `RESTORE` -/

/-- Settles O49, by the two values of `ckValid` (R172, R173). -/
theorem saveAndRestore : Obligations.SaveAndRestore := by
  refine fun s hf => ⟨unlessLatched_clear hf, (unlessLatched_clear hf).trans ?_⟩
  cases s.ckValid with
  | true => rfl
  | false => exact congrArg Host.Outcome.next (raise_eq_faulted .noCheckpoint s hf)

/-! ### No instruction reads `OUT` -/

/-- The state with another content of `OUT`. -/
def withOut (m : Memory) (s : State) : State := { s with outMem := m }

/-- Two results that differ in the content of `OUT` at most. -/
def SameButOut (r r' : Result) : Prop := ∃ m, r' = Result.mapNext (withOut m) r

section WithOut

variable {m : Memory} {s t : State} {r₁ r₂ r₁' r₂' : Result} {i : Instr} {e : Entry}

theorem SameButOut.next (m : Memory) (t : State) : SameButOut (.next t) (.next (withOut m t)) := ⟨m, rfl⟩

/-- A test that does not read `OUT` chooses the same branch. -/
theorem SameButOut.ite {p : Prop} [Decidable p] (h₁ : SameButOut r₁ r₁') (h₂ : SameButOut r₂ r₂') :
    SameButOut (if p then r₁ else r₂) (if p then r₁' else r₂') := by
  split
  next => exact h₁
  next => exact h₂

theorem SameButOut.unlessLatched (h : SameButOut r₁ r₁') :
    SameButOut (unlessLatched s r₁) (unlessLatched (withOut m s) r₁') :=
  .ite (.next m _) h

/-- Where a command ended in `IN` does not depend on `OUT`. -/
theorem SameButOut.endRead (m m' : Memory) (s t : State) :
    SameButOut (endRead s t) (endRead (withOut m s) (withOut m' t)) :=
  .ite ⟨m, rfl⟩ (.next m' t)

theorem SameButOut.checkedRead {limit n : Nat} (h : SameButOut r₁ r₁') :
    SameButOut (checkedRead limit n s r₁) (checkedRead limit n (withOut m s) r₁') :=
  .unlessLatched <| .ite (.next m _) <| .ite (.next m _) h

theorem SameButOut.safeField {n : BitVec 6} {done : State → State}
    (hd : ∀ t, done (withOut m t) = withOut m (done t)) :
    SameButOut (safeField n s done) (safeField n (withOut m s) done) := by
  refine .unlessLatched <| .ite (.next m _) <| .ite (.endRead m m _ _) ?_
  rw [show (withOut m s).staged n.toNat = withOut m (s.staged n.toNat) from rfl, hd]
  exact .endRead m m _ _

theorem SameButOut.transformGuard (m' : Memory) (ops : XOperands) (s run : State) :
    SameButOut (transformGuard ops s run) (transformGuard ops (withOut m s) (withOut m' run)) :=
  .unlessLatched <| .ite (.ite (.next m' run) (.next m _)) (.next m _)

theorem readField_withOut (n : Nat) (m : Memory) (s : State) :
    readField n (withOut m s) = ((readField n s).1, withOut m (readField n s).2) := by
  unfold readField
  rw [show (withOut m s).cfg = s.cfg from rfl]
  split <;> rfl

/-- An expansion writes `OUT` without reading it (R200). -/
theorem runBody_withOut (e : Entry) (ops : XOperands) (m : Memory) (s : State) :
    ∃ m', runBody e ops (withOut m s) = withOut m' (runBody e ops s) := by
  rw [runBody_eq_expand, runBody_eq_expand]
  unfold expand
  rw [show (withOut m s).cfg = s.cfg from rfl]
  split
  next =>
    dsimp only
    split
    next => exact ⟨_, rfl⟩
    next => exact ⟨m, rfl⟩
  next => exact ⟨m, rfl⟩

theorem execXform_withOut (tid len : Byte) (word dest : Operand) (m : Memory) (s : State) :
    SameButOut (execXform tid len word dest s) (execXform tid len word dest (withOut m s)) := by
  rw [execXform_eq, execXform_eq, show (withOut m s).entryAt tid = s.entryAt tid from rfl]
  cases s.entryAt tid with
  | none => exact .transformGuard m _ s (raise .xformRange s)
  | some e =>
    obtain ⟨m', h⟩ := runBody_withOut e ⟨len, word, dest⟩ m s
    dsimp only
    rw [h]
    exact .transformGuard m' _ s _

theorem exec_entry_withOut (he : entryOf i = some e) (m : Memory) (s : State) :
    SameButOut (exec i s) (exec i (withOut m s)) := by
  obtain ⟨m', h⟩ := runBody_withOut e (xOperandsOf s.port) m s
  rw [exec_entry he, exec_entry he, runEntry, runEntry, show (withOut m s).port = s.port from rfl, h]
  exact .transformGuard m' _ s _

theorem execRdreg_withOut (sel : BitVec 6) (m : Memory) (s : State) :
    SameButOut (execRdreg sel s) (execRdreg sel (withOut m s)) := by
  unfold execRdreg
  rw [show (withOut m s).register sel.toNat = s.register sel.toNat from rfl]
  split
  next v _ => exact .next m (respond .ok v s)
  next => exact .next m (raise .illegalField s)

theorem execRead_withOut (n : BitVec 6) (m : Memory) (s : State) :
    SameButOut (execRead n s) (execRead n (withOut m s)) := by
  unfold execRead
  rw [readField_withOut]
  exact .checkedRead (.endRead m m s _)

/-- No instruction reads `OUT`: with another content of it, every instruction does the same to everything else. -/
theorem exec_withOut (i : Instr) (m : Memory) (s : State) : SameButOut (exec i s) (exec i (withOut m s)) := by
  cases i with
  | init => exact .ite (.next m _) (.next m _)
  | reseat | restore | ctx => exact .unlessLatched <| .ite (.next m _) (.next m _)
  | drop => exact .unlessLatched <| .ite (.next m _) <| .ite (.next m _) (.next m _)
  | warmup => exact .unlessLatched <| .ite (.ite (.next m _) (.endRead m m s _)) (.next m _)
  | pull => exact .unlessLatched <| .ite (.next m _) <| .ite (.next m _) (.endRead m m s _)
  | avail | rembytes | getu | align | save => exact .unlessLatched (.next m _)
  | fill | get | take => exact .checkedRead (.endRead m m s _)
  | read n => exact execRead_withOut n m s
  | sread n => exact .safeField (done := fun t => respond .ok (t.peek n.toNat) (t.consume n.toNat)) fun _ => rfl
  | sget n => exact .safeField (done := fun t => respond .ok (t.peek n.toNat) t) fun _ => rfl
  | copy dest cnt => exact .unlessLatched <| .ite (.ite (.next m _) (.endRead m (m.writeBytes _ _) s _)) (.next m _)
  | rdreg sel => exact execRdreg_withOut sel m s
  | xform tid len word dest => exact execXform_withOut tid len word dest m s
  | _ => exact exec_entry_withOut rfl m s

theorem exec_withOut_next (m : Memory) (h : exec i s = .next t) : ∃ m', exec i (withOut m s) = .next (withOut m' t) := by
  obtain ⟨m', hm⟩ := exec_withOut i m s
  rw [h] at hm
  exact ⟨m', hm⟩

end WithOut

/-! ### Runs between `SAVE` and `RESTORE` -/

section Runs

variable {s t u : State} {i : Instr} {is : List Instr} {rs : List (Option Response)}

theorem runInstrs_cons_inv (h : runInstrs (i :: is) s = some (u, rs)) :
    ∃ t rs', exec i s = .next t ∧ runInstrs is t = some (u, rs') ∧ rs = t.resp :: rs' := by
  rw [runInstrs] at h
  split at h
  next t ht =>
    split at h
    next u' rs' hr =>
      cases h
      exact ⟨t, rs', ht, hr, rfl⟩
    next => cases h
  next => cases h
  next => cases h

/-- A run over another content of `OUT` gives the same responses, and the same state up to `OUT`. -/
theorem runInstrs_withOut (m : Memory) (h : runInstrs is s = some (u, rs)) :
    ∃ m', runInstrs is (withOut m s) = some (withOut m' u, rs) := by
  induction is generalizing s rs m with
  | nil =>
    cases h
    exact ⟨m, rfl⟩
  | cons i is ih =>
    obtain ⟨t, rs', ht, hr, rfl⟩ := runInstrs_cons_inv h
    obtain ⟨mt, hmt⟩ := exec_withOut_next m ht
    obtain ⟨mu, hmu⟩ := ih mt hr
    exact ⟨mu, runInstrs_cons (t := withOut mt t) hmt hmu⟩

/-- The instructions that leave the checkpoint as it is (R28, R174). -/
def KeepsCheckpoint (i : Instr) : Prop := i ≠ .save ∧ ∀ base len, i ≠ .init base len ∧ i ≠ .reseat base len

/-- `t` differs from `s` in the stream registers, `OUT` and the response at most. -/
def Worked (s t : State) : Prop := ∃ x m r, t = { s with strm := x, outMem := m, resp := r }

theorem Worked.refl (s : State) : Worked s s := ⟨s.strm, s.outMem, s.resp, rfl⟩

theorem Worked.trans (h : Worked s t) (h' : Worked t u) : Worked s u := by
  obtain ⟨_, _, _, rfl⟩ := h
  obtain ⟨x, m, r, rfl⟩ := h'
  exact ⟨x, m, r, rfl⟩

theorem Worked.fault_eq (h : Worked s t) : t.fault = s.fault := by
  obtain ⟨_, _, _, rfl⟩ := h
  rfl

/-- An instruction that keeps the checkpoint and leaves the latch clear works on the stream and on `OUT` only. -/
theorem exec_worked (hi : KeepsCheckpoint i) (h : exec i s = .next t) (hf : t.fault = false) : Worked s t := by
  obtain ⟨hsave, hother⟩ := hi
  cases exec_effect h with
  | refused hset => exact absurd (hset.symm.trans hf) nofun
  | raised c => exact absurd hf nofun
  | streamed | expanded | copied | restored => exact ⟨_, _, _, rfl⟩
  | started base len he => exact absurd he (hother base len).1
  | reseated base len he => exact absurd he (hother base len).2
  | saved he => exact absurd he hsave

/-- So does a run of them: none but `INIT` clears the latch, so it was clear all along (R244). -/
theorem runInstrs_worked (his : ∀ i ∈ is, KeepsCheckpoint i) (h : runInstrs is s = some (u, rs)) (hf : u.fault = false) :
    Worked s u := by
  induction is generalizing s rs with
  | nil =>
    cases h
    exact .refl _
  | cons i is ih =>
    obtain ⟨t, rs', ht, hr, -⟩ := runInstrs_cons_inv h
    have hrest := ih (fun j hj => his j (List.mem_cons_of_mem i hj)) hr
    exact (exec_worked (his i List.mem_cons_self) ht (hrest.fault_eq ▸ hf)).trans hrest

end Runs

/-- Settles O50: `RESTORE` leads to the state right after `SAVE` with the `OUT` of the run, and no instruction reads `OUT`. -/
theorem checkpointLaw : Obligations.CheckpointLaw := by
  intro is s t u rs hsave hf his hrun hfu
  cases (saveAndRestore s hf).1.symm.trans hsave
  obtain ⟨m', hreplay⟩ := runInstrs_withOut u.outMem hrun
  obtain ⟨x, m, r, rfl⟩ := runInstrs_worked his hrun hfu
  exact ⟨_, (saveAndRestore _ hfu).2, rfl, _, hreplay, rfl⟩

end Sys2Proof.Machine.Bulk

/-!
The context unit (44_context.md): `CTX` answers a context id and changes nothing else (`exec_ctx_answers`). Each mode has an equation for its
id, and each table lookup one for the entry it reads.
-/

namespace Sys2Proof.Machine.Context

open Sys2Proof Sys2Proof.Machine Sys2Proof.Machine.Laws Sys2Proof.Machine.Session

/-- With the latch clear and the unit present, `CTX` only answers (R190). -/
theorem exec_ctx_answers {s : State} (mode : BitVec 6) (p1 p2 : Byte) (hf : s.fault = false) (hu : s.cfg.hasCtx = true) :
    exec (.ctx mode p1 p2) s = .next (s.answered s.strm .ok ((contextId s.cfg mode p1 p2).setWidth 64)) :=
  calc exec (.ctx mode p1 p2) s
      = unlessLatched s (.next (respond .ok ((contextId s.cfg mode p1 p2).setWidth 64) s)) :=
        congrArg (unlessLatched s) (if_pos hu)
    _ = _ := unlessLatched_answer hf

/-! ### The entries of the tables -/

section Tables

variable {c : Config} {p : Byte}

theorem ctxLast_eq {e : BitVec 6} (h : c.ctxLut[p.toNat]? = some e) : ctxLast c p = e :=
  (Vector.getElem?_eq_some_iff.1 h).2

theorem ctxSecond_eq {e : BitVec 6} (h : c.ctxLut[256 + p.toNat]? = some e) : ctxSecond c p = e :=
  (Vector.getElem?_eq_some_iff.1 h).2

theorem bucket_eq {b : BitVec 3} (h : c.sgnLut[p.toNat]? = some b) : bucket c p = b :=
  (Vector.getElem?_eq_some_iff.1 h).2

end Tables

/-! ### The modes -/

/-- `p1 & 0x3F` keeps six bits, as the id has (R191). -/
theorem contextId_lsb6_toNat (c : Config) (p1 p2 : Byte) : (contextId c 0 p1 p2).toNat = p1.toNat % 64 := by
  have hmask : p1.toNat &&& 63 = p1.toNat % 64 := Nat.and_two_pow_sub_one_eq_mod p1.toNat 6
  have hid : (contextId c 0 p1 p2).toNat = (p1.toNat &&& 63) % 64 := BitVec.toNat_setWidth _ _
  rw [hid, hmask, Nat.mod_mod]

/-- `p1 >> 2` of a byte fits the six bits of the id (R192). -/
theorem contextId_msb6_toNat (c : Config) (p1 p2 : Byte) : (contextId c 1 p1 p2).toNat = p1.toNat / 4 := by
  have hid : (contextId c 1 p1 p2).toNat = (p1.toNat >>> 2) % 64 := BitVec.toNat_setWidth _ _
  have hp := p1.isLt
  rw [hid, Nat.shiftRight_eq_div_pow]
  omega

theorem contextId_utf8 (c : Config) (p1 p2 : Byte) : contextId c 2 p1 p2 = ctxLast c p1 ||| ctxSecond c p2 := rfl

/-- The second entry is below 8, so the sum of R194 does not carry: it is the concatenation. -/
theorem shiftLeft_add_eq_append (b1 b2 : BitVec 3) : (b1.setWidth 6 <<< 3) + b2.setWidth 6 = b1 ++ b2 := by
  have h1 := b1.isLt
  have h2 := b2.isLt
  apply BitVec.eq_of_toNat_eq
  rw [BitVec.toNat_append, ← Nat.shiftLeft_add_eq_or_of_lt h2]
  simp [Nat.shiftLeft_eq]
  omega

theorem contextId_signed (c : Config) (p1 p2 : Byte) : contextId c 3 p1 p2 = bucket c p1 ++ bucket c p2 :=
  shiftLeft_add_eq_append _ _

/-- The modes 4 to 63 fall through the case of R190 (R195). -/
theorem contextId_unknown {mode : BitVec 6} (c : Config) (p1 p2 : Byte) (h : 4 ≤ mode.toNat) : contextId c mode p1 p2 = 0 := by
  obtain ⟨k, hk⟩ := Nat.exists_eq_add_of_le' h
  rw [contextId, hk]
  rfl

/-- Settles O51: the answer is the id of the mode as a number. -/
theorem contextOfLastByte : Obligations.ContextOfLastByte := by
  intro mode p1 p2 s hf hu
  rw [exec_ctx_answers mode p1 p2 hf hu]
  refine ⟨?lsb6, ?msb6, fun h => ?unknown⟩
  case lsb6 =>
    rintro rfl
    rw [← contextId_lsb6_toNat s.cfg p1 p2, BitVec.ofNat_toNat]
  case msb6 =>
    rintro rfl
    rw [← contextId_msb6_toNat s.cfg p1 p2, BitVec.ofNat_toNat]
  case unknown =>
    rw [contextId_unknown s.cfg p1 p2 h]
    rfl

/-- Settles O52: the entries of the statement are those that the two lookups of the mode read. -/
theorem contextOfTables : Obligations.ContextOfTables := by
  intro p1 p2 s hf hu
  refine ⟨fun e1 e2 h1 h2 => ?utf8, fun b1 b2 h1 h2 => ?signed⟩
  case utf8 => rw [exec_ctx_answers 2 p1 p2 hf hu, contextId_utf8, ctxLast_eq h1, ctxSecond_eq h2]
  case signed => rw [exec_ctx_answers 3 p1 p2 hf hu, contextId_signed, bucket_eq h1, bucket_eq h2]

end Sys2Proof.Machine.Context

/-!
The transform unit (45_transform.md): the pool and the table (`untilZero_eq_some_iff`, `decodeEntry_ok_iff`), the one equation for what an
entry does (`runBody_eq_writeExpansion`), and `XFORM` and the entries as instructions read off it.
-/

namespace Sys2Proof.Machine.Transform

open Sys2Proof Sys2Proof.Machine Sys2Proof.Machine.Laws Sys2Proof.Machine.Effects Sys2Proof.Machine.MemoryAccess
open Sys2Proof.Machine.CommandPort Sys2Proof.Machine.Answers

/-! ### The fragments of the pool -/

section Fragments

variable {l r : List Byte}

/-- The scan ends at the first zero byte (R202). -/
theorem untilZero_eq_some_iff : untilZero l = some r ↔ (0 : Byte) ∉ r ∧ ∃ rest, l = r ++ (0 : Byte) :: rest := by
  induction l generalizing r with
  | nil => simp [untilZero]
  | cons b l ih =>
    rw [untilZero]
    cases r with
    | nil => by_cases hb : b = 0 <;> simp [hb]
    | cons v r =>
      by_cases hb : b = 0
      · simp only [if_pos hb, List.cons_append, List.cons.injEq, List.mem_cons]
        grind
      · simp only [if_neg hb, Option.map_eq_some_iff, List.cons.injEq, List.cons_append, List.mem_cons, ih]
        grind

/-- The scan fails where there is no zero byte (R202). -/
theorem untilZero_eq_none_iff : untilZero l = none ↔ (0 : Byte) ∉ l := by
  induction l with
  | nil => simp [untilZero]
  | cons b l ih =>
    rw [untilZero]
    by_cases hb : b = 0
    · simp [hb]
    · simp only [if_neg hb, Option.map_eq_none_iff, ih, List.mem_cons, Ne.symm hb, false_or]

end Fragments

/-- Settles O59: a fragment is the scan of the pool from its offset. -/
theorem fragmentsOfPool : Obligations.FragmentsOfPool := fun _ _ => ⟨fun _ => untilZero_eq_some_iff, untilZero_eq_none_iff⟩

/-! ### The words of the table -/

section Table

variable {w : EntryWord} {e : Entry} {op : BodyOp} {k : Nat}

/-- The number of an operation determines it. -/
theorem code_of_bodyOpOf (h : bodyOpOf k = some op) : op.code.toNat = k := by
  unfold bodyOpOf at h
  split at h <;> cases h <;> rfl

/-- The operations are numbered 0 to 20 (R201). -/
theorem bodyOpOf_isSome_iff : (∃ op, bodyOpOf k = some op) ↔ k ≤ 20 := by
  constructor
  · rintro ⟨op, h⟩
    rw [← code_of_bodyOpOf h]
    cases op <;> decide
  · intro h
    interval_cases k <;> exact ⟨_, rfl⟩

/-- What decodes: a known operation over zeros in bits 15:13 (R201). -/
theorem decodeEntry_ok_iff : decodeEntry w = .ok e ↔
    bodyOpOf (w.extractLsb' 8 5).toNat = some e.op ∧ w.extractLsb' 13 3 = 0 ∧ e.prefixId = w.extractLsb' 16 8 ∧
      e.suffixId = w.extractLsb' 0 8 := by
  obtain ⟨p, op, q⟩ := e
  unfold decodeEntry
  split
  next h =>
    rw [h]
    exact iff_of_false nofun nofun
  next op' h =>
    rw [h]
    split
    next hz =>
      simp only [beq_iff_eq.1 hz, Except.ok.injEq, Entry.mk.injEq, Option.some.injEq, true_and]
      tauto
    next hz => exact iff_of_false nofun fun ⟨_, hzero, _⟩ => hz (beq_iff_eq.2 hzero)

/-- A word is its four fields one after the other (R201). -/
theorem entryFields_append (w : EntryWord) :
    w.extractLsb' 16 8 ++ w.extractLsb' 13 3 ++ w.extractLsb' 8 5 ++ w.extractLsb' 0 8 = w := by
  simp only [BitVec.extractLsb'_append_extractLsb'_eq_extractLsb', BitVec.extractLsb'_eq_self]

end Table

/-- Settles O3: the decoder and the encoder of the table agree field by field. -/
theorem entryWords : Obligations.EntryWords := by
  refine ⟨fun w e => ⟨fun h => ?_, fun h => h ▸ decodeEntry_entryWord e⟩, fun w => ?_⟩
  · obtain ⟨hop, hz, hp, hq⟩ := decodeEntry_ok_iff.1 h
    have hcode : e.op.code = w.extractLsb' 8 5 := BitVec.eq_of_toNat_eq (code_of_bodyOpOf hop)
    rw [entryWord, hcode, hp, hq, ← hz, entryFields_append]
  · rw [← bodyOpOf_isSome_iff]
    constructor
    · rintro ⟨e, h⟩
      obtain ⟨hop, hz, -⟩ := decodeEntry_ok_iff.1 h
      exact ⟨⟨_, hop⟩, hz⟩
    · rintro ⟨⟨op, hop⟩, hz⟩
      exact ⟨⟨_, op, _⟩, decodeEntry_ok_iff.2 ⟨hop, hz, rfl, rfl⟩⟩

/-! ### The bytes of an expansion -/

section Expansion

variable {s : State} {e : Entry} {x : XOperands} {pre suf bytes : List Byte}

/-- The first bytes of a run. -/
theorem readBytes_take (m : Memory) (a : Nat) {j k : Nat} (h : j ≤ k) : m.readBytes a j = (m.readBytes a k).take j :=
  List.ext_getElem (by simp [h]) fun i _ _ => by simp [getElem_readBytes]

/-- The bytes of a run from its `j`-th on. -/
theorem readBytes_drop (m : Memory) (a j k : Nat) : m.readBytes (a + j) (k - j) = (m.readBytes a k).drop j :=
  List.ext_getElem (by simp) fun i _ _ => by simp [getElem_readBytes, Nat.add_assoc]

/-- The part of a word that `OMIT_LAST_k` reads (R205 to R213). -/
theorem readBytes_omitLast (m : Memory) (a k len : Nat) :
    m.readBytes (a + (extentOmitLast k len).1) (extentOmitLast k len).2 = (m.readBytes a len).take ((m.readBytes a len).length - k) := by
  rw [length_readBytes, ← readBytes_take m a (Nat.sub_le len k), extentOmitLast]
  congr 1
  omega

/-- The part of a word that `OMIT_FIRST_k` reads (R216 to R224). -/
theorem readBytes_omitFirst (m : Memory) (a k len : Nat) :
    m.readBytes (a + (extentOmitFirst k len).1) (extentOmitFirst k len).2 = (m.readBytes a len).drop k := by
  rw [extentOmitFirst, readBytes_drop]
  rcases Nat.le_total k len with h | h
  · rw [Nat.min_eq_left h]
  · rw [Nat.min_eq_right h, List.drop_of_length_le (by simp), List.drop_of_length_le (by simpa)]

/-- The body that an operation reads and recases is the one that its list form names (R204 to R225). -/
theorem caseStepOf_readBytes (c : Config) (op : BodyOp) (m : Memory) (a len : Nat) :
    caseStepOf op c (m.readBytes (a + (extentOf op len).1) (extentOf op len).2) = bodyText c op (m.readBytes a len) := by
  cases op
  case identity => rfl
  case uppercaseFirst => exact upperFirst_eq c _
  case uppercaseAll => exact upperAll_eq c _
  case omitLast1 | omitLast2 | omitLast3 | omitLast4 | omitLast5 | omitLast6 | omitLast7 | omitLast8 | omitLast9 =>
    exact readBytes_omitLast m a _ len
  all_goals exact readBytes_omitFirst m a _ len

/-- With both fragments well-formed the expansion is the body between them (R200, R203). -/
theorem expansion_eq (hp : fragment s.cfg e.prefixId = some pre) (hq : fragment s.cfg e.suffixId = some suf) :
    s.expansion e x = some (pre ++ bodyText s.cfg e.op (s.wordAt x) ++ suf) := by
  rw [State.expansion, hp, hq]

/-- What becomes of the bytes of an expansion (R200): written at `dest` and counted where they end below `2^AW`; `XFORM_RANGE` where they
do not, or where a fragment is ill-formed. -/
def writeExpansion (dest : Nat) (s : State) : Option (List Byte) → State
  | some bytes =>
    if dest + bytes.length < spaceSize s.cfg then
      respond .ok (BitVec.ofNat 64 bytes.length) { s with outMem := s.outMem.writeBytes dest bytes }
    else raise .xformRange s
  | none => raise .xformRange s

/-- Running an entry writes its expansion (R200). -/
theorem runBody_eq_writeExpansion (e : Entry) (x : XOperands) (s : State) :
    runBody e x s = writeExpansion x.dest.toNat s (s.expansion e x) := by
  rw [runBody_eq_expand, expand, State.expansion]
  cases fragment s.cfg e.prefixId with
  | none => rfl
  | some pre =>
    cases fragment s.cfg e.suffixId with
    | none => rfl
    | some suf =>
      simp only [writeExpansion, caseStepOf_readBytes, State.wordAt, List.length_append, bodyText_length_eq, length_readBytes]

/-- Bytes that fit are written and counted, and nothing else changes (R200, R203). -/
theorem expandedTo_writeExpansion {dest : Nat} (h : dest + bytes.length < spaceSize s.cfg) :
    ExpandedTo s dest bytes (.next (writeExpansion dest s (some bytes))) := by
  refine ⟨_, rfl, ?_, fun k hk => ?_, fun a ha => ?_⟩
  all_goals rw [writeExpansion, if_pos h]
  · rfl
  · rw [respond_outMem, read_writeBytes, dif_pos (by omega)]
    simp
  · rw [respond_outMem, read_writeBytes, dif_neg (by omega)]

/-- An expansion that does not exist or does not fit faults (R200). -/
theorem writeExpansion_eq_raise (h : s.expands e x = false) :
    writeExpansion x.dest.toNat s (s.expansion e x) = raise .xformRange s := by
  unfold State.expands at h
  split at h
  next bytes hb =>
    rw [hb, writeExpansion, if_neg (of_decide_eq_false h)]
  next hb => rw [hb, writeExpansion]

/-- The operations that keep the whole word keep its length (R226). -/
theorem bodyText_length_whole {op : BodyOp} (c : Config) (word : List Byte) (h : op = .uppercaseFirst ∨ op = .uppercaseAll ∨ op = .identity) :
    (bodyText c op word).length = word.length := by
  rw [bodyText_length_eq]
  rcases h with rfl | rfl | rfl <;> rfl

end Expansion

/-- Settles O58: the body is the only part of an expansion that can be shorter than its source. -/
theorem expansionSize : Obligations.ExpansionSize := by
  intro s e x pre suf bytes hp hq hb
  cases (expansion_eq hp hq).symm.trans hb
  have hword : (s.wordAt x).length = x.len.toNat := length_readBytes _
  simp only [List.length_append]
  refine ⟨?_, fun hop => ?_⟩
  · have := bodyText_length s.cfg e.op (s.wordAt x)
    omega
  · rw [bodyText_length_whole s.cfg _ hop, hword]

/-! ### The checks, `XFORM` and the entries as instructions -/

section Runs

variable {s run : State} {x : XOperands} {e : Entry} {tid len : Byte} {word dest : Operand}

/-- With the latch clear, the unit present and the word in range, the transform runs (R245). -/
theorem transformGuard_passes (hf : s.fault = false) (hx : s.cfg.hasXform = true) (hw : x.word.toNat + x.len.toNat < 2 ^ s.cfg.aw) :
    transformGuard x s run = .next run := by
  simp [transformGuard_eq, hf, hx, (spanFits_iff ..).2 hw]

/-- A word that reaches `2^AW` is refused first (R200, R245). -/
theorem transformGuard_illegalField (hf : s.fault = false) (hx : s.cfg.hasXform = true)
    (hw : 2 ^ s.cfg.aw ≤ x.word.toNat + x.len.toNat) : transformGuard x s run = .next (s.faulted .illegalField) := by
  simp [transformGuard_eq, hf, hx, (spanFits_eq_false_iff ..).2 hw, raise_eq_faulted]

/-- `XFORM` writes the expansion by the entry that its transform id selects (R200). -/
theorem exec_xform_of_entryAt (hf : s.fault = false) (hx : s.cfg.hasXform = true) (hw : word.toNat + len.toNat < 2 ^ s.cfg.aw)
    (he : s.entryAt tid = some e) :
    exec (.xform tid len word dest) s = .next (writeExpansion dest.toNat s (s.expansion e ⟨len, word, dest⟩)) := by
  rw [← runBody_eq_writeExpansion e ⟨len, word, dest⟩ s]
  refine (execXform_eq ..).trans ?_
  rw [he]
  exact transformGuard_passes hf hx hw

/-- A transform id that selects no entry faults (R200, R201). -/
theorem exec_xform_of_entryAt_none (hf : s.fault = false) (hx : s.cfg.hasXform = true) (hw : word.toNat + len.toNat < 2 ^ s.cfg.aw)
    (he : s.entryAt tid = none) : exec (.xform tid len word dest) s = .next (s.faulted .xformRange) := by
  rw [← raise_eq_faulted _ _ hf]
  refine (execXform_eq ..).trans ?_
  rw [he]
  exact transformGuard_passes hf hx hw

/-- An entry is the instruction it is turned into (log 10). -/
theorem entryOf_toInstr (e : Entry) : entryOf e.toInstr = some e := by
  obtain ⟨p, op, q⟩ := e
  cases op <;> rfl

/-- An entry as an instruction is run on the operands of the command port (log 10). -/
theorem exec_toInstr (e : Entry) (s : State) :
    exec e.toInstr s = transformGuard (xOperandsOf s.port) s (runBody e (xOperandsOf s.port) s) :=
  exec_entry (entryOf_toInstr e) s

/-- Every entry writes the body of its operation between its fragments (R204 to R224). -/
theorem toInstr_entryExpands (hf : s.fault = false) (hx : s.cfg.hasXform = true)
    (hw : (xOperandsOf s.port).word.toNat + (xOperandsOf s.port).len.toNat < 2 ^ s.cfg.aw) (p q : Byte) (op : BodyOp) :
    EntryExpands (Entry.toInstr ⟨p, op, q⟩) s p q (bodyText s.cfg op (s.wordAt (xOperandsOf s.port))) := by
  intro pre suf hp hq hd
  rw [exec_toInstr, transformGuard_passes hf hx hw, runBody_eq_writeExpansion, expansion_eq hp hq]
  exact expandedTo_writeExpansion hd

/-- The operands of a packet that decodes to `XFORM` are those on the port (R84). -/
theorem xOperandsOf_of_decode {u : Units} {p : Packet} (h : decode u p = .ok (.xform tid len word dest)) :
    xOperandsOf p = ⟨len, word, dest⟩ := by
  obtain ⟨f, hrow, -⟩ := decode_ok_iff.1 h
  unfold commandOf at hrow
  split at hrow
  case h_21 =>
    simp only [Option.ite_none_right_eq_some, Option.some.injEq, Prod.mk.injEq, Instr.xform.injEq] at hrow
    obtain ⟨-, -, -, rfl, rfl, rfl⟩ := hrow
    rfl
  all_goals simp at hrow

end Runs

/-- Settles O53: `XFORM` writes the expansion, which exists and fits. -/
theorem xformExpandsWord : Obligations.XformExpandsWord := by
  intro tid len word dest s e bytes hf hx hw he hb hd
  rw [exec_xform_of_entryAt hf hx hw he, hb]
  exact expandedTo_writeExpansion hd

/-- Settles O54: the range of the word is tested first, then the table, and an expansion that is not written faults. -/
theorem xformFaults : Obligations.XformFaults := by
  intro tid len word dest s hf hx
  refine ⟨fun hw => ?_, fun hw he => exec_xform_of_entryAt_none hf hx hw he, fun e hw he hexp => ?_⟩
  · exact transformGuard_illegalField hf hx hw
  · rw [exec_xform_of_entryAt hf hx hw he, ← raise_eq_faulted _ _ hf]
    exact congrArg _ (writeExpansion_eq_raise hexp)

/-- Settles O55: three cases of `toInstr_entryExpands`, as O56 and O57 are nine. -/
theorem wholeWordEntries : Obligations.WholeWordEntries := fun p q _ hf hx hw =>
  have h := toInstr_entryExpands hf hx hw p q
  ⟨h .identity, h .uppercaseFirst, h .uppercaseAll⟩

/-- Settles O56: `bodyText` takes the front of the word. -/
theorem omitLastEntries : Obligations.OmitLastEntries := fun p q _ hf hx hw =>
  have h := toInstr_entryExpands hf hx hw p q
  ⟨h .omitLast1, h .omitLast2, h .omitLast3, h .omitLast4, h .omitLast5, h .omitLast6, h .omitLast7, h .omitLast8, h .omitLast9⟩

/-- Settles O57: `bodyText` drops the front of the word. -/
theorem omitFirstEntries : Obligations.OmitFirstEntries := fun p q _ hf hx hw =>
  have h := toInstr_entryExpands hf hx hw p q
  ⟨h .omitFirst1, h .omitFirst2, h .omitFirst3, h .omitFirst4, h .omitFirst5, h .omitFirst6, h .omitFirst7, h .omitFirst8, h .omitFirst9⟩

/-- Settles O8: the packet's operands are the ones on the port, so both sides run the same entry behind the same checks. -/
theorem xformStepRunsEntry : Obligations.XformStepRunsEntry := by
  intro s p rest tid len word dest e hhost hd he
  have hops : xOperandsOf p = ⟨len, word, dest⟩ := xOperandsOf_of_decode hd
  rw [step_of_decode_ok hhost hd, exec_toInstr]
  refine (execXform_eq ..).trans ?_
  rw [show State.entryAt { s with host := rest, port := p } tid = some e from he, hops]

/-! ### What a transform reads of `DICT` -/

/-- The state with another content of `DICT`. -/
def withDict (m : Memory) (s : State) : State := { s with dictMem := m }

section Dict

variable {m : Memory} {s : State} {x : XOperands} {i : Instr} {e : Entry}

/-- A test that `f` does not change chooses the same branch on both sides. -/
theorem ite_mapNext {f : State → State} {c : Prop} [Decidable c] {a b a' b' : Result} (ha : a' = Result.mapNext f a)
    (hb : b' = Result.mapNext f b) : (if c then a' else b') = Result.mapNext f (if c then a else b) := by
  rw [ha, hb, apply_ite (Result.mapNext f)]

/-- Two contents of `DICT` agree on the word that `x` names (R200). -/
def SameWord (m m' : Memory) (x : XOperands) : Prop :=
  ∀ a, x.word.toNat ≤ a → a < x.word.toNat + x.len.toNat → m.read a = m'.read a

/-- An expansion reads the word and nothing else of `DICT` (R200). -/
theorem expansion_withDict (h : SameWord m s.dictMem x) : (withDict m s).expansion e x = s.expansion e x := by
  have hword : (withDict m s).wordAt x = s.wordAt x := readBytes_congr fun j hj => h _ (by omega) (by omega)
  unfold State.expansion
  rw [hword]
  rfl

/-- Running an entry carries another content of `DICT` along, where the word is the same (R200). -/
theorem runBody_withDict (h : SameWord m s.dictMem x) : runBody e x (withDict m s) = withDict m (runBody e x s) := by
  rw [runBody_eq_writeExpansion, runBody_eq_writeExpansion, expansion_withDict h]
  cases s.expansion e x with
  | none => rfl
  | some bytes =>
    rw [writeExpansion, writeExpansion, apply_ite (withDict m)]
    rfl

theorem transformGuard_withDict (x : XOperands) (s run : State) :
    transformGuard x (withDict m s) (withDict m run) = Result.mapNext (withDict m) (transformGuard x s run) :=
  ite_mapNext rfl <| ite_mapNext (ite_mapNext rfl rfl) rfl

theorem execXform_withDict (tid len : Byte) (word dest : Operand) (h : SameWord m s.dictMem ⟨len, word, dest⟩) :
    execXform tid len word dest (withDict m s) = Result.mapNext (withDict m) (execXform tid len word dest s) := by
  rw [execXform_eq, execXform_eq, ← transformGuard_withDict, show (withDict m s).entryAt tid = s.entryAt tid from rfl]
  cases s.entryAt tid with
  | none => rfl
  | some e => exact congrArg _ (runBody_withDict h)

theorem exec_entry_withDict (he : entryOf i = some e) (h : SameWord m s.dictMem (xOperandsOf s.port)) :
    exec i (withDict m s) = Result.mapNext (withDict m) (exec i s) := by
  rw [exec_entry he, exec_entry he, runEntry, runEntry, ← transformGuard_withDict, ← runBody_withDict h]
  rfl

/-- The field of `READ`, in one step or two, does not read `DICT` (R135). -/
theorem readField_withDict (n : Nat) (m : Memory) (s : State) :
    readField n (withDict m s) = ((readField n s).1, withDict m (readField n s).2) := by
  unfold readField
  rw [show (withDict m s).cfg = s.cfg from rfl]
  split <;> rfl

theorem execRead_withDict (n : BitVec 6) (m : Memory) (s : State) :
    execRead n (withDict m s) = Result.mapNext (withDict m) (execRead n s) := by
  unfold execRead
  rw [readField_withDict]
  exact ite_mapNext rfl <| ite_mapNext rfl <| ite_mapNext rfl <| ite_mapNext rfl rfl

theorem execRdreg_withDict (sel : BitVec 6) (m : Memory) (s : State) :
    execRdreg sel (withDict m s) = Result.mapNext (withDict m) (execRdreg sel s) := by
  unfold execRdreg
  rw [show (withDict m s).register sel.toNat = s.register sel.toNat from rfl]
  split <;> rfl

end Dict

/-- Settles O23: an expansion reads the word alone; the commands test and move nothing that depends on `DICT`. -/
theorem dictReadOnlyInsideWord : Obligations.DictReadOnlyInsideWord := by
  intro i s m (h : SameWord m s.dictMem (transformOperands i s))
  show exec i (withDict m s) = Result.mapNext (withDict m) (exec i s)
  cases i with
  | init => exact ite_mapNext rfl rfl
  | avail | rembytes | getu | align | save => exact ite_mapNext rfl rfl
  | reseat | restore | ctx => exact ite_mapNext rfl <| ite_mapNext rfl rfl
  | drop => exact ite_mapNext rfl <| ite_mapNext rfl <| ite_mapNext rfl rfl
  | warmup => exact ite_mapNext rfl <| ite_mapNext (ite_mapNext rfl <| ite_mapNext rfl rfl) rfl
  | pull => exact ite_mapNext rfl <| ite_mapNext rfl <| ite_mapNext rfl <| ite_mapNext rfl rfl
  | fill | get | take => exact ite_mapNext rfl <| ite_mapNext rfl <| ite_mapNext rfl <| ite_mapNext rfl rfl
  | read n => exact execRead_withDict n m s
  | sread | sget => exact ite_mapNext rfl <| ite_mapNext rfl <| ite_mapNext (ite_mapNext rfl rfl) (ite_mapNext rfl rfl)
  | copy => exact ite_mapNext rfl <| ite_mapNext (ite_mapNext rfl <| ite_mapNext rfl rfl) rfl
  | rdreg sel => exact execRdreg_withDict sel m s
  | xform tid len word dest => exact execXform_withDict tid len word dest h
  | _ => exact exec_entry_withDict rfl h

end Sys2Proof.Machine.Transform

/-!
Exceptions (60_exceptions.md). A `FAULT` answer is a refusal or a fault taken (`Effect.fault_cases`). While a fault is latched an
instruction other than `INIT` and `RDREG` is refused (`exec_refused`); the words of these two are told apart by `decode_rdreg_word`,
`decode_rdreg_ill_formed`, `decode_init_word` and `decode_init_ill_formed`.
-/

namespace Sys2Proof.Machine.Exceptions

open Sys2Proof Sys2Proof.Machine Sys2Proof.Machine.Laws Sys2Proof.Machine.Effects Sys2Proof.Machine.CommandPort

/-! ### Idle and reset -/

/-- Settles O9. -/
theorem idleAndResetSteps : Obligations.IdleAndResetSteps := by
  refine fun s => ⟨fun hidle => ?_, fun rest hreset => ?_⟩
  · rw [step, hidle]
  · rw [step, hreset]
    rfl

/-! ### What a `FAULT` answer leaves unchanged -/

theorem respond_answeredFault_iff {st : Status} {v : Value} {s : State} : (respond st v s).answeredFault = true ↔ st = .fault :=
  decide_eq_true_iff

/-- The effects that answer `FAULT`: a refusal and a fault taken (R242, R243). -/
theorem Effect.fault_cases {i : Instr} {s t : State} (h : Effect i s t) (ht : t.answeredFault = true) :
    (s.fault = true ∧ t = refuse s) ∨ ∃ c, t = raise c s := by
  cases h with
  | refused hf => exact .inl ⟨hf, rfl⟩
  | raised c => exact .inr ⟨c, rfl⟩
  | streamed x st v hst => exact absurd (respond_answeredFault_iff (s := s.withStream x).1 ht) hst
  | expanded | copied | started | reseated | saved | restored => exact nomatch respond_answeredFault_iff.1 ht

/-- Settles O14: a refusal changes the response alone, a fault taken the latch and the response. -/
theorem faultsArePrecise : Obligations.FaultsArePrecise := by
  refine ⟨fun _ _ => rfl, fun i s t h ht => ?_⟩
  rcases Effect.fault_cases (exec_effect h) ht with ⟨hf, rfl⟩ | ⟨c, rfl⟩
  · refine ⟨?_, fun _ => rfl, fun hclear => absurd (hf.symm.trans hclear) nofun⟩
    rw [← hf]
    rfl
  · refine ⟨rfl, fun hf => ?_, fun hclear => ?_⟩
    · rw [raise_faultCause, if_pos hf]
    · rw [raise_resp, raise_faultCause, hclear]
      rfl

/-! ### The packets that the latch does not refuse -/

section Words

variable {u : Units} {p : Packet}

/-- The words of `RDREG` (R85, R94). -/
theorem rdreg_word (sel : BitVec 6) : 0x90000000 ||| sel.setWidth 32 = commandWord 0x12 0 0 sel := by
  revert sel
  decide

theorem commandOf_rdreg (hop : opField p.cw = 0x12) : commandOf u p = some (.N, .rdreg (nField p.cw)) := by simp [commandOf, hop]

theorem commandOf_init (hop : opField p.cw = 0x00) : commandOf u p = some (.M, .init p.a0 p.a1) := by simp [commandOf, hop]

theorem decode_rdreg_word {sel : BitVec 6} (h : p.cw = 0x90000000 ||| sel.setWidth 32) : decode u p = .ok (.rdreg sel) := by
  rw [rdreg_word] at h
  exact decode_ok_iff.2 ⟨.N, by simp [commandOf, h], by simp [h]⟩

/-- The opcode of `RDREG` in a word that is none of its words: a must-be-zero bit is set (R87). -/
theorem decode_rdreg_ill_formed (hop : opField p.cw = 0x12) (h : ∀ sel : BitVec 6, p.cw ≠ 0x90000000 ||| sel.setWidth 32) :
    decode u p = .error .mustBeZero := by
  refine decode_of_unused_set (commandOf_rdreg hop) fun hclear => h (nField p.cw) ?_
  rw [rdreg_word, ← hop]
  exact (keptWord_of_unusedClear p.cw hclear).symm

theorem decode_init_word (h : p.cw = 0) : decode u p = .ok (.init p.a0 p.a1) :=
  decode_ok_iff.2 ⟨.M, commandOf_init (by rw [h]; rfl), by rw [h]; rfl⟩

/-- The opcode of `INIT` in a word that is not 0: a must-be-zero bit is set (R87). -/
theorem decode_init_ill_formed (hop : opField p.cw = 0x00) (h : p.cw ≠ 0) : decode u p = .error .mustBeZero := by
  refine decode_of_unused_set (commandOf_init hop) fun hclear => h ?_
  rw [← keptWord_of_unusedClear p.cw hclear, keptWord, hop]
  rfl

/-- A packet that decodes has the word of its instruction (R84). -/
theorem cw_of_decode {i : Instr} {q : Packet} (hd : decode u p = .ok i) (hq : encode i = .packet q) : p.cw = q.cw := by
  rcases wordOfDecode u p i hd with h | ⟨h, -⟩ <;> cases hq.symm.trans h <;> rfl

end Words

/-! ### The latch -/

section Latched

variable {s : State} {p : Packet} {rest : List HostEvent} {i : Instr} {err : DecodeError}

/-- While a fault is latched every instruction but `INIT` and `RDREG` is refused (R243). -/
theorem exec_refused (hf : s.fault = true) (hinit : ∀ base len, i ≠ .init base len) (hrdreg : ∀ sel, i ≠ .rdreg sel) :
    exec i s = .next (refuse s) := by
  cases i with
  | init base len => exact absurd rfl (hinit base len)
  | rdreg sel => exact absurd rfl (hrdreg sel)
  | _ => exact unlessLatched_set hf

/-- `ILLEGAL_FIELD` raised while a fault is latched keeps the latch (R242, R243). -/
theorem raise_illegalField_latched (hf : s.fault = true) : raise .illegalField s = s.answered s.strm .fault 2 := by
  rw [raise_illegalField_eq, if_pos hf]

theorem passesLatch_iff : passesLatch p = true ↔ opField p.cw = 0x00 ∨ opField p.cw = 0x12 := by simp [passesLatch]

theorem rejectPacket_refused (hf : s.fault = true) (hpass : ¬passesLatch p = true) : rejectPacket p err s = refuse s := by
  simp [rejectPacket, hf, hpass]

/-- A must-be-zero bit in a packet that passes the latch (R87, R243). -/
theorem rejectPacket_illegalField (hf : s.fault = true) (hpass : passesLatch p = true) :
    rejectPacket p .mustBeZero s = s.answered s.strm .fault 2 := by
  rw [← raise_illegalField_latched hf]
  simp [rejectPacket, hpass, rejectCause]

theorem exec_rdreg_latched_reserved {sel : BitVec 6} (hf : s.fault = true) (h : s.register sel.toNat = none) :
    exec (.rdreg sel) s = .next (s.answered s.strm .fault 2) := by
  show execRdreg sel s = _
  rw [execRdreg, h, raise_illegalField_latched hf]

/-- The step on a packet of another opcode, whether or not it is an instruction (R243). -/
theorem step_refused (hhost : s.host = .command p :: rest) (hf : s.fault = true) (hinit : opField p.cw ≠ 0x00)
    (hrdreg : opField p.cw ≠ 0x12) : step s = .next (refuse { s with host := rest, port := p }) := by
  cases hd : decode (units s.cfg) p with
  | ok i =>
    rw [step_of_decode_ok hhost hd]
    refine exec_refused hf ?_ ?_
    · rintro base len rfl
      exact hinit (by rw [cw_of_decode hd rfl]; simp)
    · rintro sel rfl
      exact hrdreg (by rw [cw_of_decode hd rfl]; simp)
  | error err =>
    rw [step_of_decode_error hhost hd]
    exact congrArg _ (rejectPacket_refused hf fun hpass => (passesLatch_iff.1 hpass).elim hinit hrdreg)

end Latched

/-- Settles O13: a packet of another opcode is refused either way; the opcodes of `INIT` and `RDREG` are split by their words. -/
theorem latchRefusesPackets : Obligations.LatchRefusesPackets := by
  intro s p rest hhost hf
  refine ⟨fun hinit hrdreg => step_refused hhost hf hinit hrdreg, fun sel hcw => ?_, fun hop hcw => ?_, fun hop => ?_⟩
  · rw [step_of_decode_ok hhost (decode_rdreg_word hcw)]
    cases hreg : s.register sel.toNat with
    | some v => exact exec_rdreg_of_register hreg
    | none => exact exec_rdreg_latched_reserved hf hreg
  · rw [step_of_decode_error hhost (decode_rdreg_ill_formed hop hcw)]
    exact congrArg _ (rejectPacket_illegalField hf (passesLatch_iff.2 (.inr hop)))
  · by_cases hcw : p.cw = 0
    · rw [step_of_decode_ok hhost (decode_init_word hcw), initStartsSession, if_pos hf]
      simp only [hcw, true_and]
    · rw [step_of_decode_error hhost (decode_init_ill_formed hop hcw), if_neg fun h => hcw h.1]
      exact congrArg _ (rejectPacket_illegalField hf (passesLatch_iff.2 (.inl hop)))

/-- A packet after which the latch is clear, though it was set before, started a session (R243, R244). -/
theorem init_of_step_clears {s t : State} {p : Packet} {rest : List HostEvent} (hhost : s.host = .command p :: rest)
    (h : step s = .next t) (hf : s.fault = true) (ht : t.fault = false) :
    p.cw = 0 ∧ p.a0.toNat + p.a1.toNat < 2 ^ s.cfg.aw ∧ t.resp = some ⟨.ok, 0⟩ := by
  have hkept : t.fault ≠ s.fault := by rw [hf, ht]; nofun
  obtain ⟨hother, hrdreg, hbad, hinit⟩ := latchRefusesPackets s p rest hhost hf
  by_cases h0 : opField p.cw = 0x00
  · by_cases hgood : p.cw = 0 ∧ p.a0.toNat + p.a1.toNat < 2 ^ s.cfg.aw
    · cases ((hinit h0).trans (congrArg _ (if_pos hgood))).symm.trans h
      exact ⟨hgood.1, hgood.2, rfl⟩
    · cases ((hinit h0).trans (congrArg _ (if_neg hgood))).symm.trans h
      exact absurd rfl hkept
  · by_cases h12 : opField p.cw = 0x12
    · by_cases hsel : ∃ sel : BitVec 6, p.cw = 0x90000000 ||| sel.setWidth 32
      · obtain ⟨sel, hcw⟩ := hsel
        cases (hrdreg sel hcw).symm.trans h
        split at hkept <;> exact absurd rfl hkept
      · cases (hbad h12 (not_exists.1 hsel)).symm.trans h
        exact absurd rfl hkept
    · cases (hother h0 h12).symm.trans h
      exact absurd rfl hkept

/-- Settles O15: an idle step and a host write keep the latch, a packet that clears it is a good `INIT`, the others are resets. -/
theorem onlyInitLeavesFaultState : Obligations.OnlyInitLeavesFaultState := by
  intro s t h hf ht
  have hkept : t.fault ≠ s.fault := by rw [hf, ht]; nofun
  rcases Laws.step_next h with ⟨-, rfl⟩ | ⟨p, rest, hhost, -⟩ | ⟨rest, hhost, -⟩ | ⟨p, k, rest, -, hhost, -, -⟩ |
    ⟨sp, a, b, rest, hhost, hput⟩
  · exact absurd rfl hkept
  · exact .inr (.inr ⟨p, rest, hhost, init_of_step_clears hhost h hf ht⟩)
  · exact .inl ⟨rest, hhost⟩
  · exact .inr (.inl ⟨p, k, rest, hhost⟩)
  · obtain ⟨-, ⟨-, rfl⟩ | ⟨-, rfl⟩ | ⟨-, rfl⟩⟩ := hostPut_next hput <;> exact absurd rfl hkept

end Sys2Proof.Machine.Exceptions

/-!
Reset during a command (70_reset_and_hazards.md R270). The step on an abort event is `abandon` of the state that the command would have
reached (`step_abort`); `OUT` afterwards is an overlay of its contents after the command on those before.
-/

namespace Sys2Proof.Machine.Reset

open Sys2Proof Sys2Proof.Machine Sys2Proof.Machine.Laws

/-- The step on an abort event, where the command would have reached `t` (R270). -/
theorem step_abort {s t : State} {p : Packet} {k : Nat} {rest : List HostEvent} (hhost : s.host = .abort p k :: rest)
    (hrun : runPacket p { s with host := rest } = .next t) : step s = .next (abandon p k { s with host := rest } t) := by
  simp only [step, hhost, runEvent, hrun]

/-- Settles O11: the state is a reset one by `abandon`, and its `OUT` reads as the overlay. -/
theorem abortedCommand : Obligations.AbortedCommand :=
  fun _ _ _ _ _ hhost hrun => ⟨_, step_abort hhost hrun, rfl, fun _ => read_overlay⟩

end Sys2Proof.Machine.Reset
